-- ==== Sys2Proof/Word.lean ====
section
/-! DEFINITION. The block's plain value types: bytes, data words, masks and the four access widths (R6, R11, R92). -/

namespace Sys2Proof

/-- One byte of the backing store (R21: "a byte is 8 bits"). -/
abbrev Byte := BitVec 8

/-- The 64-bit data operand `D` and result `R` (R90). -/
abbrev DataWord := BitVec 64

/-- A 32-bit word: an MMR write mask (R25) or a command header `CH` (R91). -/
abbrev Word32 := BitVec 32

/-- The access widths `u8`, `u16`, `u32`, `u64` of R11, named by the mnemonic suffixes of R92. -/
inductive Width where
  | b
  | h
  | w
  | d
deriving DecidableEq, Repr

/-- `n = 2^sz` bytes (R92). -/
def Width.bytes : Width → Nat
  | .b => 1
  | .h => 2
  | .w => 4
  | .d => 8

end Sys2Proof
end

