-- ==== Sys2Proof/Config.lean ====
section
/-! DEFINITION. The construction parameters of the block (R5, R32). They are fixed for one block: State holds them in a
constant field, so that a statement about every state is one about every choice of the parameters. -/

namespace Sys2Proof

/-- The parameters of R5. `PAGE_SIZE` and `REGION_SIZE` are powers of two (R230), so their shifts are held. `MEM_INIT`
is the `image` argument of `Machine.State.construct`. -/
structure Config where
  /-- `SIZE_BYTES`, open. -/
  sizeBytes : Nat
  /-- `PAGE_SHIFT`, `PAGE_SIZE = 2^PAGE_SHIFT`. -/
  pageShift : Nat
  /-- `REGION_SHIFT`, `REGION_SIZE = 2^REGION_SHIFT`. -/
  regionShift : Nat
  /-- `REGION_COUNT`, open; read by no rule (R33, U11). -/
  regionCount : Nat
  /-- `ADDR_W`, the width of the address operand. -/
  addrW : Nat
  /-- `DCCM_RO`, the read-only DCCM policy FINISH_CONFIG applies (R127). -/
  dccmRo : Bool
deriving DecidableEq, Repr

/-- The parameters of `State.reset`: the defaults of R5 where it gives one. DESIGN CHOICE (log entry 6): `SIZE_BYTES` =
1 MiB and `REGION_COUNT` = 16, which R5 leaves open. -/
def Config.default : Config where
  sizeBytes := 0x100000
  pageShift := 12
  regionShift := 28
  regionCount := 16
  addrW := 64
  dccmRo := false

end Sys2Proof
end

