-- ==== Sys2Proof/Syntax.lean ====
section
/-! DEFINITION. Requests at the command port (R90) and the 44 commands of the opcode table (R94), one constructor a row.
A constructor carries the operands its command uses: `h` the hart id, `a` the address operand `A`, `d` the whole data
operand `D`. Operands a command ignores are left out (R93, R98). -/

namespace Sys2Proof

/-- One request at the command port: header `CH`, address operand `A`, data operand `D` (R90). -/
structure Request where
  ch : Word32
  a  : Nat
  d  : DataWord
deriving DecidableEq, Repr

inductive Instr where
  | readB (a : Nat)
  | readH (a : Nat)
  | readW (a : Nat)
  | readD (a : Nat)
  | readInstHalf (a : Nat)
  | readInstWord (a : Nat)
  | writeB (h a : Nat) (d : DataWord)
  | writeH (h a : Nat) (d : DataWord)
  | writeW (h a : Nat) (d : DataWord)
  | writeD (h a : Nat) (d : DataWord)
  | checkWriteB (a : Nat) (d : DataWord)
  | checkWriteH (a : Nat) (d : DataWord)
  | checkWriteW (a : Nat) (d : DataWord)
  | checkWriteD (a : Nat) (d : DataWord)
  | pokeB (a : Nat) (d : DataWord)
  | pokeH (a : Nat) (d : DataWord)
  | pokeW (a : Nat) (d : DataWord)
  | pokeD (a : Nat) (d : DataWord)
  | getPma (a : Nat)
  | makeLrB (h a : Nat)
  | makeLrH (h a : Nat)
  | makeLrW (h a : Nat)
  | makeLrD (h a : Nat)
  | hasLr (h a : Nat)
  | invalidateLr (h : Nat)
  | invalidateOtherHartLrB (h a : Nat)
  | invalidateOtherHartLrH (h a : Nat)
  | invalidateOtherHartLrW (h a : Nat)
  | invalidateOtherHartLrD (h a : Nat)
  | invalidateLrsB (a : Nat)
  | invalidateLrsH (a : Nat)
  | invalidateLrsW (a : Nat)
  | invalidateLrsD (a : Nat)
  | lockAcq (h : Nat)
  | lockRel (h : Nat)
  | getLastWriteNew (h : Nat)
  | getLastWriteOld (h : Nat)
  | clearLastWrite (h : Nat)
  | setHartCount (d : DataWord)
  | defineIccm (a : Nat) (d : DataWord)
  | defineDccm (a : Nat) (d : DataWord)
  | defineMmrArea (a : Nat) (d : DataWord)
  | defineMmrMask (a : Nat) (d : DataWord)
  | finishConfig (d : DataWord)
deriving DecidableEq, Repr

end Sys2Proof
end

