-- ==== Sys2Proof/WellFormed.lean ====
section
/-! DEFINITION. Which commands the port can carry: a hart id has the 24 bits of `CH[31:8]` (R91), an address operand the
`ADDR_W` bits of `A` (R90). A data operand is 64 bits by its type. -/

namespace Sys2Proof

/-- The hart id of a command that carries one (R93). -/
def Instr.hart? : Instr → Option Nat
  | .writeB h _ _ | .writeH h _ _ | .writeW h _ _ | .writeD h _ _ => some h
  | .makeLrB h _ | .makeLrH h _ | .makeLrW h _ | .makeLrD h _ => some h
  | .hasLr h _ | .invalidateLr h => some h
  | .invalidateOtherHartLrB h _ | .invalidateOtherHartLrH h _ => some h
  | .invalidateOtherHartLrW h _ | .invalidateOtherHartLrD h _ => some h
  | .lockAcq h | .lockRel h => some h
  | .getLastWriteNew h | .getLastWriteOld h | .clearLastWrite h => some h
  | .readB _ | .readH _ | .readW _ | .readD _ | .readInstHalf _ | .readInstWord _ => none
  | .checkWriteB _ _ | .checkWriteH _ _ | .checkWriteW _ _ | .checkWriteD _ _ => none
  | .pokeB _ _ | .pokeH _ _ | .pokeW _ _ | .pokeD _ _ => none
  | .getPma _ | .invalidateLrsB _ | .invalidateLrsH _ | .invalidateLrsW _ | .invalidateLrsD _ => none
  | .setHartCount _ | .defineIccm _ _ | .defineDccm _ _ | .defineMmrArea _ _ => none
  | .defineMmrMask _ _ | .finishConfig _ => none

/-- The address operand of a command that uses one (R94, column `A`). -/
def Instr.addr? : Instr → Option Nat
  | .readB a | .readH a | .readW a | .readD a | .readInstHalf a | .readInstWord a => some a
  | .writeB _ a _ | .writeH _ a _ | .writeW _ a _ | .writeD _ a _ => some a
  | .checkWriteB a _ | .checkWriteH a _ | .checkWriteW a _ | .checkWriteD a _ => some a
  | .pokeB a _ | .pokeH a _ | .pokeW a _ | .pokeD a _ => some a
  | .getPma a => some a
  | .makeLrB _ a | .makeLrH _ a | .makeLrW _ a | .makeLrD _ a | .hasLr _ a => some a
  | .invalidateOtherHartLrB _ a | .invalidateOtherHartLrH _ a => some a
  | .invalidateOtherHartLrW _ a | .invalidateOtherHartLrD _ a => some a
  | .invalidateLrsB a | .invalidateLrsH a | .invalidateLrsW a | .invalidateLrsD a => some a
  | .defineIccm a _ | .defineDccm a _ | .defineMmrArea a _ | .defineMmrMask a _ => some a
  | .invalidateLr _ | .lockAcq _ | .lockRel _ => none
  | .getLastWriteNew _ | .getLastWriteOld _ | .clearLastWrite _ => none
  | .setHartCount _ | .finishConfig _ => none

/-- A command the port of a block with parameters `c` can carry. -/
def Instr.wf (c : Config) (i : Instr) : Bool :=
  i.hart?.all (fun h => decide (h < 2 ^ 24)) && i.addr?.all (fun a => decide (a < 2 ^ c.addrW))

end Sys2Proof
end

