-- ==== Sys2Proof/Decode.lean ====
section
/-! DEFINITION. The header fields of R91, the decoder of R101, total on every request, and the encoder written from the
same table. The opcode numbers, the field places and the response to a reserved header are the spec's own decisions D2
and D23. -/

namespace Sys2Proof

/-! ## Header fields (R91) -/

/-- `CH[4:0]`. -/
def opField (ch : Word32) : Nat := ch.toNat % 32

/-- `CH[6:5]`. -/
def szField (ch : Word32) : Nat := ch.toNat / 32 % 4

/-- `CH[7]`, reserved, must be 0. -/
def zField (ch : Word32) : Nat := ch.toNat / 128 % 2

/-- `CH[31:8]`. -/
def hartField (ch : Word32) : Nat := ch.toNat / 256

/-- The header `{hart, z = 0, sz, op}` (R91). -/
def header (op sz hart : Nat) : Word32 := BitVec.ofNat 32 (hart * 256 + sz * 32 + op)

/-- The address operand as the port's `ADDR_W` wires carry it (R90; log entry 5). -/
def addrOperand (c : Config) (a : Nat) : Nat := a % 2 ^ c.addrW

/-! ## The sized families: one command for each size code (R92, R94) -/

/-- Size code to width; the code has two bits (R92). -/
def widthOfSz : Nat → Width
  | 0 => .b
  | 1 => .h
  | 2 => .w
  | _ => .d

/-- Width to size code (R92). -/
def Width.sz : Width → Nat
  | .b => 0
  | .h => 1
  | .w => 2
  | .d => 3

def Instr.readOf : Width → Nat → Instr
  | .b, a => .readB a
  | .h, a => .readH a
  | .w, a => .readW a
  | .d, a => .readD a

def Instr.writeOf : Width → Nat → Nat → DataWord → Instr
  | .b, h, a, d => .writeB h a d
  | .h, h, a, d => .writeH h a d
  | .w, h, a, d => .writeW h a d
  | .d, h, a, d => .writeD h a d

def Instr.checkWriteOf : Width → Nat → DataWord → Instr
  | .b, a, d => .checkWriteB a d
  | .h, a, d => .checkWriteH a d
  | .w, a, d => .checkWriteW a d
  | .d, a, d => .checkWriteD a d

def Instr.pokeOf : Width → Nat → DataWord → Instr
  | .b, a, d => .pokeB a d
  | .h, a, d => .pokeH a d
  | .w, a, d => .pokeW a d
  | .d, a, d => .pokeD a d

def Instr.makeLrOf : Width → Nat → Nat → Instr
  | .b, h, a => .makeLrB h a
  | .h, h, a => .makeLrH h a
  | .w, h, a => .makeLrW h a
  | .d, h, a => .makeLrD h a

def Instr.invalidateOtherHartLrOf : Width → Nat → Nat → Instr
  | .b, h, a => .invalidateOtherHartLrB h a
  | .h, h, a => .invalidateOtherHartLrH h a
  | .w, h, a => .invalidateOtherHartLrW h a
  | .d, h, a => .invalidateOtherHartLrD h a

def Instr.invalidateLrsOf : Width → Nat → Instr
  | .b, a => .invalidateLrsB a
  | .h, a => .invalidateLrsH a
  | .w, a => .invalidateLrsW a
  | .d, a => .invalidateLrsD a

/-! ## The decoder (R95, R101) -/

/-- Why a header is reserved (R95). -/
inductive ReservedWhy where
  /-- `z = 1`. -/
  | reservedBit
  /-- An `op` the table does not list. -/
  | reservedOpcode
  /-- A size code the opcode does not have. -/
  | reservedSize
deriving DecidableEq, Repr

/-- What a header decodes to: one command, or reserved. -/
inductive Decoded where
  | command (i : Instr)
  | reserved (why : ReservedWhy)
deriving DecidableEq, Repr

/-- An unsized command: `sz` must be 0 (R101). -/
def unsized (sz : Nat) (i : Instr) : Decoded :=
  if sz = 0 then .command i else .reserved .reservedSize

/-- Commands by opcode, from the fields of a header whose bit 7 is 0 (R94, R101). -/
def decodeFields (op sz h a : Nat) (d : DataWord) : Decoded :=
  match op with
  | 0x01 => .command (.readOf (widthOfSz sz) a)
  | 0x02 =>
    match sz with
    | 1 => .command (.readInstHalf a)
    | 2 => .command (.readInstWord a)
    | _ => .reserved .reservedSize
  | 0x03 => .command (.writeOf (widthOfSz sz) h a d)
  | 0x04 => .command (.checkWriteOf (widthOfSz sz) a d)
  | 0x05 => .command (.pokeOf (widthOfSz sz) a d)
  | 0x06 => unsized sz (.getPma a)
  | 0x08 => .command (.makeLrOf (widthOfSz sz) h a)
  | 0x09 => unsized sz (.hasLr h a)
  | 0x0A => unsized sz (.invalidateLr h)
  | 0x0B => .command (.invalidateOtherHartLrOf (widthOfSz sz) h a)
  | 0x0C => .command (.invalidateLrsOf (widthOfSz sz) a)
  | 0x0D => unsized sz (.lockAcq h)
  | 0x0E => unsized sz (.lockRel h)
  | 0x10 => unsized sz (.getLastWriteNew h)
  | 0x11 => unsized sz (.getLastWriteOld h)
  | 0x12 => unsized sz (.clearLastWrite h)
  | 0x18 => unsized sz (.setHartCount d)
  | 0x19 => unsized sz (.defineIccm a d)
  | 0x1A => unsized sz (.defineDccm a d)
  | 0x1B => unsized sz (.defineMmrArea a d)
  | 0x1C => unsized sz (.defineMmrMask a d)
  | 0x1E => unsized sz (.finishConfig d)
  | _ => .reserved .reservedOpcode

/-- The decoder of R101, total on every request. -/
def decode (c : Config) (r : Request) : Decoded :=
  if zField r.ch = 0 then
    decodeFields (opField r.ch) (szField r.ch) (hartField r.ch) (addrOperand c r.a) r.d
  else .reserved .reservedBit

/-! ## The encoder (R91, R94) -/

/-- The request of a command; a field the command ignores is 0 (DESIGN CHOICE, log entry 10). -/
def encode : Instr → Request
  | .readB a => ⟨header 0x01 0 0, a, 0⟩
  | .readH a => ⟨header 0x01 1 0, a, 0⟩
  | .readW a => ⟨header 0x01 2 0, a, 0⟩
  | .readD a => ⟨header 0x01 3 0, a, 0⟩
  | .readInstHalf a => ⟨header 0x02 1 0, a, 0⟩
  | .readInstWord a => ⟨header 0x02 2 0, a, 0⟩
  | .writeB h a d => ⟨header 0x03 0 h, a, d⟩
  | .writeH h a d => ⟨header 0x03 1 h, a, d⟩
  | .writeW h a d => ⟨header 0x03 2 h, a, d⟩
  | .writeD h a d => ⟨header 0x03 3 h, a, d⟩
  | .checkWriteB a d => ⟨header 0x04 0 0, a, d⟩
  | .checkWriteH a d => ⟨header 0x04 1 0, a, d⟩
  | .checkWriteW a d => ⟨header 0x04 2 0, a, d⟩
  | .checkWriteD a d => ⟨header 0x04 3 0, a, d⟩
  | .pokeB a d => ⟨header 0x05 0 0, a, d⟩
  | .pokeH a d => ⟨header 0x05 1 0, a, d⟩
  | .pokeW a d => ⟨header 0x05 2 0, a, d⟩
  | .pokeD a d => ⟨header 0x05 3 0, a, d⟩
  | .getPma a => ⟨header 0x06 0 0, a, 0⟩
  | .makeLrB h a => ⟨header 0x08 0 h, a, 0⟩
  | .makeLrH h a => ⟨header 0x08 1 h, a, 0⟩
  | .makeLrW h a => ⟨header 0x08 2 h, a, 0⟩
  | .makeLrD h a => ⟨header 0x08 3 h, a, 0⟩
  | .hasLr h a => ⟨header 0x09 0 h, a, 0⟩
  | .invalidateLr h => ⟨header 0x0A 0 h, 0, 0⟩
  | .invalidateOtherHartLrB h a => ⟨header 0x0B 0 h, a, 0⟩
  | .invalidateOtherHartLrH h a => ⟨header 0x0B 1 h, a, 0⟩
  | .invalidateOtherHartLrW h a => ⟨header 0x0B 2 h, a, 0⟩
  | .invalidateOtherHartLrD h a => ⟨header 0x0B 3 h, a, 0⟩
  | .invalidateLrsB a => ⟨header 0x0C 0 0, a, 0⟩
  | .invalidateLrsH a => ⟨header 0x0C 1 0, a, 0⟩
  | .invalidateLrsW a => ⟨header 0x0C 2 0, a, 0⟩
  | .invalidateLrsD a => ⟨header 0x0C 3 0, a, 0⟩
  | .lockAcq h => ⟨header 0x0D 0 h, 0, 0⟩
  | .lockRel h => ⟨header 0x0E 0 h, 0, 0⟩
  | .getLastWriteNew h => ⟨header 0x10 0 h, 0, 0⟩
  | .getLastWriteOld h => ⟨header 0x11 0 h, 0, 0⟩
  | .clearLastWrite h => ⟨header 0x12 0 h, 0, 0⟩
  | .setHartCount d => ⟨header 0x18 0 0, 0, d⟩
  | .defineIccm a d => ⟨header 0x19 0 0, a, d⟩
  | .defineDccm a d => ⟨header 0x1A 0 0, a, d⟩
  | .defineMmrArea a d => ⟨header 0x1B 0 0, a, d⟩
  | .defineMmrMask a d => ⟨header 0x1C 0 0, a, d⟩
  | .finishConfig d => ⟨header 0x1E 0 0, 0, d⟩

/-! ## A whole request as one number -/

/-- The fields of a request of `32 + ADDR_W + 64` bits (R97), the header in the lowest bits, then `A`, then `D`
(DESIGN CHOICE, log entry 10). -/
def Request.ofBits (c : Config) (w : Nat) : Request where
  ch := BitVec.ofNat 32 w
  a  := w / 2 ^ 32 % 2 ^ c.addrW
  d  := BitVec.ofNat 64 (w / 2 ^ (32 + c.addrW))

/-- The command read from a request whose low `nbits` bits are `w` and whose other bits are 0. -/
def decodeTableWord (nbits w : Nat) : Option Instr :=
  match decode Config.default (Request.ofBits Config.default (w % 2 ^ nbits)) with
  | .command i => some i
  | .reserved _ => none

end Sys2Proof
end

