-- ==== Sys2Proof/Machine/State.lean ====
section
/-! DEFINITION. The state of the block as plain data (R20 to R30), its construction and reset values (R230, R231), the
response side of the port (R90, R211), and the reasons a step can stop. -/

namespace Sys2Proof.Machine

/-- The six attribute bits of a page, no others (R22). -/
structure Pma where
  read  : Bool
  write : Bool
  exec  : Bool
  mmr   : Bool
  iccm  : Bool
  dccm  : Bool
deriving DecidableEq, Repr

/-- The value of a page no configuration command has claimed: `0x07` (R22, D6). -/
def Pma.plain : Pma := ⟨true, true, true, false, false, false⟩

/-- The unmapped PMA: `0x00` (R24). -/
def Pma.unmapped : Pma := ⟨false, false, false, false, false, false⟩

/-- A last-write slot (R26). `size` is `none` for the spec's size 0, "no pending write". -/
structure LastWrite where
  size      : Option Width
  address   : Nat
  newValue  : DataWord
  prevValue : DataWord
deriving DecidableEq, Repr

/-- The slot at reset and after CLEAR_LAST_WRITE (R26, R167). -/
def LastWrite.empty : LastWrite := ⟨none, 0, 0, 0⟩

/-- A reservation record (R27). -/
structure Reservation where
  address : Nat
  size    : Width
  valid   : Bool
deriving DecidableEq, Repr

/-- The record at reset and after SET_HART_COUNT: address 0, size 1, invalid (R27, R121). -/
def Reservation.empty : Reservation := ⟨0, .b, false⟩

/-- The atomic-sequence lock (R30). -/
structure Lock where
  held  : Bool
  owner : Nat
deriving DecidableEq, Repr

/-- The free lock: `held = 0`, `owner = 0` (R30, R190). -/
def Lock.free : Lock := ⟨false, 0⟩

/-- The error kinds of R211. `loaderError` is raised by no command; the spec keeps it so that the list stays whole. -/
inductive ErrKind where
  | outOfBounds
  | unmapped
  | permissionDenied
  | straddle
  | badMmrAccess
  | configError
  | loaderError
  | badCommand
  | busy
deriving DecidableEq, Repr

/-- The result fields of a successful response; a field a command does not name is 0 (R90). -/
structure Answer where
  /-- `R`, result data. -/
  r  : DataWord := 0
  /-- `RA`, result address. -/
  ra : Nat := 0
  /-- `RS`, result size in bytes. -/
  rs : BitVec 4 := 0
deriving DecidableEq, Repr

/-- A response (R90). A failed command returns no `R`, `RA`, `RS` (U1; log entry 4). -/
inductive Response where
  | ok (ans : Answer)
  | failed (kind : ErrKind)
deriving DecidableEq, Repr

/-- The backing store, sparse: the listed bytes in rising address order (R21; log entries 7 and 8). -/
abbrev Memory := List Host.Cell

/-- Why a step stops. -/
inductive Fault where
  /-- Raised by `step` when the parameters in `cfg` are ones no block is constructed with (R230: "Construction fails
  (there is no block)"; U21). Safe: no hardware corresponds to such a state. -/
  | noBlock
deriving DecidableEq, Repr

/-- Why a step is refused. -/
inductive Refusal where
  /-- Raised by an arm of `exec` for an instruction that has no meaning yet. No arm raises it. Safe. -/
  | notModelled (mnemonic : String)
deriving DecidableEq, Repr

/-- The state of the block: R20's tuple, then the parameters (constant) and the model's own port fields. The per-page
and per-hart tables are sparse: an unlisted page is `Pma.plain`, an unlisted hart's slot or record is the empty one
(log entry 8). -/
structure State where
  /-- The construction parameters; no step changes them (R32). -/
  cfg       : Config
  /-- `mem` (R21). -/
  mem       : Memory
  /-- `pma` (R22), by page index. -/
  pma       : List (Nat × Pma)
  /-- `mask` (R25), a partial map by word address. -/
  mask      : List (Nat × Word32)
  /-- `lw` (R26), by hart id. -/
  lw        : List (Nat × LastWrite)
  /-- `res` (R27), by hart id. -/
  res       : List (Nat × Reservation)
  /-- `hart_count` (R28). -/
  hartCount : Nat
  /-- `sealed` (R29). -/
  isSealed  : Bool
  /-- `lock` (R30). -/
  lock      : Lock
  /-- The requests waiting at the port, in the order the block takes them (R4, R217; log entry 1). -/
  port      : List Request
  /-- The response to the latest command (R90; log entry 3). -/
  resp      : Option Response
deriving DecidableEq, Repr

/-- What a step or a command's meaning answers. -/
abbrev Out := Host.Outcome State Fault Refusal

/-- The block right after construction with parameters `c` and initial contents `image` (R230, R231). -/
def State.construct (c : Config) (image : Memory) : State where
  cfg := c
  mem := image
  pma := []
  mask := []
  lw := []
  res := []
  hartCount := 1
  isSealed := false
  lock := Lock.free
  port := []
  resp := none

/-- The block after reset: the parameters of `Config.default` (log entry 6), memory with nothing listed (log entry 7). -/
def State.reset : State := State.construct Config.default []

end Sys2Proof.Machine
end

