-- ==== Sys2Proof/Machine/Table.lean ====
section
/-! DEFINITION. Sparse tables: lists of (key, value) pairs in one canonical form, keys strictly rising and no value equal
to what an unlisted key reads as. The backing store, the attribute table, the last-write slots and the reservation
records are such tables; the mask table is a partial map and keeps every entry (R25). -/

namespace Sys2Proof.Machine

variable {α : Type}

/-- The value listed at a key. -/
def tableFind : List (Nat × α) → Nat → Option α
  | [], _ => none
  | (k, v) :: t, i => if i = k then some v else tableFind t i

/-- The value at a key, `dflt` where none is listed. -/
def tableGet (dflt : α) (t : List (Nat × α)) (i : Nat) : α := (tableFind t i).getD dflt

/-- List `x` at key `i`, replacing what was listed there. -/
def tableInsert : List (Nat × α) → Nat → α → List (Nat × α)
  | [], i, x => [(i, x)]
  | (k, v) :: t, i, x =>
    if i < k then (i, x) :: (k, v) :: t
    else if i = k then (i, x) :: t
    else (k, v) :: tableInsert t i x

/-- List nothing at key `i`. -/
def tableErase : List (Nat × α) → Nat → List (Nat × α)
  | [], _ => []
  | (k, v) :: t, i => if i = k then t else (k, v) :: tableErase t i

/-- Write `x` at key `i`, keeping the canonical form. -/
def tablePut [DecidableEq α] (dflt : α) (t : List (Nat × α)) (i : Nat) (x : α) : List (Nat × α) :=
  if x = dflt then tableErase t i else tableInsert t i x

/-- Write `x` at the `count` keys from `lo` up. -/
def tableFill [DecidableEq α] (dflt : α) (t : List (Nat × α)) (lo : Nat) : Nat → α → List (Nat × α)
  | 0, _ => t
  | count + 1, x => tableFill dflt (tablePut dflt t lo x) (lo + 1) count x

/-- Apply `f` to every listed value, keeping the canonical form; `f` must leave `dflt` as it is. -/
def tableMap [DecidableEq α] (dflt : α) (f : Nat → α → α) : List (Nat × α) → List (Nat × α)
  | [] => []
  | (k, v) :: t => if f k v = dflt then tableMap dflt f t else (k, f k v) :: tableMap dflt f t

/-- Keys strictly rising. -/
abbrev TableRising (t : List (Nat × α)) : Prop := (t.map Prod.fst).Pairwise (· < ·)

/-- The canonical form. -/
abbrev TableWf (dflt : α) (t : List (Nat × α)) : Prop := TableRising t ∧ ∀ kv ∈ t, kv.2 ≠ dflt

/-! ## The backing store (R21) -/

/-- What an unlisted byte reads as: 0. R21 leaves the initial contents open (`MEM_INIT`). DESIGN CHOICE, unsafe for a
statement about `State.reset`'s memory (log entry 7). -/
def Memory.fill : Byte := 0

/-- `mem[a]`. -/
def Memory.byte (m : Memory) (a : Nat) : Byte := tableGet Memory.fill m a

/-- `mem[a] <- x`. -/
def Memory.put (m : Memory) (a : Nat) (x : Byte) : Memory := tablePut Memory.fill m a x

/-- The canonical form of the backing store. -/
abbrev Memory.wf (m : Memory) : Prop := TableWf Memory.fill m

end Sys2Proof.Machine
end

