-- ==== Sys2Proof/Machine/Flags.lean ====
section
/-! DEFINITION. The flag-like state and the predicates computed from it (R31 (d)): the attribute bits and `Mapped`,
`External` (R22, R24), the overlap test on reservation records (R170), a record's match (R177), an empty slot (R26), and
the codes the response carries (R90, R211). -/

namespace Sys2Proof.Machine

/-! ## Attributes -/

/-- "a page is mapped iff any of read, write, exec is set" (R24). -/
def Pma.mapped (q : Pma) : Bool := q.read || q.write || q.exec

/-- "a page is external to the core iff neither dccm nor mmr is set" (R24). No rule of the block reads it. -/
def Pma.external (q : Pma) : Bool := !q.dccm && !q.mmr

/-- A page some area definition has claimed (R122 step 5). -/
def Pma.claimed (q : Pma) : Bool := q.iccm || q.dccm || q.mmr

/-- The value DEFINE_ICCM gives a page, `0x15` (R123; D7). -/
def Pma.iccmPage : Pma := ⟨true, false, true, false, true, false⟩

/-- The value DEFINE_DCCM gives a page, `0x23` (R124; D8). -/
def Pma.dccmPage : Pma := ⟨true, true, false, false, false, true⟩

/-- The value DEFINE_MMR_AREA gives a page, `0x0B` (R125; D9). -/
def Pma.mmrPage : Pma := ⟨true, true, false, true, false, false⟩

/-- The six bits `{dccm, iccm, mmr, exec, write, read}`, `read` the least significant (R22, R120). -/
def Pma.bits (q : Pma) : BitVec 6 :=
  BitVec.ofNat 6 (q.read.toNat + 2 * q.write.toNat + 4 * q.exec.toNat + 8 * q.mmr.toNat + 16 * q.iccm.toNat
    + 32 * q.dccm.toNat)

/-- The attribute an access needs of its first page (R61, R63). -/
inductive Need where
  | read
  | write
  | exec
  | mapped
deriving DecidableEq, Repr

/-- `have` of R61 step 2. -/
def Need.holds : Need → Pma → Bool
  | .read, q => q.read
  | .write, q => q.write
  | .exec, q => q.exec
  | .mapped, q => q.mapped

/-! ## Reservation records -/

/-- `Overlap(a, s, r)` of R170, on exact sums; it does not look at `valid`. -/
def overlap (a s : Nat) (r : Reservation) : Bool :=
  (r.address ≤ a && a < r.address + r.size.bytes) || (a ≤ r.address && r.address < a + s)

/-- Clearing sets `valid` to 0 and leaves address and size (R171). -/
def Reservation.cleared (r : Reservation) : Reservation := { r with valid := false }

/-- `HAS_LR`'s test: valid, and the start address is exactly `a` (R177). -/
def Reservation.holdsAt (r : Reservation) (a : Nat) : Bool := r.valid && r.address == a

/-! ## Codes on the response port -/

/-- The size field of a last-write slot as the port gives it: 0, 1, 2, 4 or 8 (R26, R90). -/
def sizeCode : Option Width → BitVec 4
  | none => 0
  | some n => BitVec.ofNat 4 n.bytes

/-- The error codes of R211 (D3). -/
def ErrKind.code : ErrKind → BitVec 4
  | .outOfBounds => 1
  | .unmapped => 2
  | .permissionDenied => 3
  | .straddle => 4
  | .badMmrAccess => 5
  | .configError => 6
  | .loaderError => 7
  | .badCommand => 8
  | .busy => 9

/-- The response field `ok` (R90). -/
def Response.okBit : Response → Bool
  | .ok _ => true
  | .failed _ => false

/-- The response field `err`: 0 when `ok = 1` (R90). -/
def Response.errField : Response → BitVec 4
  | .ok _ => 0
  | .failed k => k.code

/-- The result fields, where the command gave any (R90, U1). -/
def Response.answer? : Response → Option Answer
  | .ok ans => some ans
  | .failed _ => none

end Sys2Proof.Machine
end

