-- ==== Sys2Proof/Machine/Operands.lean ====
section
/-! DEFINITION. What the operands of a command select: the sizes and indices derived from the parameters (R5, R33, R54),
the data operand's low bytes (R96), and the hart-id test (R93). -/

namespace Sys2Proof.Machine

/-! ## Derived from the parameters -/

/-- `N`: `SIZE_BYTES` "rounded down to a multiple of 4" (R5). -/
def spaceSize (c : Config) : Nat := c.sizeBytes - c.sizeBytes % 4

/-- `PAGE_SIZE`. -/
def pageSize (c : Config) : Nat := 2 ^ c.pageShift

/-- `REGION_SIZE`. -/
def regionSize (c : Config) : Nat := 2 ^ c.regionShift

/-- `PAGE_COUNT = ceil(N / PAGE_SIZE)` (R20). -/
def pageCount (c : Config) : Nat := (spaceSize c + (pageSize c - 1)) / pageSize c

/-- `page_index = addr >> page_shift` (R33). -/
def pageIndex (c : Config) (a : Nat) : Nat := a >>> c.pageShift

/-- `region_index = (addr >> region_shift) & region_mask` (R33). No rule gives it an effect. -/
def regionIndex (c : Config) (a : Nat) : Nat := (a >>> c.regionShift) &&& (c.regionCount - 1)

/-- Parameters a block can be constructed with: `8 <= PAGE_SIZE <= REGION_SIZE`, powers of two (R230; D5).
DESIGN CHOICE (log entry 17): `N > 2^ADDR_W`, which neither R5 nor R230 bounds, is not refused. -/
def validConfig (c : Config) : Bool := decide (3 ≤ c.pageShift) && decide (c.pageShift ≤ c.regionShift)

/-- The largest hart count, `2^24` (R28, R121). -/
def maxHarts : Nat := 2 ^ 24

/-! ## Operands -/

/-- `D[8n-1:0]` as a number (R96). -/
def dataNat (n : Width) (d : DataWord) : Nat := d.toNat % 2 ^ (8 * n.bytes)

/-- `D[8n-1:0]`, zero-extended (R7, R96). -/
def dataOf (n : Width) (d : DataWord) : DataWord := BitVec.ofNat 64 (dataNat n d)

/-- An access of width `n` at `a` is naturally aligned (R54). -/
def aligned (n : Width) (a : Nat) : Bool := a % n.bytes == 0

/-- The hart-id test of R93, made by the commands that index a per-hart slot. -/
def hartError (s : State) (h : Nat) : Option ErrKind :=
  if h < s.hartCount then none else some .badCommand

end Sys2Proof.Machine
end

