-- ==== Sys2Proof/Machine/Ops.lean ====
section
/-! DEFINITION. The named operations the commands are made of: the raw byte order (R51), the attribute lookup (R55), the
mask (R60), the gate (R61), the MMR rule (R59), the two invalidation sweeps (R171), the writes of each state element, and
the two ways a command ends, `answer` and `raise` (R90, R210). -/

namespace Sys2Proof.Machine

/-! ## The backing store, little-endian (R51) -/

/-- The value of `n` bytes from `a`, the lowest address least significant. -/
def readBytes (m : Memory) (a : Nat) : Nat → Nat
  | 0 => 0
  | n + 1 => (m.byte a).toNat + 256 * readBytes m (a + 1) n

/-- Store the low `8n` bits of `v` from `a` up, the lowest address least significant. -/
def writeBytes (m : Memory) (a : Nat) : Nat → Nat → Memory
  | 0, _ => m
  | n + 1, v => writeBytes (m.put a (BitVec.ofNat 8 v)) (a + 1) n (v / 256)

/-- `zext_64(MemRead(a, n))`. -/
def memRead (m : Memory) (a : Nat) (n : Width) : DataWord := BitVec.ofNat 64 (readBytes m a n.bytes)

/-- `MemWrite(a, n, v)`. -/
def memWrite (m : Memory) (a : Nat) (n : Width) (v : DataWord) : Memory := writeBytes m a n.bytes v.toNat

/-! ## Lookups -/

/-- `pma[p]`. -/
def pmaPage (s : State) (p : Nat) : Pma := tableGet Pma.plain s.pma p

/-- `PmaOf(a)` (R55). -/
def pmaOf (s : State) (a : Nat) : Pma :=
  if a < spaceSize s.cfg then pmaPage s (pageIndex s.cfg a) else Pma.unmapped

/-- `MaskOf(a)` (R60). -/
def maskOf (s : State) (a : Nat) : Word32 := (tableFind s.mask a).getD 0xFFFFFFFF#32

/-- `lw[h]`. -/
def lastWrite (s : State) (h : Nat) : LastWrite := tableGet LastWrite.empty s.lw h

/-- `res[h]`. -/
def reservation (s : State) (h : Nat) : Reservation := tableGet Reservation.empty s.res h

/-! ## The tests of an access -/

/-- The first test that fails of `Gate(attr, a, n)` (R61): bounds, attribute of the first page, straddle. The bounds test is
R56's `a + n <= N`; where `N > 2^ADDR_W` it passes an access whose last byte lies beyond the address operand's range, of
which R8 says otherwise (DESIGN CHOICE, log entry 17). -/
def gateError (s : State) (need : Need) (n : Width) (a : Nat) : Option ErrKind :=
  if a + n.bytes > spaceSize s.cfg then some .outOfBounds
  else if !need.holds (pmaOf s a) then
    (if (pmaOf s a).mapped then some .permissionDenied else some .unmapped)
  else if !aligned n a && pmaOf s a != pmaOf s (a + n.bytes - 1) then some .straddle
  else none

/-- The MMR rule of data reads, writes, checks and pokes: an MMR page takes aligned words only (R59). -/
def mmrError (s : State) (n : Width) (a : Nat) : Option ErrKind :=
  if (pmaOf s a).mmr && (n != .w || a % 4 != 0) then some .badMmrAccess else none

/-- The tests of a data access in the order of R213: the gate, then the MMR rule. -/
def accessError (s : State) (need : Need) (n : Width) (a : Nat) : Option ErrKind :=
  (gateError s need n a).or (mmrError s n a)

/-- The value a store of `D` at `a` leaves there: `D[8n-1:0]`, masked on an MMR page (R59). -/
def storedValue (s : State) (n : Width) (a : Nat) (d : DataWord) : DataWord :=
  if (pmaOf s a).mmr then dataOf n d &&& (maskOf s a).setWidth 64 else dataOf n d

/-! ## Writes of the state elements -/

/-- `MemWrite` on the state's backing store. -/
def storeBytes (s : State) (n : Width) (a : Nat) (v : DataWord) : State :=
  { s with mem := memWrite s.mem a n v }

/-- `lw[h] <- x`. -/
def setLastWrite (s : State) (h : Nat) (x : LastWrite) : State :=
  { s with lw := tablePut LastWrite.empty s.lw h x }

/-- `res[h] <- r`. -/
def setReservation (s : State) (h : Nat) (r : Reservation) : State :=
  { s with res := tablePut Reservation.empty s.res h r }

/-- Clear every reservation that `doomed` names. -/
def sweep (s : State) (doomed : Nat → Reservation → Bool) : State :=
  { s with res := tableMap Reservation.empty (fun h r => if doomed h r then r.cleared else r) s.res }

/-- `InvalidateOthers(h, a, n)` (R171). -/
def invalidateOthers (s : State) (h a n : Nat) : State :=
  sweep s (fun h' r => h' != h && overlap a n r)

/-- `InvalidateAll(a, n)` (R171). -/
def invalidateAll (s : State) (a n : Nat) : State :=
  sweep s (fun _ r => overlap a n r)

/-! ## How a command ends -/

/-- `return ok(...)`: the command's state `t` with the response `ans` (R90). -/
def answer (t : State) (ans : Answer) : Out := .next { t with resp := some (.ok ans) }

/-- `raise k`: the response is the failure and nothing else changes. It is the block's whole exception mechanism: no
state is saved, there is no handler address and nothing to return from (R210, R218, R219). -/
def raise (s : State) (k : ErrKind) : Out := .next { s with resp := some (.failed k) }

/-- A command whose first failing test is `e`: it fails with that kind (R213), or takes its effect `t`. -/
def complete (s : State) (e : Option ErrKind) (t : State) (ans : Answer) : Out :=
  match e with
  | some k => raise s k
  | none => answer t ans

/-! ## Taking a request from the port -/

/-- The next request of the port and the state with it taken (R4, R90). -/
def takeRequest (s : State) : Option (Request × State) :=
  match s.port with
  | [] => none
  | r :: rest => some (r, { s with port := rest })

/-- `s` with a request put at the head of the port. -/
def putRequest (s : State) (r : Request) : State := { s with port := r :: s.port }

end Sys2Proof.Machine
end

