-- ==== Sys2Proof/Machine/LastWriteSlots.lean ====
section
/-! DEFINITION. The last-write recorder: GET_LAST_WRITE_NEW, GET_LAST_WRITE_OLD, CLEAR_LAST_WRITE (R165 to R167). -/

namespace Sys2Proof.Machine

/-- GET_LAST_WRITE_NEW (R165). -/
def execGetLastWriteNew (h : Nat) (s : State) : Out :=
  complete s (hartError s h) s
    { r := (lastWrite s h).newValue, ra := (lastWrite s h).address, rs := sizeCode (lastWrite s h).size }

/-- GET_LAST_WRITE_OLD (R166). -/
def execGetLastWriteOld (h : Nat) (s : State) : Out :=
  complete s (hartError s h) s
    { r := (lastWrite s h).prevValue, ra := (lastWrite s h).address, rs := sizeCode (lastWrite s h).size }

/-- CLEAR_LAST_WRITE (R167). -/
def execClearLastWrite (h : Nat) (s : State) : Out :=
  complete s (hartError s h) (setLastWrite s h LastWrite.empty) {}

end Sys2Proof.Machine
end

