-- ==== Sys2Proof/Machine/PmaConfig.lean ====
section
/-! DEFINITION. The PMA decoder as a command and the configuration commands: GET_PMA, SET_HART_COUNT, DEFINE_ICCM,
DEFINE_DCCM, DEFINE_MMR_AREA, DEFINE_MMR_MASK, FINISH_CONFIG (R120 to R127). -/

namespace Sys2Proof.Machine

/-- GET_PMA (R120). -/
def execGetPma (a : Nat) (s : State) : Out :=
  answer s { r := (pmaOf s a).bits.setWidth 64 }

/-- The tests of SET_HART_COUNT (R121). -/
def hartCountError (s : State) (n : Nat) : Option ErrKind :=
  if s.isSealed then some .configError
  else if n == 0 || n > maxHarts then some .configError
  else none

/-- SET_HART_COUNT: every slot and record is re-created and the lock freed (R121; D13). -/
def execSetHartCount (d : DataWord) (s : State) : Out :=
  complete s (hartCountError s d.toNat)
    { s with hartCount := d.toNat, lw := [], res := [], lock := Lock.free } {}

/-- The first page of an area (R122). -/
def areaFirst (s : State) (a : Nat) : Nat := pageIndex s.cfg a

/-- The number of pages of an area (R122). -/
def areaPages (s : State) (a size : Nat) : Nat := pageIndex s.cfg (a + size) - pageIndex s.cfg a

/-- Steps 1 to 5 of `DefineArea` (R122; D9, D10). -/
def areaError (s : State) (a size : Nat) : Option ErrKind :=
  if s.isSealed then some .configError
  else if a % pageSize s.cfg != 0 || size % pageSize s.cfg != 0 then some .configError
  else if size == 0 then some .configError
  else if a + size > spaceSize s.cfg then some .configError
  else if (List.range' (areaFirst s a) (areaPages s a size)).any (fun p => (pmaPage s p).claimed) then some .configError
  else none

/-- Step 6 of `DefineArea` (R122). -/
def claimPages (s : State) (a size : Nat) (q : Pma) : State :=
  { s with pma := tableFill Pma.plain s.pma (areaFirst s a) (areaPages s a size) q }

/-- `DefineArea` (R122): all or nothing. -/
def defineArea (q : Pma) (a : Nat) (d : DataWord) (s : State) : Out :=
  complete s (areaError s a d.toNat) (claimPages s a d.toNat q) {}

/-- DEFINE_ICCM (R123). -/
def execDefineIccm (a : Nat) (d : DataWord) (s : State) : Out := defineArea Pma.iccmPage a d s

/-- DEFINE_DCCM (R124). -/
def execDefineDccm (a : Nat) (d : DataWord) (s : State) : Out := defineArea Pma.dccmPage a d s

/-- DEFINE_MMR_AREA (R125). -/
def execDefineMmrArea (a : Nat) (d : DataWord) (s : State) : Out := defineArea Pma.mmrPage a d s

/-- The tests of DEFINE_MMR_MASK (R126; D11). -/
def maskError (s : State) (a : Nat) : Option ErrKind :=
  if s.isSealed then some .configError
  else if a % 4 != 0 then some .configError
  else if !(pmaOf s a).mmr then some .configError
  else none

/-- DEFINE_MMR_MASK: `mask[A] <- D[31:0]` (R126). -/
def execDefineMmrMask (a : Nat) (d : DataWord) (s : State) : Out :=
  complete s (maskError s a) { s with mask := tableInsert s.mask a (d.setWidth 32) } {}

/-- What FINISH_CONFIG makes of one page: the `iccm_rw` flag sets `write` on ICCM pages, `DCCM_RO` clears it on DCCM pages
(R127; D7, D8). -/
def sealPage (iccmRw dccmRo : Bool) (q : Pma) : Pma :=
  let q1 := if q.iccm && iccmRw then { q with write := true } else q
  if q1.dccm && dccmRo then { q1 with write := false } else q1

/-- FINISH_CONFIG (R127). -/
def execFinishConfig (d : DataWord) (s : State) : Out :=
  complete s (if s.isSealed then some .configError else none)
    { s with
      pma := tableMap Pma.plain (fun _ q => sealPage (d.getLsbD 0) s.cfg.dccmRo q) s.pma
      isSealed := true } {}

end Sys2Proof.Machine
end

