-- ==== Sys2Proof/Machine/ReadFetch.lean ====
section
/-! DEFINITION. Data reads and instruction fetch: READ_B, READ_H, READ_W, READ_D (R140 to R144), READ_INST_HALF,
READ_INST_WORD (R145 to R147). None changes any state but the response. -/

namespace Sys2Proof.Machine

/-- READ of width `n` (R140). On an MMR page only an aligned word passes, and is read unmasked (R59). -/
def readCommand (n : Width) (a : Nat) (s : State) : Out :=
  complete s (accessError s .read n a) s { r := memRead s.mem a n }

/-- READ_B (R141). -/
def execReadB (a : Nat) (s : State) : Out := readCommand .b a s

/-- READ_H (R142). -/
def execReadH (a : Nat) (s : State) : Out := readCommand .h a s

/-- READ_W (R143). -/
def execReadW (a : Nat) (s : State) : Out := readCommand .w a s

/-- READ_D (R144). -/
def execReadD (a : Nat) (s : State) : Out := readCommand .d a s

/-- Instruction fetch of width `n` (R145): gated by `exec`, no MMR rule. -/
def fetchCommand (n : Width) (a : Nat) (s : State) : Out :=
  complete s (gateError s .exec n a) s { r := memRead s.mem a n }

/-- READ_INST_HALF (R146). -/
def execReadInstHalf (a : Nat) (s : State) : Out := fetchCommand .h a s

/-- READ_INST_WORD (R147). -/
def execReadInstWord (a : Nat) (s : State) : Out := fetchCommand .w a s

end Sys2Proof.Machine
end

