-- ==== Sys2Proof/Machine/Reservations.lean ====
section
/-! DEFINITION. The reservation table and the atomic lock: MAKE_LR_B/H/W/D (R172 to R176), HAS_LR (R177), INVALIDATE_LR
(R178), INVALIDATE_OTHER_HART_LR_B/H/W/D (R179 to R183), INVALIDATE_LRS_B/H/W/D (R184 to R188), LOCK_ACQ (R189),
LOCK_REL (R190). -/

namespace Sys2Proof.Machine

/-- MAKE_LR of size `n` (R172): no bounds, attribute or alignment test. -/
def makeLrCommand (n : Width) (h a : Nat) (s : State) : Out :=
  complete s (hartError s h) (setReservation s h ⟨a, n, true⟩) {}

/-- MAKE_LR_B (R173). -/
def execMakeLrB (h a : Nat) (s : State) : Out := makeLrCommand .b h a s

/-- MAKE_LR_H (R174). -/
def execMakeLrH (h a : Nat) (s : State) : Out := makeLrCommand .h h a s

/-- MAKE_LR_W (R175). -/
def execMakeLrW (h a : Nat) (s : State) : Out := makeLrCommand .w h a s

/-- MAKE_LR_D (R176). -/
def execMakeLrD (h a : Nat) (s : State) : Out := makeLrCommand .d h a s

/-- HAS_LR (R177): a false answer is `ok = 1, R = 0`. -/
def execHasLr (h a : Nat) (s : State) : Out :=
  complete s (hartError s h) s { r := if (reservation s h).holdsAt a then 1 else 0 }

/-- INVALIDATE_LR (R178). -/
def execInvalidateLr (h : Nat) (s : State) : Out :=
  complete s (hartError s h) (setReservation s h (reservation s h).cleared) {}

/-- INVALIDATE_OTHER_HART_LR of store size `n` (R179). -/
def invalidateOtherCommand (n : Width) (h a : Nat) (s : State) : Out :=
  complete s (hartError s h) (invalidateOthers s h a n.bytes) {}

/-- INVALIDATE_OTHER_HART_LR_B (R180). -/
def execInvalidateOtherHartLrB (h a : Nat) (s : State) : Out := invalidateOtherCommand .b h a s

/-- INVALIDATE_OTHER_HART_LR_H (R181). -/
def execInvalidateOtherHartLrH (h a : Nat) (s : State) : Out := invalidateOtherCommand .h h a s

/-- INVALIDATE_OTHER_HART_LR_W (R182). -/
def execInvalidateOtherHartLrW (h a : Nat) (s : State) : Out := invalidateOtherCommand .w h a s

/-- INVALIDATE_OTHER_HART_LR_D (R183). -/
def execInvalidateOtherHartLrD (h a : Nat) (s : State) : Out := invalidateOtherCommand .d h a s

/-- INVALIDATE_LRS of store size `n` (R184): it never fails. -/
def invalidateLrsCommand (n : Width) (a : Nat) (s : State) : Out :=
  answer (invalidateAll s a n.bytes) {}

/-- INVALIDATE_LRS_B (R185). -/
def execInvalidateLrsB (a : Nat) (s : State) : Out := invalidateLrsCommand .b a s

/-- INVALIDATE_LRS_H (R186). -/
def execInvalidateLrsH (a : Nat) (s : State) : Out := invalidateLrsCommand .h a s

/-- INVALIDATE_LRS_W (R187). -/
def execInvalidateLrsW (a : Nat) (s : State) : Out := invalidateLrsCommand .w a s

/-- INVALIDATE_LRS_D (R188). -/
def execInvalidateLrsD (a : Nat) (s : State) : Out := invalidateLrsCommand .d a s

/-- `Busy` while the lock is held by any hart, the asker included (R189). -/
def lockAcqError (s : State) (h : Nat) : Option ErrKind :=
  (hartError s h).or (if s.lock.held then some .busy else none)

/-- LOCK_ACQ (R189; D17). -/
def execLockAcq (h : Nat) (s : State) : Out :=
  complete s (lockAcqError s h) { s with lock := ⟨true, h⟩ } {}

/-- Only the holder may release (R190). -/
def lockRelError (s : State) (h : Nat) : Option ErrKind :=
  (hartError s h).or (if !s.lock.held || s.lock.owner != h then some .badCommand else none)

/-- LOCK_REL (R190; D17). -/
def execLockRel (h : Nat) (s : State) : Out :=
  complete s (lockRelError s h) { s with lock := Lock.free } {}

end Sys2Proof.Machine
end

