-- ==== Sys2Proof/Machine/WritePoke.lean ====
section
/-! DEFINITION. Data writes, the dry-run check and the poke: WRITE_B/H/W/D (R150 to R154), CHECK_WRITE_B/H/W/D (R155 to
R159), POKE_B/H/W/D (R160 to R164). -/

namespace Sys2Proof.Machine

/-- The record a write leaves: the value stored and the bytes before it (R150 steps 4 and 5; D15 for MMR pages). -/
def writeRecord (s : State) (n : Width) (a : Nat) (d : DataWord) : LastWrite where
  size := some n
  address := a
  newValue := storedValue s n a d
  prevValue := memRead s.mem a n

/-- The effect of a write that passes its tests: store, record, sweep the other harts (R150 steps 4 to 6). -/
def writeEffect (n : Width) (h a : Nat) (d : DataWord) (s : State) : State :=
  invalidateOthers (setLastWrite (storeBytes s n a (storedValue s n a d)) h (writeRecord s n a d)) h a n.bytes

/-- WRITE of width `n` (R150). -/
def writeCommand (n : Width) (h a : Nat) (d : DataWord) (s : State) : Out :=
  complete s ((hartError s h).or (accessError s .write n a)) (writeEffect n h a d s) {}

/-- WRITE_B (R151). -/
def execWriteB (h a : Nat) (d : DataWord) (s : State) : Out := writeCommand .b h a d s

/-- WRITE_H (R152). -/
def execWriteH (h a : Nat) (d : DataWord) (s : State) : Out := writeCommand .h h a d s

/-- WRITE_W (R153). -/
def execWriteW (h a : Nat) (d : DataWord) (s : State) : Out := writeCommand .w h a d s

/-- WRITE_D (R154). -/
def execWriteD (h a : Nat) (d : DataWord) (s : State) : Out := writeCommand .d h a d s

/-- CHECK_WRITE of width `n` (R155): the tests of a write but for the hart id, and the value that would be stored. -/
def checkCommand (n : Width) (a : Nat) (d : DataWord) (s : State) : Out :=
  complete s (accessError s .write n a) s { r := storedValue s n a d }

/-- CHECK_WRITE_B (R156). -/
def execCheckWriteB (a : Nat) (d : DataWord) (s : State) : Out := checkCommand .b a d s

/-- CHECK_WRITE_H (R157). -/
def execCheckWriteH (a : Nat) (d : DataWord) (s : State) : Out := checkCommand .h a d s

/-- CHECK_WRITE_W (R158). -/
def execCheckWriteW (a : Nat) (d : DataWord) (s : State) : Out := checkCommand .w a d s

/-- CHECK_WRITE_D (R159). -/
def execCheckWriteD (a : Nat) (d : DataWord) (s : State) : Out := checkCommand .d a d s

/-- The effect of a poke that passes its tests: store, sweep every hart; the last-write slots stay (R160). -/
def pokeEffect (n : Width) (a : Nat) (d : DataWord) (s : State) : State :=
  invalidateAll (storeBytes s n a (storedValue s n a d)) a n.bytes

/-- POKE of width `n` (R160): only `Mapped` is required. -/
def pokeCommand (n : Width) (a : Nat) (d : DataWord) (s : State) : Out :=
  complete s (accessError s .mapped n a) (pokeEffect n a d s) {}

/-- POKE_B (R161). -/
def execPokeB (a : Nat) (d : DataWord) (s : State) : Out := pokeCommand .b a d s

/-- POKE_H (R162). -/
def execPokeH (a : Nat) (d : DataWord) (s : State) : Out := pokeCommand .h a d s

/-- POKE_W (R163). -/
def execPokeW (a : Nat) (d : DataWord) (s : State) : Out := pokeCommand .w a d s

/-- POKE_D (R164). -/
def execPokeD (a : Nat) (d : DataWord) (s : State) : Out := pokeCommand .d a d s

end Sys2Proof.Machine
end

