-- ==== Sys2Proof/Machine/Dispatch.lean ====
section
/-! DEFINITION. The meaning of each command: one arm per constructor of Instr. -/

namespace Sys2Proof.Machine

def exec (i : Instr) (s : State) : Host.Outcome State Fault Refusal :=
  match i with
  | .readB a => Sys2Proof.Machine.execReadB a s
  | .readH a => Sys2Proof.Machine.execReadH a s
  | .readW a => Sys2Proof.Machine.execReadW a s
  | .readD a => Sys2Proof.Machine.execReadD a s
  | .readInstHalf a => Sys2Proof.Machine.execReadInstHalf a s
  | .readInstWord a => Sys2Proof.Machine.execReadInstWord a s
  | .writeB h a d => Sys2Proof.Machine.execWriteB h a d s
  | .writeH h a d => Sys2Proof.Machine.execWriteH h a d s
  | .writeW h a d => Sys2Proof.Machine.execWriteW h a d s
  | .writeD h a d => Sys2Proof.Machine.execWriteD h a d s
  | .checkWriteB a d => Sys2Proof.Machine.execCheckWriteB a d s
  | .checkWriteH a d => Sys2Proof.Machine.execCheckWriteH a d s
  | .checkWriteW a d => Sys2Proof.Machine.execCheckWriteW a d s
  | .checkWriteD a d => Sys2Proof.Machine.execCheckWriteD a d s
  | .pokeB a d => Sys2Proof.Machine.execPokeB a d s
  | .pokeH a d => Sys2Proof.Machine.execPokeH a d s
  | .pokeW a d => Sys2Proof.Machine.execPokeW a d s
  | .pokeD a d => Sys2Proof.Machine.execPokeD a d s
  | .getPma a => Sys2Proof.Machine.execGetPma a s
  | .makeLrB h a => Sys2Proof.Machine.execMakeLrB h a s
  | .makeLrH h a => Sys2Proof.Machine.execMakeLrH h a s
  | .makeLrW h a => Sys2Proof.Machine.execMakeLrW h a s
  | .makeLrD h a => Sys2Proof.Machine.execMakeLrD h a s
  | .hasLr h a => Sys2Proof.Machine.execHasLr h a s
  | .invalidateLr h => Sys2Proof.Machine.execInvalidateLr h s
  | .invalidateOtherHartLrB h a => Sys2Proof.Machine.execInvalidateOtherHartLrB h a s
  | .invalidateOtherHartLrH h a => Sys2Proof.Machine.execInvalidateOtherHartLrH h a s
  | .invalidateOtherHartLrW h a => Sys2Proof.Machine.execInvalidateOtherHartLrW h a s
  | .invalidateOtherHartLrD h a => Sys2Proof.Machine.execInvalidateOtherHartLrD h a s
  | .invalidateLrsB a => Sys2Proof.Machine.execInvalidateLrsB a s
  | .invalidateLrsH a => Sys2Proof.Machine.execInvalidateLrsH a s
  | .invalidateLrsW a => Sys2Proof.Machine.execInvalidateLrsW a s
  | .invalidateLrsD a => Sys2Proof.Machine.execInvalidateLrsD a s
  | .lockAcq h => Sys2Proof.Machine.execLockAcq h s
  | .lockRel h => Sys2Proof.Machine.execLockRel h s
  | .getLastWriteNew h => Sys2Proof.Machine.execGetLastWriteNew h s
  | .getLastWriteOld h => Sys2Proof.Machine.execGetLastWriteOld h s
  | .clearLastWrite h => Sys2Proof.Machine.execClearLastWrite h s
  | .setHartCount d => Sys2Proof.Machine.execSetHartCount d s
  | .defineIccm a d => Sys2Proof.Machine.execDefineIccm a d s
  | .defineDccm a d => Sys2Proof.Machine.execDefineDccm a d s
  | .defineMmrArea a d => Sys2Proof.Machine.execDefineMmrArea a d s
  | .defineMmrMask a d => Sys2Proof.Machine.execDefineMmrMask a d s
  | .finishConfig d => Sys2Proof.Machine.execFinishConfig d s

end Sys2Proof.Machine
end

