-- ==== Sys2Proof/Machine/Step.lean ====
section
/-! DEFINITION. One step of the block: take the next request of the port, decode it, run it (R4, R101). -/

namespace Sys2Proof.Machine

/-- One step. Parameters no block is constructed with stop it (R230). With no request waiting the block does nothing (R4:
"The block itself never acts on its own"; log entry 2). A reserved header is answered with `BadCommand` and changes
nothing (R95). A command runs (its hart-range test is part of its meaning, after decoding, R101). -/
def step (s : State) : Host.Outcome State Fault Refusal :=
  if validConfig s.cfg then
    match takeRequest s with
    | none => .next s
    | some (r, t) =>
      match decode t.cfg r with
      | .reserved _ => raise t .badCommand
      | .command i => exec i t
  else .fault .noBlock

/-- `s` with the request whose low `nbits` bits are `w` and whose other bits are 0 presented at the port ahead of those
waiting: an agent issues it and the very next step takes it (log entry 11). -/
def State.withFetchWord (s : State) (nbits w : Nat) : State :=
  putRequest s (Request.ofBits s.cfg (w % 2 ^ nbits))

end Sys2Proof.Machine
end

