-- ==== Sys2Proof/Machine/Sequences.lean ====
section
/-! DEFINITION. The executors' side, outside the block: the fixed command sequences for LR, SC and AMO under the lock
(R195 to R198), plain load, store, and fetch (R200), and the drain of the last-write slot after a retired instruction
(R168, R233), each as an automaton that issues one command and
reads its response, and a system of one block and a list of executors in which any agent's command may fall between two
of an executor's (R195, R217). They bind the executor, not the block: `step` does not use them (log entry 13). -/

namespace Sys2Proof.Machine

/-! ## The AMO operations (R199): general knowledge, not the source's (GK2; log entry 14, PRESUMED) -/

inductive AmoOp where
  | swap
  | add
  | xor
  | and
  | or
  | min
  | max
  | minu
  | maxu
deriving DecidableEq, Repr

/-- `f_op(x, b)` on `k`-bit values (R199). -/
def AmoOp.apply {k : Nat} : AmoOp → BitVec k → BitVec k → BitVec k
  | .swap, _, b => b
  | .add, x, b => x + b
  | .xor, x, b => x ^^^ b
  | .and, x, b => x &&& b
  | .or, x, b => x ||| b
  | .min, x, b => if x.slt b then x else b
  | .max, x, b => if x.slt b then b else x
  | .minu, x, b => if x.ult b then x else b
  | .maxu, x, b => if x.ult b then b else x

/-- The widths of the atomic instructions: `W` and `D` (R196, R200). -/
inductive AtomicWidth where
  | w
  | d
deriving DecidableEq, Repr

def AtomicWidth.width : AtomicWidth → Width
  | .w => .w
  | .d => .d

/-- `f_op(r.R[8n-1:0], b[8n-1:0])`, zero-extended (R198). -/
def amoValue (f : AmoOp) : AtomicWidth → DataWord → DataWord → DataWord
  | .w, x, b => (f.apply (x.setWidth 32) (b.setWidth 32)).setWidth 64
  | .d, x, b => f.apply x b

/-! ## What an executor runs and how it ends -/

/-- The executor's memory instructions (R200). -/
inductive ExecOp where
  | load (n : Width) (a : Nat)
  | store (n : Width) (a : Nat) (v : DataWord)
  | fetchHalf (a : Nat)
  | fetchWord (a : Nat)
  | lr (n : AtomicWidth) (a : Nat)
  | sc (n : AtomicWidth) (a : Nat) (v : DataWord)
  | amo (f : AmoOp) (n : AtomicWidth) (a : Nat) (b : DataWord)
deriving DecidableEq, Repr

/-- How an instruction ends (the outcomes of R196 to R198). What the executor makes of a failure is its own (R215). -/
inductive ExecResult where
  /-- A load, fetch, LR or AMO: the zero-extended value for the destination register. -/
  | value (v : DataWord)
  /-- A store, or an SC that succeeded. -/
  | stored
  /-- An SC that found no reservation: "no store, no memory access at all". -/
  | notReserved
  /-- The read of the instruction failed. -/
  | readFailed (k : ErrKind)
  /-- The write of the instruction failed. -/
  | writeFailed (k : ErrKind)
  /-- The HAS_LR of an SC failed, which only a hart id out of range does (R212): a SET_HART_COUNT fell after its LOCK_ACQ.
  R197 names no outcome for it. DESIGN CHOICE (log entry 16): an outcome of its own, no WRITE, the rest of the bracket
  issued, no value returned, the instruction not retired. -/
  | testFailed (k : ErrKind)
deriving DecidableEq, Repr

/-- The instruction retires: every outcome but those after which "the executor raises its exception" (R196 to R198), which
the vectors P4, steps 5 to 8, do not drain after (DEDUCED), and the choice `testFailed` (log entry 16). -/
def ExecResult.retires : ExecResult → Bool
  | .value _ => true
  | .stored => true
  | .notReserved => true
  | .readFailed _ => false
  | .writeFailed _ => false
  | .testFailed _ => false

/-- An instruction with this outcome has made a successful WRITE (R197, R198, R200). -/
def ExecOp.wrote : ExecOp → ExecResult → Bool
  | .store _ _ _, .stored => true
  | .sc _ _ _, .stored => true
  | .amo _ _ _ _, .value _ => true
  | _, _ => false

/-- What R168 leaves to an executor, fixed for one executor and otherwise free. -/
structure Tracing where
  /-- The drain reads GET_LAST_WRITE_OLD too: "if wanted" (R168). -/
  oldValue : Bool
  /-- It drains "after each retired instruction" (R168, R233), one that made no WRITE included. R200 gives a load its READ
  alone, and an executor of the vectors P2 drains after an SC that stored and after no LR, so the other reading stands
  beside it. -/
  everyInstr : Bool
deriving DecidableEq, Repr

/-- Where an executor stands in its instruction. -/
inductive Phase where
  /-- The first command: the access, or LOCK_ACQ, repeated until it answers `ok` (R195). -/
  | start
  /-- The lock is held: READ of an LR or AMO, HAS_LR of an SC. -/
  | test
  /-- MAKE_LR of an LR whose read answered `old`. -/
  | reserve (old : DataWord)
  /-- WRITE of an SC or of an AMO whose read answered `old`. -/
  | write (old : DataWord)
  /-- INVALIDATE_LR of an SC, "regardless of outcome". -/
  | drop (r : ExecResult)
  /-- LOCK_REL, "on every path out of body". -/
  | release (r : ExecResult)
  /-- The drain: GET_LAST_WRITE_NEW (R168). -/
  | drainGet (r : ExecResult)
  /-- The drain: GET_LAST_WRITE_OLD, of an executor that wants it (R168). -/
  | drainOld (r : ExecResult)
  /-- The drain: CLEAR_LAST_WRITE (R168). -/
  | drainClear (r : ExecResult)
  | done (r : ExecResult)
deriving DecidableEq, Repr

/-- One executor: its hart id, how it traces, its instruction, its place in it. -/
structure Executor where
  hart  : Nat
  trace : Tracing
  op    : ExecOp
  phase : Phase
deriving DecidableEq, Repr

/-- The command an executor issues next (R196 to R198, R200); none when it is done. -/
def Executor.command (e : Executor) : Option Instr :=
  match e.phase, e.op with
  | .start, .load n a => some (.readOf n a)
  | .start, .store n a v => some (.writeOf n e.hart a v)
  | .start, .fetchHalf a => some (.readInstHalf a)
  | .start, .fetchWord a => some (.readInstWord a)
  | .start, .lr _ _ => some (.lockAcq e.hart)
  | .start, .sc _ _ _ => some (.lockAcq e.hart)
  | .start, .amo _ _ _ _ => some (.lockAcq e.hart)
  | .test, .lr n a => some (.readOf n.width a)
  | .test, .sc _ a _ => some (.hasLr e.hart a)
  | .test, .amo _ n a _ => some (.readOf n.width a)
  | .test, .load _ _ => none
  | .test, .store _ _ _ => none
  | .test, .fetchHalf _ => none
  | .test, .fetchWord _ => none
  | .reserve _, .lr n a => some (.makeLrOf n.width e.hart a)
  | .reserve _, _ => none
  | .write _, .sc n a v => some (.writeOf n.width e.hart a v)
  | .write old, .amo f n a b => some (.writeOf n.width e.hart a (amoValue f n old b))
  | .write _, _ => none
  | .drop _, _ => some (.invalidateLr e.hart)
  | .release _, _ => some (.lockRel e.hart)
  | .drainGet _, _ => some (.getLastWriteNew e.hart)
  | .drainOld _, _ => some (.getLastWriteOld e.hart)
  | .drainClear _, _ => some (.clearLastWrite e.hart)
  | .done _, _ => none

/-- The executor drains after an outcome: it is one of a retired instruction, and the instruction made a WRITE or the
executor drains after each (R168, R233). -/
def Executor.drainsAfter (e : Executor) (r : ExecResult) : Bool :=
  r.retires && (e.op.wrote r || e.trace.everyInstr)

/-- The phase after the last command of an instruction proper: the drain or the end. The drain of an LR, SC or AMO comes
after its LOCK_REL, outside the bracket (DEDUCED from the vectors P2 and P3, log entry 16). -/
def Executor.retire (e : Executor) (r : ExecResult) : Phase :=
  if e.drainsAfter r then .drainGet r else .done r

/-- The phase after the response to the command of `e`'s phase. The rules look at the response of LOCK_ACQ, of an access
and of HAS_LR, and of no other command: an LR whose MAKE_LR fails returns its value (R196: "if r.ok = 1"). A HAS_LR that
fails, and a drain whose commands fail, are settled by the model (DESIGN CHOICE, log entry 16): the first ends the SC with
`testFailed`, the second goes on to the next command of the drain. -/
def Executor.nextPhase (e : Executor) (resp : Response) : Phase :=
  match e.phase, e.op, resp with
  | .start, .load _ _, .ok ans => e.retire (.value ans.r)
  | .start, .load _ _, .failed k => .done (.readFailed k)
  | .start, .fetchHalf _, .ok ans => .done (.value ans.r)
  | .start, .fetchHalf _, .failed k => .done (.readFailed k)
  | .start, .fetchWord _, .ok ans => .done (.value ans.r)
  | .start, .fetchWord _, .failed k => .done (.readFailed k)
  | .start, .store _ _ _, .ok _ => e.retire .stored
  | .start, .store _ _ _, .failed k => .done (.writeFailed k)
  | .start, _, .ok _ => .test
  | .start, _, .failed _ => .start
  | .test, .lr _ _, .ok ans => .reserve ans.r
  | .test, .lr _ _, .failed k => .release (.readFailed k)
  | .test, .sc _ _ _, .ok ans => if ans.r = 1 then .write 0 else .drop .notReserved
  | .test, .sc _ _ _, .failed k => .drop (.testFailed k)
  | .test, .amo _ _ _ _, .ok ans => .write ans.r
  | .test, .amo _ _ _ _, .failed k => .release (.readFailed k)
  | .test, _, _ => e.phase
  | .reserve old, _, _ => .release (.value old)
  | .write _, .sc _ _ _, .ok _ => .drop .stored
  | .write _, .sc _ _ _, .failed k => .drop (.writeFailed k)
  | .write old, .amo _ _ _ _, .ok _ => .release (.value old)
  | .write _, .amo _ _ _ _, .failed k => .release (.writeFailed k)
  | .write _, _, _ => e.phase
  | .drop r, _, _ => .release r
  | .release r, _, _ => e.retire r
  | .drainGet r, _, _ => if e.trace.oldValue then .drainOld r else .drainClear r
  | .drainOld r, _, _ => .drainClear r
  | .drainClear r, _, _ => .done r
  | .done r, _, _ => .done r

/-- The executor with the response of its command taken. -/
def Executor.advance (e : Executor) (resp : Response) : Executor :=
  { e with phase := e.nextPhase resp }

/-- Inside the bracket of R195: after LOCK_ACQ answered `ok`, until LOCK_REL is answered. -/
def Phase.inBody : Phase → Bool
  | .test => true
  | .reserve _ => true
  | .write _ => true
  | .drop _ => true
  | .release _ => true
  | .start => false
  | .drainGet _ => false
  | .drainOld _ => false
  | .drainClear _ => false
  | .done _ => false

def Executor.inBody (e : Executor) : Bool := e.phase.inBody

/-- The outcome an instruction that is not done yet has reached. -/
def Phase.outcome? : Phase → Option ExecResult
  | .start => none
  | .test => none
  | .reserve _ => none
  | .write _ => none
  | .drop r => some r
  | .release r => some r
  | .drainGet r => some r
  | .drainOld r => some r
  | .drainClear r => some r
  | .done _ => none

/-- The executor's WRITE has filled its slot and its CLEAR_LAST_WRITE has not been answered yet (R168). -/
def Executor.recordPending (e : Executor) : Bool := e.phase.outcome?.any e.op.wrote

/-! ## A block and its executors -/

/-- One block and the executors of its harts. -/
structure System where
  block : State
  execs : List Executor
deriving DecidableEq, Repr

/-- Whose command the block takes next (R217): an executor's, by its place in the list, or a command of any other agent. -/
inductive Move where
  | executor (k : Nat)
  | other (i : Instr)
deriving DecidableEq, Repr

/-- The block after a command and its response; a command whose meaning stops leaves the block as it is. -/
def System.runCommand (b : State) (i : Instr) : State × Option Response :=
  match exec i b with
  | .next t => (t, t.resp)
  | .fault _ => (b, none)
  | .refused _ => (b, none)

/-- One move of the system. An executor that is done, or is not there, makes no move. -/
def System.move (y : System) : Move → System
  | .other i => { y with block := (System.runCommand y.block i).1 }
  | .executor k =>
    match y.execs[k]? with
    | none => y
    | some e =>
      match e.command with
      | none => y
      | some i =>
        match System.runCommand y.block i with
        | (b, some resp) => { block := b, execs := y.execs.set k (e.advance resp) }
        | (b, none) => { y with block := b }

/-- A run of the system under a schedule (R217). -/
def System.run (y : System) (moves : List Move) : System := moves.foldl System.move y

/-! ## What the executor may make of a failure (R215: the spec's own reading, D28; log entry 15) -/

/-- The four exceptions ISS §7 names. -/
inductive RvException where
  | instructionAccessFault
  | illegalInstruction
  | loadAccessFault
  | storeAccessFault
deriving DecidableEq, Repr

/-- Their standard cause codes: general knowledge, not the source's (R215, GK4). -/
def RvException.cause : RvException → Nat
  | .instructionAccessFault => 1
  | .illegalInstruction => 2
  | .loadAccessFault => 5
  | .storeAccessFault => 7

/-- Which access of an instruction failed. -/
inductive AccessKind where
  | load
  | store
  | fetch
deriving DecidableEq, Repr

/-- The exceptions R215 allows an executor to raise for a failed access: the access fault of its kind, or, for MMR misuse,
an illegal instruction instead. -/
def allowedExceptions (kind : AccessKind) (k : ErrKind) : List RvException :=
  let fault := match kind with
    | .load => RvException.loadAccessFault
    | .store => RvException.storeAccessFault
    | .fetch => RvException.instructionAccessFault
  if k = .badMmrAccess then [fault, .illegalInstruction] else [fault]

end Sys2Proof.Machine
end

