-- ==== Sys2Proof/Safety.lean ====
section
/-! DEFINITION. What claims call a sound state and a disciplined system: the attribute invariants of R23, the invariant of
the block, the launch premise of R232, the lock discipline of R195 and R236, and the classes of commands that claims
speak of. -/

namespace Sys2Proof.Machine

/-! ## The attribute table (R23, U20) -/

/-- R23 (a) to (e) of one page, `ro` saying that the read-only DCCM policy has been applied (R127). -/
def Pma.valid (ro : Bool) (q : Pma) : Prop :=
  (q.mmr = true → q.iccm = false ∧ q.dccm = false) ∧
  (q.iccm = true → q.exec = true) ∧
  (q.dccm = true → q.read = true ∧ (q.write = true ∨ ro = true)) ∧
  ¬(q.iccm = true ∧ q.dccm = true) ∧
  (q.mmr = true → q.exec = false)

/-- `ValidConfig(pma)` of R23, at every page. -/
def ValidConfig (s : State) : Prop :=
  ∀ p, (pmaPage s p).valid (s.isSealed && s.cfg.dccmRo)

/-- The attribute values reachable through the configuration commands (U20), without the unmapped one. -/
def Pma.reachable (q : Pma) : Prop :=
  q.bits ∈ [0x07#6, 0x15#6, 0x17#6, 0x23#6, 0x21#6, 0x0B#6]

/-! ## When an access passes (R56, R57, R59, R61) -/

/-- The gate passes: in bounds, the first page has the attribute, and, if misaligned, the first and last byte have equal
attributes (R61). -/
structure Gated (s : State) (need : Need) (n : Width) (a : Nat) : Prop where
  inBounds : a + n.bytes ≤ spaceSize s.cfg
  permitted : need.holds (pmaOf s a) = true
  noStraddle : a % n.bytes ≠ 0 → pmaOf s a = pmaOf s (a + n.bytes - 1)

/-- An MMR page takes aligned words only (R59). -/
def MmrRespected (s : State) (n : Width) (a : Nat) : Prop :=
  (pmaOf s a).mmr = true → n = .w ∧ a % 4 = 0

/-- The canonical form of every table that an update reads through. -/
structure Canonical (s : State) : Prop where
  mem : Memory.wf s.mem
  pma : TableWf Pma.plain s.pma
  mask : TableRising s.mask
  lw : TableWf LastWrite.empty s.lw
  res : TableWf Reservation.empty s.res

/-- Everything but memory, the last-write slots, the reservation records and the response is the same. -/
structure SameControl (s t : State) : Prop where
  cfg : t.cfg = s.cfg
  pma : t.pma = s.pma
  mask : t.mask = s.mask
  hartCount : t.hartCount = s.hartCount
  isSealed : t.isSealed = s.isSealed
  lock : t.lock = s.lock
  port : t.port = s.port

/-! ## The invariant of the block -/

/-- A recorded last write: in bounds, and values that fit its width (R26). -/
structure LastWrite.Sound (c : Config) (x : LastWrite) : Prop where
  sized : ∃ n, x.size = some n ∧ x.address + n.bytes ≤ spaceSize c ∧
    x.newValue.toNat < 2 ^ (8 * n.bytes) ∧ x.prevValue.toNat < 2 ^ (8 * n.bytes)
  addr : x.address < 2 ^ c.addrW

/-- The invariant: parameters a block has (R230), canonical tables within their ranges (R20), reachable attributes that
meet R23, mask keys that are words of MMR pages (R25), records of existing harts (R26, R27), a legal hart count (R28) and
lock (R30). -/
structure Inv (s : State) : Prop where
  cfg : validConfig s.cfg = true
  memWf : Memory.wf s.mem
  memIn : ∀ kv ∈ s.mem, kv.1 < spaceSize s.cfg
  pmaWf : TableWf Pma.plain s.pma
  pmaIn : ∀ kv ∈ s.pma, kv.1 < pageCount s.cfg ∧ kv.2.reachable
  pmaValid : ValidConfig s
  maskWf : TableRising s.mask
  maskIn : ∀ kv ∈ s.mask, kv.1 % 4 = 0 ∧ (pmaOf s kv.1).mmr = true
  lwWf : TableWf LastWrite.empty s.lw
  lwIn : ∀ kv ∈ s.lw, kv.1 < s.hartCount ∧ kv.2.Sound s.cfg
  resWf : TableWf Reservation.empty s.res
  resIn : ∀ kv ∈ s.res, kv.1 < s.hartCount ∧ kv.2.address < 2 ^ s.cfg.addrW
  harts : 1 ≤ s.hartCount ∧ s.hartCount ≤ maxHarts
  lockOk : s.lock.owner < s.hartCount ∧ (s.lock.held = false → s.lock.owner = 0)

/-- The launch premise of R232: sealed, the lock free, no reservation, no pending last write. -/
def Launch (s : State) : Prop :=
  s.isSealed = true ∧ s.lock.held = false ∧
  ∀ h, (reservation s h).valid = false ∧ (lastWrite s h).size = none

end Sys2Proof.Machine

namespace Sys2Proof

/-- The 44 low header bytes of opcode_table.json (R94). -/
def tableLowBytes : List Nat :=
  [0x01, 0x21, 0x41, 0x61, 0x22, 0x42, 0x03, 0x23, 0x43, 0x63, 0x04, 0x24, 0x44, 0x64, 0x05] ++
  [0x25, 0x45, 0x65, 0x06, 0x08, 0x28, 0x48, 0x68, 0x09, 0x0A, 0x0B, 0x2B, 0x4B, 0x6B, 0x0C] ++
  [0x2C, 0x4C, 0x6C, 0x0D, 0x0E, 0x10, 0x11, 0x12, 0x18, 0x19, 0x1A, 0x1B, 0x1C, 0x1E]

/-! ## Classes of commands (R34, R65, R212) -/

/-- The commands that change no element of the state (R34, first row; R65). -/
def Instr.readOnly : Instr → Bool
  | .readB _ | .readH _ | .readW _ | .readD _ | .readInstHalf _ | .readInstWord _ => true
  | .checkWriteB _ _ | .checkWriteH _ _ | .checkWriteW _ _ | .checkWriteD _ _ => true
  | .getPma _ | .hasLr _ _ | .getLastWriteNew _ | .getLastWriteOld _ => true
  | .writeB _ _ _ | .writeH _ _ _ | .writeW _ _ _ | .writeD _ _ _ => false
  | .pokeB _ _ | .pokeH _ _ | .pokeW _ _ | .pokeD _ _ => false
  | .makeLrB _ _ | .makeLrH _ _ | .makeLrW _ _ | .makeLrD _ _ | .invalidateLr _ => false
  | .invalidateOtherHartLrB _ _ | .invalidateOtherHartLrH _ _ => false
  | .invalidateOtherHartLrW _ _ | .invalidateOtherHartLrD _ _ => false
  | .invalidateLrsB _ | .invalidateLrsH _ | .invalidateLrsW _ | .invalidateLrsD _ => false
  | .lockAcq _ | .lockRel _ | .clearLastWrite _ => false
  | .setHartCount _ | .defineIccm _ _ | .defineDccm _ _ | .defineMmrArea _ _ => false
  | .defineMmrMask _ _ | .finishConfig _ => false

/-- The configuration commands, refused after the seal (R29, R127). -/
def Instr.configures : Instr → Bool
  | .setHartCount _ | .defineIccm _ _ | .defineDccm _ _ | .defineMmrArea _ _ => true
  | .defineMmrMask _ _ | .finishConfig _ => true
  | .readB _ | .readH _ | .readW _ | .readD _ | .readInstHalf _ | .readInstWord _ => false
  | .checkWriteB _ _ | .checkWriteH _ _ | .checkWriteW _ _ | .checkWriteD _ _ => false
  | .getPma _ | .hasLr _ _ | .getLastWriteNew _ | .getLastWriteOld _ => false
  | .writeB _ _ _ | .writeH _ _ _ | .writeW _ _ _ | .writeD _ _ _ => false
  | .pokeB _ _ | .pokeH _ _ | .pokeW _ _ | .pokeD _ _ => false
  | .makeLrB _ _ | .makeLrH _ _ | .makeLrW _ _ | .makeLrD _ _ | .invalidateLr _ => false
  | .invalidateOtherHartLrB _ _ | .invalidateOtherHartLrH _ _ => false
  | .invalidateOtherHartLrW _ _ | .invalidateOtherHartLrD _ _ => false
  | .invalidateLrsB _ | .invalidateLrsH _ | .invalidateLrsW _ | .invalidateLrsD _ => false
  | .lockAcq _ | .lockRel _ | .clearLastWrite _ => false

/-- The data operand of a command that uses one (R94, column `D`). -/
def Instr.data? : Instr → Option DataWord
  | .readB _ => none
  | .readH _ => none
  | .readW _ => none
  | .readD _ => none
  | .readInstHalf _ => none
  | .readInstWord _ => none
  | .writeB _ _ d => some d
  | .writeH _ _ d => some d
  | .writeW _ _ d => some d
  | .writeD _ _ d => some d
  | .checkWriteB _ d => some d
  | .checkWriteH _ d => some d
  | .checkWriteW _ d => some d
  | .checkWriteD _ d => some d
  | .pokeB _ d => some d
  | .pokeH _ d => some d
  | .pokeW _ d => some d
  | .pokeD _ d => some d
  | .getPma _ => none
  | .makeLrB _ _ => none
  | .makeLrH _ _ => none
  | .makeLrW _ _ => none
  | .makeLrD _ _ => none
  | .hasLr _ _ => none
  | .invalidateLr _ => none
  | .invalidateOtherHartLrB _ _ => none
  | .invalidateOtherHartLrH _ _ => none
  | .invalidateOtherHartLrW _ _ => none
  | .invalidateOtherHartLrD _ _ => none
  | .invalidateLrsB _ => none
  | .invalidateLrsH _ => none
  | .invalidateLrsW _ => none
  | .invalidateLrsD _ => none
  | .lockAcq _ => none
  | .lockRel _ => none
  | .getLastWriteNew _ => none
  | .getLastWriteOld _ => none
  | .clearLastWrite _ => none
  | .setHartCount d => some d
  | .defineIccm _ d => some d
  | .defineDccm _ d => some d
  | .defineMmrArea _ d => some d
  | .defineMmrMask _ d => some d
  | .finishConfig d => some d

/-- The kinds a command may fail with (R211, column "raised by"; R212). -/
def Instr.failureKinds : Instr → List Machine.ErrKind
  | .readB _ => [.outOfBounds, .unmapped, .permissionDenied, .badMmrAccess]
  | .readH _ => [.outOfBounds, .unmapped, .permissionDenied, .straddle, .badMmrAccess]
  | .readW _ => [.outOfBounds, .unmapped, .permissionDenied, .straddle, .badMmrAccess]
  | .readD _ => [.outOfBounds, .unmapped, .permissionDenied, .straddle, .badMmrAccess]
  | .readInstHalf _ => [.outOfBounds, .unmapped, .permissionDenied, .straddle]
  | .readInstWord _ => [.outOfBounds, .unmapped, .permissionDenied, .straddle]
  | .writeB _ _ _ => [.badCommand, .outOfBounds, .unmapped, .permissionDenied, .badMmrAccess]
  | .writeH _ _ _ => [.badCommand, .outOfBounds, .unmapped, .permissionDenied, .straddle, .badMmrAccess]
  | .writeW _ _ _ => [.badCommand, .outOfBounds, .unmapped, .permissionDenied, .straddle, .badMmrAccess]
  | .writeD _ _ _ => [.badCommand, .outOfBounds, .unmapped, .permissionDenied, .straddle, .badMmrAccess]
  | .checkWriteB _ _ => [.outOfBounds, .unmapped, .permissionDenied, .badMmrAccess]
  | .checkWriteH _ _ => [.outOfBounds, .unmapped, .permissionDenied, .straddle, .badMmrAccess]
  | .checkWriteW _ _ => [.outOfBounds, .unmapped, .permissionDenied, .straddle, .badMmrAccess]
  | .checkWriteD _ _ => [.outOfBounds, .unmapped, .permissionDenied, .straddle, .badMmrAccess]
  | .pokeB _ _ => [.outOfBounds, .unmapped, .badMmrAccess]
  | .pokeH _ _ => [.outOfBounds, .unmapped, .straddle, .badMmrAccess]
  | .pokeW _ _ => [.outOfBounds, .unmapped, .straddle, .badMmrAccess]
  | .pokeD _ _ => [.outOfBounds, .unmapped, .straddle, .badMmrAccess]
  | .getPma _ => []
  | .makeLrB _ _ => [.badCommand]
  | .makeLrH _ _ => [.badCommand]
  | .makeLrW _ _ => [.badCommand]
  | .makeLrD _ _ => [.badCommand]
  | .hasLr _ _ => [.badCommand]
  | .invalidateLr _ => [.badCommand]
  | .invalidateOtherHartLrB _ _ => [.badCommand]
  | .invalidateOtherHartLrH _ _ => [.badCommand]
  | .invalidateOtherHartLrW _ _ => [.badCommand]
  | .invalidateOtherHartLrD _ _ => [.badCommand]
  | .invalidateLrsB _ => []
  | .invalidateLrsH _ => []
  | .invalidateLrsW _ => []
  | .invalidateLrsD _ => []
  | .lockAcq _ => [.badCommand, .busy]
  | .lockRel _ => [.badCommand]
  | .getLastWriteNew _ => [.badCommand]
  | .getLastWriteOld _ => [.badCommand]
  | .clearLastWrite _ => [.badCommand]
  | .setHartCount _ => [.configError]
  | .defineIccm _ _ => [.configError]
  | .defineDccm _ _ => [.configError]
  | .defineMmrArea _ _ => [.configError]
  | .defineMmrMask _ _ => [.configError]
  | .finishConfig _ => [.configError]

/-! ## What a command writes (R26, R34, R191) -/

/-- The events (1) to (6) of R191: the command, if it succeeds, clears the record `r` of hart `h`. -/
def Instr.clears (h : Nat) (r : Machine.Reservation) : Instr → Bool
  | .readB _ => false
  | .readH _ => false
  | .readW _ => false
  | .readD _ => false
  | .readInstHalf _ => false
  | .readInstWord _ => false
  | .writeB h' a _ => h' != h && Machine.overlap a 1 r
  | .writeH h' a _ => h' != h && Machine.overlap a 2 r
  | .writeW h' a _ => h' != h && Machine.overlap a 4 r
  | .writeD h' a _ => h' != h && Machine.overlap a 8 r
  | .checkWriteB _ _ => false
  | .checkWriteH _ _ => false
  | .checkWriteW _ _ => false
  | .checkWriteD _ _ => false
  | .pokeB a _ => Machine.overlap a 1 r
  | .pokeH a _ => Machine.overlap a 2 r
  | .pokeW a _ => Machine.overlap a 4 r
  | .pokeD a _ => Machine.overlap a 8 r
  | .getPma _ => false
  | .makeLrB _ _ => false
  | .makeLrH _ _ => false
  | .makeLrW _ _ => false
  | .makeLrD _ _ => false
  | .hasLr _ _ => false
  | .invalidateLr h' => h' == h
  | .invalidateOtherHartLrB h' a => h' != h && Machine.overlap a 1 r
  | .invalidateOtherHartLrH h' a => h' != h && Machine.overlap a 2 r
  | .invalidateOtherHartLrW h' a => h' != h && Machine.overlap a 4 r
  | .invalidateOtherHartLrD h' a => h' != h && Machine.overlap a 8 r
  | .invalidateLrsB a => Machine.overlap a 1 r
  | .invalidateLrsH a => Machine.overlap a 2 r
  | .invalidateLrsW a => Machine.overlap a 4 r
  | .invalidateLrsD a => Machine.overlap a 8 r
  | .lockAcq _ => false
  | .lockRel _ => false
  | .getLastWriteNew _ => false
  | .getLastWriteOld _ => false
  | .clearLastWrite _ => false
  | .setHartCount _ => true
  | .defineIccm _ _ => false
  | .defineDccm _ _ => false
  | .defineMmrArea _ _ => false
  | .defineMmrMask _ _ => false
  | .finishConfig _ => false

/-- MAKE_LR of hart `h`: the record is replaced, not cleared (R191). -/
def Instr.remakes (h : Nat) : Instr → Bool
  | .readB _ => false
  | .readH _ => false
  | .readW _ => false
  | .readD _ => false
  | .readInstHalf _ => false
  | .readInstWord _ => false
  | .writeB _ _ _ => false
  | .writeH _ _ _ => false
  | .writeW _ _ _ => false
  | .writeD _ _ _ => false
  | .checkWriteB _ _ => false
  | .checkWriteH _ _ => false
  | .checkWriteW _ _ => false
  | .checkWriteD _ _ => false
  | .pokeB _ _ => false
  | .pokeH _ _ => false
  | .pokeW _ _ => false
  | .pokeD _ _ => false
  | .getPma _ => false
  | .makeLrB h' _ => h' == h
  | .makeLrH h' _ => h' == h
  | .makeLrW h' _ => h' == h
  | .makeLrD h' _ => h' == h
  | .hasLr _ _ => false
  | .invalidateLr _ => false
  | .invalidateOtherHartLrB _ _ => false
  | .invalidateOtherHartLrH _ _ => false
  | .invalidateOtherHartLrW _ _ => false
  | .invalidateOtherHartLrD _ _ => false
  | .invalidateLrsB _ => false
  | .invalidateLrsH _ => false
  | .invalidateLrsW _ => false
  | .invalidateLrsD _ => false
  | .lockAcq _ => false
  | .lockRel _ => false
  | .getLastWriteNew _ => false
  | .getLastWriteOld _ => false
  | .clearLastWrite _ => false
  | .setHartCount _ => false
  | .defineIccm _ _ => false
  | .defineDccm _ _ => false
  | .defineMmrArea _ _ => false
  | .defineMmrMask _ _ => false
  | .finishConfig _ => false

/-- The bytes a WRITE or POKE stores to: the byte at `b` is one of them (R34, column `mem`). -/
def Instr.storesTo (b : Nat) : Instr → Bool
  | .readB _ => false
  | .readH _ => false
  | .readW _ => false
  | .readD _ => false
  | .readInstHalf _ => false
  | .readInstWord _ => false
  | .writeB _ a _ => decide (a ≤ b) && decide (b < a + 1)
  | .writeH _ a _ => decide (a ≤ b) && decide (b < a + 2)
  | .writeW _ a _ => decide (a ≤ b) && decide (b < a + 4)
  | .writeD _ a _ => decide (a ≤ b) && decide (b < a + 8)
  | .checkWriteB _ _ => false
  | .checkWriteH _ _ => false
  | .checkWriteW _ _ => false
  | .checkWriteD _ _ => false
  | .pokeB a _ => decide (a ≤ b) && decide (b < a + 1)
  | .pokeH a _ => decide (a ≤ b) && decide (b < a + 2)
  | .pokeW a _ => decide (a ≤ b) && decide (b < a + 4)
  | .pokeD a _ => decide (a ≤ b) && decide (b < a + 8)
  | .getPma _ => false
  | .makeLrB _ _ => false
  | .makeLrH _ _ => false
  | .makeLrW _ _ => false
  | .makeLrD _ _ => false
  | .hasLr _ _ => false
  | .invalidateLr _ => false
  | .invalidateOtherHartLrB _ _ => false
  | .invalidateOtherHartLrH _ _ => false
  | .invalidateOtherHartLrW _ _ => false
  | .invalidateOtherHartLrD _ _ => false
  | .invalidateLrsB _ => false
  | .invalidateLrsH _ => false
  | .invalidateLrsW _ => false
  | .invalidateLrsD _ => false
  | .lockAcq _ => false
  | .lockRel _ => false
  | .getLastWriteNew _ => false
  | .getLastWriteOld _ => false
  | .clearLastWrite _ => false
  | .setHartCount _ => false
  | .defineIccm _ _ => false
  | .defineDccm _ _ => false
  | .defineMmrArea _ _ => false
  | .defineMmrMask _ _ => false
  | .finishConfig _ => false

/-- The commands that write the last-write slot of hart `h` (R26, R34): its own WRITE and CLEAR_LAST_WRITE, and
SET_HART_COUNT. -/
def Instr.writesSlot (h : Nat) : Instr → Bool
  | .readB _ => false
  | .readH _ => false
  | .readW _ => false
  | .readD _ => false
  | .readInstHalf _ => false
  | .readInstWord _ => false
  | .writeB h' _ _ => h' == h
  | .writeH h' _ _ => h' == h
  | .writeW h' _ _ => h' == h
  | .writeD h' _ _ => h' == h
  | .checkWriteB _ _ => false
  | .checkWriteH _ _ => false
  | .checkWriteW _ _ => false
  | .checkWriteD _ _ => false
  | .pokeB _ _ => false
  | .pokeH _ _ => false
  | .pokeW _ _ => false
  | .pokeD _ _ => false
  | .getPma _ => false
  | .makeLrB _ _ => false
  | .makeLrH _ _ => false
  | .makeLrW _ _ => false
  | .makeLrD _ _ => false
  | .hasLr _ _ => false
  | .invalidateLr _ => false
  | .invalidateOtherHartLrB _ _ => false
  | .invalidateOtherHartLrH _ _ => false
  | .invalidateOtherHartLrW _ _ => false
  | .invalidateOtherHartLrD _ _ => false
  | .invalidateLrsB _ => false
  | .invalidateLrsH _ => false
  | .invalidateLrsW _ => false
  | .invalidateLrsD _ => false
  | .lockAcq _ => false
  | .lockRel _ => false
  | .getLastWriteNew _ => false
  | .getLastWriteOld _ => false
  | .clearLastWrite h' => h' == h
  | .setHartCount _ => true
  | .defineIccm _ _ => false
  | .defineDccm _ _ => false
  | .defineMmrArea _ _ => false
  | .defineMmrMask _ _ => false
  | .finishConfig _ => false

/-! ## The lock discipline (R195, R236) -/

/-- A command an agent other than the executors may issue while they run: none that takes or frees the lock. Freeing it
are LOCK_REL and SET_HART_COUNT; after the seal the second is refused. -/
def Instr.leavesLock : Instr → Bool
  | .lockAcq _ | .lockRel _ | .setHartCount _ => false
  | .defineIccm _ _ | .defineDccm _ _ | .defineMmrArea _ _ => true
  | .defineMmrMask _ _ | .finishConfig _ => true
  | .readB _ | .readH _ | .readW _ | .readD _ | .readInstHalf _ | .readInstWord _ => true
  | .checkWriteB _ _ | .checkWriteH _ _ | .checkWriteW _ _ | .checkWriteD _ _ => true
  | .getPma _ | .hasLr _ _ | .getLastWriteNew _ | .getLastWriteOld _ => true
  | .writeB _ _ _ | .writeH _ _ _ | .writeW _ _ _ | .writeD _ _ _ => true
  | .pokeB _ _ | .pokeH _ _ | .pokeW _ _ | .pokeD _ _ => true
  | .makeLrB _ _ | .makeLrH _ _ | .makeLrW _ _ | .makeLrD _ _ | .invalidateLr _ => true
  | .invalidateOtherHartLrB _ _ | .invalidateOtherHartLrH _ _ => true
  | .invalidateOtherHartLrW _ _ | .invalidateOtherHartLrD _ _ => true
  | .invalidateLrsB _ | .invalidateLrsH _ | .invalidateLrsW _ | .invalidateLrsD _ => true
  | .clearLastWrite _ => true

end Sys2Proof

namespace Sys2Proof.Machine

/-! ## How a command ended -/

/-- The command answered `ok` with these result fields. -/
def Answers (i : Instr) (s t : State) (ans : Answer) : Prop :=
  exec i s = .next t ∧ t.resp = some (.ok ans)

/-- The command answered a failure of kind `k`, and every element of the state is as it was (R210). -/
def FailsWith (i : Instr) (s : State) (k : ErrKind) : Prop :=
  exec i s = .next { s with resp := some (.failed k) }

/-- The tests an access makes before its MMR test, in their order (R61, R213): it fails with the first that fails. -/
structure RefusesInOrder (i : Instr) (s : State) (need : Need) (n : Width) (a : Nat) : Prop where
  bounds : a + n.bytes > spaceSize s.cfg → FailsWith i s .outOfBounds
  permission : a + n.bytes ≤ spaceSize s.cfg → need.holds (pmaOf s a) = false →
    FailsWith i s (if (pmaOf s a).mapped then .permissionDenied else .unmapped)
  straddle : a + n.bytes ≤ spaceSize s.cfg → need.holds (pmaOf s a) = true → a % n.bytes ≠ 0 →
    pmaOf s a ≠ pmaOf s (a + n.bytes - 1) → FailsWith i s .straddle

/-- The latest response is a success. -/
def Succeeded (t : State) : Prop := ∃ ans, t.resp = some (.ok ans)

/-! ## Runs of commands -/

/-- The block after a list of commands, in order. -/
def runCommands : List Instr → State → State
  | [], s => s
  | i :: rest, s => runCommands rest (System.runCommand s i).1

/-- No command of the run is an event (1) to (6) of R191 for hart `h`'s record, nor a MAKE_LR of hart `h`. -/
def Undisturbed (h : Nat) : List Instr → State → Prop
  | [], _ => True
  | i :: rest, s =>
    (Succeeded (System.runCommand s i).1 → i.clears h (reservation s h) = false) ∧ i.remakes h = false ∧
      Undisturbed h rest (System.runCommand s i).1

/-! ## Schedules and executors -/

/-- A schedule that keeps the discipline: the other agents leave the lock alone. -/
def Disciplined (moves : List Move) : Prop :=
  ∀ i, Move.other i ∈ moves → i.leavesLock = true

/-- Every executor inside its bracket holds the lock. -/
def LockOwned (y : System) : Prop :=
  ∀ e ∈ y.execs, e.inBody = true → y.block.lock = ⟨true, e.hart⟩

/-- No two executors are of the same hart. -/
def DistinctHarts (y : System) : Prop := (y.execs.map Executor.hart).Nodup

/-- The contract of R168 kept: canonical tables, one executor a hart, each of a hart that exists, and the slot of each
empty but from its WRITE to the end of its drain. -/
structure SlotsDrained (y : System) : Prop where
  tables : Canonical y.block
  harts : DistinctHarts y
  exist : ∀ e ∈ y.execs, e.hart < y.block.hartCount
  drained : ∀ e ∈ y.execs, e.recordPending = false → lastWrite y.block e.hart = LastWrite.empty

end Sys2Proof.Machine
end

