-- ==== Sys2Proof/Certificates/Slice0/Obligations.lean ====
section
/-! DEFINITION. The statements for the provers, from the numbered rules of spec/. A docstring that names a D<n> says that
the statement rests on that decision of the spec (`92_eei_decisions.md`); one that names a log entry, that it rests on the
model's own choice. -/

open Sys2Proof Sys2Proof.Machine

/-! ## Encoding (30_encoding.md: the formats are the spec's decisions D2 and D23) -/

/-- Decoding the encoding of any command the port can carry gives the command back, every operand at every value (R91,
R94, R101; D2; ignored fields are encoded as 0, log entry 10). -/
def Obligations.DecodeOfEncodeIsTheCommand : Prop :=
  ∀ (c : Config) (i : Instr), i.wf c = true → decode c (encode i) = .command i

/-- A header is a command exactly when its low byte is one of the table's 44; every other is reserved (R94, R95, R101). -/
def Obligations.HeaderIsCommandIffInTable : Prop :=
  ∀ (c : Config) (r : Request), (∃ i, decode c r = .command i) ↔ r.ch.toNat % 256 ∈ tableLowBytes

/-- What is decoded is what the fields say: the low byte is the command's, the hart id is `CH[31:8]`, the address is the
`ADDR_W` wires of `A`, the data is the whole of `D`; and the command is one the port can carry (R91, R94; D2). -/
def Obligations.DecodedCommandCarriesTheFields : Prop :=
  ∀ (c : Config) (r : Request) (i : Instr), decode c r = .command i →
    i.wf c = true ∧ (encode i).ch.toNat % 256 = r.ch.toNat % 256 ∧
    (∀ h, i.hart? = some h → h = r.ch.toNat / 256) ∧
    (∀ a, i.addr? = some a → a = r.a % 2 ^ c.addrW) ∧
    (∀ d, i.data? = some d → d = r.d)

/-- A command that carries no hart id decodes alike whatever the `hart` field holds (R93). -/
def Obligations.HartFieldIgnoredWhereUnused : Prop :=
  ∀ (c : Config) (r : Request) (i : Instr) (ch : Word32), decode c r = .command i → i.hart? = none →
    ch.toNat % 256 = r.ch.toNat % 256 → decode c { r with ch := ch } = .command i

/-- Words written out from the table: WRITE_W by hart 1 is `0x00000143`, READ_D is `0x61`, GET_PMA with hart `0xFFFFFF` is
`0xFFFFFF06`, HAS_LR is `0x09`, and the all-zero request is reserved (R94, R95). -/
def Obligations.SampleHeadersDecode : Prop :=
  decode Config.default ⟨0x00000143#32, 0x200, 0x1#64⟩ = .command (.writeW 1 0x200 0x1#64) ∧
  decode Config.default ⟨0x00000061#32, 0x208, 0#64⟩ = .command (.readD 0x208) ∧
  decode Config.default ⟨0xFFFFFF06#32, 0, 0#64⟩ = .command (.getPma 0) ∧
  decode Config.default ⟨0x00000009#32, 0x200, 0#64⟩ = .command (.hasLr 0 0x200) ∧
  decode Config.default ⟨0x00000000#32, 0, 0#64⟩ = .reserved .reservedOpcode

/-- Bits of `D` above those a command uses reach neither its outcome nor the state (R96, U19). -/
def Obligations.UnusedDataBitsIgnored : Prop :=
  (∀ (n : Width) (h a : Nat) (d e : DataWord) (s : State), d.toNat % 2 ^ (8 * n.bytes) = e.toNat % 2 ^ (8 * n.bytes) →
    exec (.writeOf n h a d) s = exec (.writeOf n h a e) s ∧
    exec (.checkWriteOf n a d) s = exec (.checkWriteOf n a e) s ∧
    exec (.pokeOf n a d) s = exec (.pokeOf n a e) s) ∧
  (∀ (a : Nat) (d e : DataWord) (s : State), d.setWidth 32 = e.setWidth 32 →
    exec (.defineMmrMask a d) s = exec (.defineMmrMask a e) s) ∧
  (∀ (d e : DataWord) (s : State), d.getLsbD 0 = e.getLsbD 0 → exec (.finishConfig d) s = exec (.finishConfig e) s)

/-! ## The step -/

/-- When the request at the head of the port decodes to a command, a step is `exec` of it at the state with the request
taken (R4, R90, R101). -/
def Obligations.StepRunsTheDecodedCommand : Prop :=
  ∀ (s : State) (r : Request) (rest : List Request) (i : Instr), validConfig s.cfg = true → s.port = r :: rest →
    decode s.cfg r = .command i → step s = exec i { s with port := rest }

/-- A reserved header is answered with `BadCommand` and changes no state (R95; D23). -/
def Obligations.ReservedHeaderAnswersBadCommand : Prop :=
  ∀ (s : State) (r : Request) (rest : List Request), validConfig s.cfg = true → s.port = r :: rest →
    r.ch.toNat % 256 ∉ tableLowBytes →
    step s = .next { s with port := rest, resp := some (.failed .badCommand) }

/-- With no request waiting the block does nothing (R4; a stuttering step is the model's choice, log entry 2), and
parameters no block is constructed with stop it (R230, U21; log entry 9). -/
def Obligations.StepWithNothingToRun : Prop :=
  ∀ s : State,
    (validConfig s.cfg = true → s.port = [] → step s = .next s) ∧
    (validConfig s.cfg = false → step s = .fault .noBlock)

/-! ## Reset (R231; the values ISS does not state are the spec's decisions D6, D13, D16) -/

/-- The block right after construction: initial contents, attributes `0x07` at every page, no mask entry, every slot and
record empty, one hart, not sealed, the lock free (R231). -/
def Obligations.ConstructionValues : Prop :=
  ∀ (c : Config) (image : Memory),
    let s := State.construct c image
    s.cfg = c ∧ (∀ a, s.mem.byte a = image.byte a) ∧ (∀ p, (pmaPage s p).bits = 0x07#6) ∧
    (∀ a, maskOf s a = 0xFFFFFFFF#32) ∧ (∀ h, lastWrite s h = ⟨none, 0, 0, 0⟩) ∧
    (∀ h, reservation s h = ⟨0, .b, false⟩) ∧ s.hartCount = 1 ∧ s.isSealed = false ∧ s.lock = ⟨false, 0⟩

/-- The invariant holds at construction with any valid parameters and any initial contents within the space, and at
`State.reset` (its parameters and its memory are log entries 6 and 7). -/
def Obligations.InvariantAtConstruction : Prop :=
  (∀ (c : Config) (image : Memory), validConfig c = true → Memory.wf image → (∀ kv ∈ image, kv.1 < spaceSize c) →
    Inv (State.construct c image)) ∧
  Inv State.reset

/-! ## Invariants -/

/-- Every step keeps the invariant: canonical tables within their ranges, attributes that meet R23, mask keys that are
words of MMR pages, records of existing harts, a legal hart count and lock (R20 to R30). -/
def Obligations.StepKeepsTheInvariant : Prop :=
  ∀ s t : State, Inv s → step s = .next t → Inv t

/-- The attribute invariants (a) to (e) of R23 hold at construction, and every command keeps them. -/
def Obligations.CommandsKeepValidConfig : Prop :=
  (∀ (c : Config) (image : Memory), ValidConfig (State.construct c image)) ∧
  ∀ (i : Instr) (s t : State), TableWf Pma.plain s.pma → ValidConfig s → exec i s = .next t → ValidConfig t

/-! ## Whole-block rules -/

/-- Every command gets exactly one response, leaves the parameters and the waiting requests alone, and never stops the
block (R90, R32). -/
def Obligations.EveryCommandAnswers : Prop :=
  ∀ (i : Instr) (s : State), ∃ t r, exec i s = .next t ∧ t.resp = some r ∧ t.cfg = s.cfg ∧ t.port = s.port

/-- A command that fails leaves every element of the state as it was (R210). -/
def Obligations.FailedCommandChangesNothing : Prop :=
  ∀ (i : Instr) (s t : State) (k : ErrKind), exec i s = .next t → t.resp = some (.failed k) →
    t = { s with resp := some (.failed k) } ∧ (Response.failed k).okBit = false ∧ (Response.failed k).errField ≠ 0

/-- A command fails only with a kind R211 and R212 allow it; none raises `LoaderError` (D3). -/
def Obligations.FailureKindsOfEachCommand : Prop :=
  ∀ (i : Instr) (s t : State) (k : ErrKind), exec i s = .next t → t.resp = some (.failed k) →
    k ∈ i.failureKinds ∧ k ≠ .loaderError

/-- READ, READ_INST, CHECK_WRITE, GET_PMA, HAS_LR and the last-write getters change no state, in MMR pages too (R65). -/
def Obligations.ReadOnlyCommandsChangeNothing : Prop :=
  ∀ (i : Instr) (s t : State), i.readOnly = true → exec i s = .next t → t = { s with resp := t.resp }

/-- Memory is written by WRITE and POKE that succeed and by nothing else, and only in the bytes they store to (R21,
R34). -/
def Obligations.MemoryChangesOnlyByStores : Prop :=
  ∀ (i : Instr) (s t : State) (b : Nat), Canonical s → exec i s = .next t → t.mem.byte b ≠ s.mem.byte b →
    i.storesTo b = true ∧ Succeeded t

/-- The attribute table, the masks, the hart count and the seal are changed by configuration commands only (R34). -/
def Obligations.ConfigurationChangesOnlyByConfiguring : Prop :=
  ∀ (i : Instr) (s t : State), i.configures = false → exec i s = .next t →
    t.pma = s.pma ∧ t.mask = s.mask ∧ t.hartCount = s.hartCount ∧ t.isSealed = s.isSealed

/-- After the seal the configuration commands fail with `ConfigError`, and no step changes the attributes, the masks, the
hart count or the seal (R22, R29, R127; D12). -/
def Obligations.SealIsPermanent : Prop :=
  (∀ (i : Instr) (s : State), s.isSealed = true → i.configures = true → FailsWith i s .configError) ∧
  (∀ s t : State, s.isSealed = true → step s = .next t →
    t.isSealed = true ∧ t.pma = s.pma ∧ t.mask = s.mask ∧ t.hartCount = s.hartCount)

/-- A hart's last-write slot and reservation record are its own: a command that carries another hart's id, or none (a poke
among them; SET_HART_COUNT re-creates them all), leaves the slot alone, and can change the record in one way only,
clearing its valid bit (R35; C9 for pokes). -/
def Obligations.OtherHartsOnlyLoseReservations : Prop :=
  ∀ (i : Instr) (s t : State) (j : Nat), Canonical s → i.hart? ≠ some j → (∀ d, i ≠ .setHartCount d) →
    exec i s = .next t →
    lastWrite t j = lastWrite s j ∧
    (reservation t j = reservation s j ∨ reservation t j = { reservation s j with valid := false })

/-- A hart id out of range is refused by every command that carries one, before any other test (R93, R213; D13). -/
def Obligations.HartIdOutOfRangeRefused : Prop :=
  ∀ (i : Instr) (s : State) (h : Nat), i.hart? = some h → s.hartCount ≤ h → FailsWith i s .badCommand

/-- The last-write slot of a hart is written by its own WRITE and CLEAR_LAST_WRITE (and re-created by SET_HART_COUNT) and
by nothing else; a command that fails leaves it alone (R26). -/
def Obligations.LastWriteSlotWriters : Prop :=
  ∀ (i : Instr) (s t : State) (h : Nat), Canonical s → exec i s = .next t → lastWrite t h ≠ lastWrite s h →
    i.writesSlot h = true ∧ Succeeded t

/-- The lock is set by LOCK_ACQ on a free lock, cleared by its owner's LOCK_REL or by SET_HART_COUNT, and changed by
nothing else (R30, R189, R190; D17). -/
def Obligations.LockChangesOnlyByItsCommands : Prop :=
  ∀ (i : Instr) (s t : State), exec i s = .next t → t.lock ≠ s.lock →
    (∃ h, i = .lockAcq h ∧ s.lock.held = false ∧ t.lock = ⟨true, h⟩) ∨
    (i = .lockRel s.lock.owner ∧ s.lock.held = true ∧ t.lock = ⟨false, 0⟩) ∨
    (∃ d, i = .setHartCount d ∧ s.isSealed = false ∧ t.lock = ⟨false, 0⟩)

/-! ## Shared operations -/

/-- Memory is little-endian for every width and on every path: byte `i` of a wide read is the byte at `a + i`, a wide store
leaves byte `i` of its value at `a + i`, and every other byte is as before; READ, READ_INST and the old value WRITE records
read by the one, WRITE and POKE store by the other, in bounds (R51; the masked store is R59 and R60, the old value recorded
on an MMR page is R150 with D15). -/
def Obligations.LittleEndianAccesses : Prop :=
  (∀ (m : Memory) (a : Nat) (n : Width) (v : DataWord), Memory.wf m →
    (∀ i, i < n.bytes → (memRead m a n).toNat / 256 ^ i % 256 = (m.byte (a + i)).toNat) ∧
    (memRead m a n).toNat < 256 ^ n.bytes ∧
    (∀ i, i < n.bytes → ((memWrite m a n v).byte (a + i)).toNat = v.toNat / 256 ^ i % 256) ∧
    (∀ b, b < a ∨ a + n.bytes ≤ b → (memWrite m a n v).byte b = m.byte b) ∧
    Memory.wf (memWrite m a n v)) ∧
  (∀ (s t : State) (n : Width) (a : Nat), Succeeded t →
    ∀ q ∈ [(n, Instr.readOf n a), (.h, .readInstHalf a), (.w, .readInstWord a)], exec q.2 s = .next t →
      a + q.1.bytes ≤ spaceSize s.cfg ∧ t.resp = some (.ok ⟨memRead s.mem a q.1, 0, 0⟩)) ∧
  (∀ (s t : State) (n : Width) (h a : Nat) (d : DataWord), Canonical s → Succeeded t →
    (exec (.writeOf n h a d) s = .next t ∨ exec (.pokeOf n a d) s = .next t →
      a + n.bytes ≤ spaceSize s.cfg ∧
      t.mem = memWrite s.mem a n
        (if (pmaOf s a).mmr = true then dataOf n d &&& (maskOf s a).setWidth 64 else dataOf n d)) ∧
    (exec (.writeOf n h a d) s = .next t → (lastWrite t h).prevValue = memRead s.mem a n))

/-- The lookups are total: the attributes are the page's record below `N` and the unmapped PMA at and above `N` (R55); the
mask of a word is its entry, all ones where it has none (R60). -/
def Obligations.LookupsAreTotal : Prop :=
  ∀ (s : State) (a : Nat),
    (a < spaceSize s.cfg → pmaOf s a = pmaPage s (a / 2 ^ s.cfg.pageShift)) ∧
    (spaceSize s.cfg ≤ a → (pmaOf s a).bits = 0#6) ∧
    (∀ m, (a, m) ∈ s.mask → TableRising s.mask → maskOf s a = m) ∧
    ((∀ kv ∈ s.mask, kv.1 ≠ a) → maskOf s a = 0xFFFFFFFF#32)

/-- The overlap test is the source's two clauses, and for the sizes that exist it holds exactly when the store and the
reservation set share a byte (R170). -/
def Obligations.OverlapIsASharedByte : Prop :=
  ∀ (a : Nat) (n : Width) (r : Reservation),
    (overlap a n.bytes r = true ↔
      (r.address ≤ a ∧ a < r.address + r.size.bytes) ∨ (a ≤ r.address ∧ r.address < a + n.bytes)) ∧
    (overlap a n.bytes r = true ↔
      ∃ b, (a ≤ b ∧ b < a + n.bytes) ∧ r.address ≤ b ∧ b < r.address + r.size.bytes)

/-- The two sweeps: every other hart's record, or every hart's, is cleared exactly if it overlaps; a cleared record keeps
its address and size; a successful WRITE and INVALIDATE_OTHER_HART_LR make the first, a successful POKE and INVALIDATE_LRS
the second (R171). -/
def Obligations.SweepsClearExactlyTheOverlapping : Prop :=
  ∀ (s : State) (h a j : Nat) (n : Width), Canonical s →
    let r := reservation s j
    let others := if j ≠ h ∧ overlap a n.bytes r = true then ⟨r.address, r.size, false⟩ else r
    let all := if overlap a n.bytes r = true then ⟨r.address, r.size, false⟩ else r
    reservation (invalidateOthers s h a n.bytes) j = others ∧
    reservation (invalidateAll s a n.bytes) j = all ∧
    ∀ (t : State) (d : DataWord), Succeeded t →
      (exec (.writeOf n h a d) s = .next t ∨ exec (.invalidateOtherHartLrOf n h a) s = .next t →
        reservation t j = others) ∧
      (exec (.pokeOf n a d) s = .next t ∨ exec (.invalidateLrsOf n a) s = .next t → reservation t j = all)

/-- WRITE and POKE make the tests of an access in the order bounds, attribute, straddle, MMR, the WRITE of a hart that
exists (R61, R150, R160, R213; the kinds are D3, D27). -/
def Obligations.WriteAndPokeFailWithTheFirstFailingTest : Prop :=
  ∀ (n : Width) (h a : Nat) (d : DataWord) (s : State), h < s.hartCount →
    ∀ q ∈ [(Need.write, Instr.writeOf n h a d), (Need.mapped, Instr.pokeOf n a d)],
      RefusesInOrder q.2 s q.1 n a ∧ (Gated s q.1 n a → ¬MmrRespected s n a → FailsWith q.2 s .badMmrAccess)

/-! ## Data reads and instruction fetch (41_read_fetch.md) -/

/-- READ_B, READ_H, READ_W, READ_D: an access that passes its tests answers the bytes, zero-extended, unmasked in MMR
pages too, and changes nothing; another fails with its first failing test, bounds, attribute, straddle, MMR; low header
byte `sz * 32 + 1` (R140 to R144). -/
def Obligations.ReadCompletes : Prop :=
  ∀ (n : Width) (a : Nat) (s : State),
    (Gated s .read n a → MmrRespected s n a →
      exec (.readOf n a) s = .next { s with resp := some (.ok ⟨memRead s.mem a n, 0, 0⟩) }) ∧
    RefusesInOrder (.readOf n a) s .read n a ∧
    (Gated s .read n a → ¬MmrRespected s n a → FailsWith (.readOf n a) s .badMmrAccess) ∧
    (encode (.readOf n a)).ch.toNat % 256 = n.sz * 32 + 0x01

/-- READ_INST_HALF and READ_INST_WORD: gated by `exec`, no MMR rule; a fetch that passes answers the bytes and changes
nothing, another fails with its first failing test, bounds, attribute, straddle; low header bytes `0x22` and `0x42` (R145
to R147). -/
def Obligations.FetchCompletes : Prop :=
  ∀ (a : Nat) (s : State),
    (Gated s .exec .h a →
      exec (.readInstHalf a) s = .next { s with resp := some (.ok ⟨memRead s.mem a .h, 0, 0⟩) }) ∧
    (Gated s .exec .w a →
      exec (.readInstWord a) s = .next { s with resp := some (.ok ⟨memRead s.mem a .w, 0, 0⟩) }) ∧
    RefusesInOrder (.readInstHalf a) s .exec .h a ∧ RefusesInOrder (.readInstWord a) s .exec .w a ∧
    (encode (.readInstHalf a)).ch.toNat % 256 = 0x22 ∧ (encode (.readInstWord a)).ch.toNat % 256 = 0x42

/-- A fetch that succeeds has `exec` on every byte and is in bounds (ISS §8 invariant 6, from left to right; C4). -/
def Obligations.FetchedBytesAreExecutable : Prop :=
  ∀ (a b : Nat) (s t : State), validConfig s.cfg = true → Succeeded t →
    ∀ q ∈ [(Width.h, Instr.readInstHalf a), (Width.w, Instr.readInstWord a)], exec q.2 s = .next t →
      a ≤ b → b < a + q.1.bytes → b < spaceSize s.cfg ∧ (pmaOf s b).exec = true

/-- A data read outside MMR pages that is in bounds and permitted succeeds exactly if every byte it touches has the
attributes of the first: a misaligned access is rejected only for crossing pages that differ, never for being misaligned
(R57, R58; D5, D14). -/
def Obligations.MisalignedReadRejectedIffAttributesDiffer : Prop :=
  ∀ (n : Width) (a : Nat) (s t : State), validConfig s.cfg = true → a + n.bytes ≤ spaceSize s.cfg →
    (pmaOf s a).read = true → (pmaOf s a).mmr = false → exec (.readOf n a) s = .next t →
    (Succeeded t ↔ ∀ b, a ≤ b → b < a + n.bytes → pmaOf s b = pmaOf s a) ∧
    (¬Succeeded t → t.resp = some (.failed .straddle))

/-! ## Data writes, check, poke (42_write_poke.md) -/

/-- WRITE_B, WRITE_H, WRITE_W, WRITE_D: the bytes stored (masked on an MMR page), the record in the writer's slot, the
overlapping reservations of the other harts cleared, and nothing else changed (R150 to R154, R34, R59; D13, D15). -/
def Obligations.WriteCompletes : Prop :=
  ∀ (n : Width) (h a : Nat) (d : DataWord) (s : State), Canonical s → h < s.hartCount → Gated s .write n a →
    MmrRespected s n a →
    ∃ t, Answers (.writeOf n h a d) s t ⟨0, 0, 0⟩ ∧ SameControl s t ∧
      let v := if (pmaOf s a).mmr = true then dataOf n d &&& (maskOf s a).setWidth 64 else dataOf n d
      (∀ i, i < n.bytes → (t.mem.byte (a + i)).toNat = v.toNat / 256 ^ i % 256) ∧
      (∀ b, b < a ∨ a + n.bytes ≤ b → t.mem.byte b = s.mem.byte b) ∧
      lastWrite t h = ⟨some n, a, v, memRead s.mem a n⟩ ∧
      (∀ j, j ≠ h → lastWrite t j = lastWrite s j) ∧
      reservation t h = reservation s h ∧
      (∀ j, j ≠ h → reservation t j =
        if overlap a n.bytes (reservation s j) = true then { reservation s j with valid := false } else reservation s j)

/-- CHECK_WRITE_B, CHECK_WRITE_H, CHECK_WRITE_W, CHECK_WRITE_D: the value a write would store, masked on an MMR page, and
nothing changed; a check that does not pass fails with its first failing test, as a write; low header byte `sz * 32 + 4`
(R155 to R159). -/
def Obligations.CheckWriteCompletes : Prop :=
  ∀ (n : Width) (a : Nat) (d : DataWord) (s : State),
    (Gated s .write n a → MmrRespected s n a →
      exec (.checkWriteOf n a d) s = .next
        { s with resp := some (.ok
            ⟨if (pmaOf s a).mmr = true then dataOf n d &&& (maskOf s a).setWidth 64 else dataOf n d, 0, 0⟩) }) ∧
    RefusesInOrder (.checkWriteOf n a d) s .write n a ∧
    (Gated s .write n a → ¬MmrRespected s n a → FailsWith (.checkWriteOf n a d) s .badMmrAccess) ∧
    (encode (.checkWriteOf n a d)).ch.toNat % 256 = n.sz * 32 + 0x04

/-- `ok` of CHECK_WRITE is `ok` of the WRITE a hart with a valid id would issue, and its `R` is the word WRITE stores
(R155, corner cases). -/
def Obligations.CheckWriteForetellsWrite : Prop :=
  ∀ (n : Width) (h a : Nat) (d : DataWord) (s t u : State), Canonical s → h < s.hartCount →
    exec (.checkWriteOf n a d) s = .next t → exec (.writeOf n h a d) s = .next u →
    (Succeeded t ↔ Succeeded u) ∧ (∀ ans, t.resp = some (.ok ans) → memRead u.mem a n = ans.r)

/-- POKE_B, POKE_H, POKE_W, POKE_D: stored without the `write` attribute, masked on an MMR page, every overlapping
reservation cleared, no last-write record, and nothing else changed (R160 to R164, R34; D27). -/
def Obligations.PokeCompletes : Prop :=
  ∀ (n : Width) (a : Nat) (d : DataWord) (s : State), Canonical s → Gated s .mapped n a → MmrRespected s n a →
    ∃ t, Answers (.pokeOf n a d) s t ⟨0, 0, 0⟩ ∧ SameControl s t ∧ t.lw = s.lw ∧
      let v := if (pmaOf s a).mmr = true then dataOf n d &&& (maskOf s a).setWidth 64 else dataOf n d
      (∀ i, i < n.bytes → (t.mem.byte (a + i)).toNat = v.toNat / 256 ^ i % 256) ∧
      (∀ b, b < a ∨ a + n.bytes ≤ b → t.mem.byte b = s.mem.byte b) ∧
      (∀ j, reservation t j =
        if overlap a n.bytes (reservation s j) = true then { reservation s j with valid := false } else reservation s j)

/-- Read after write: the value for a plain page, the masked word for an MMR page (R66). -/
def Obligations.ReadAfterWriteReturnsIt : Prop :=
  ∀ (n : Width) (h a : Nat) (d : DataWord) (s t u : State) (ans : Answer), Canonical s →
    exec (.writeOf n h a d) s = .next t → Succeeded t → Answers (.readOf n a) t u ans →
    ((pmaOf s a).mmr = false → ans.r.toNat = d.toNat % 2 ^ (8 * n.bytes)) ∧
    ((pmaOf s a).mmr = true → ans.r = (d.setWidth 32 &&& maskOf s a).setWidth 64)

/-- A store or poke is seen by the next fetch of the same bytes, with no fence (R70). -/
def Obligations.FetchSeesThePokedBytes : Prop :=
  ∀ (a : Nat) (d : DataWord) (s t u : State) (ans : Answer), Canonical s → (pmaOf s a).mmr = false →
    (exec (.pokeW a d) s = .next t ∨ ∃ h, exec (.writeW h a d) s = .next t) → Succeeded t →
    Answers (.readInstWord a) t u ans → ans.r = (d.setWidth 32).setWidth 64

/-- After a successful write the getters give its width, address, stored value and the bytes before it; the old value is
what a READ before the write returned, where that READ succeeded (R165, R166, R26; D15 for MMR pages). -/
def Obligations.LastWriteShowsTheWrite : Prop :=
  ∀ (n : Width) (h a : Nat) (d : DataWord) (s t : State), Canonical s →
    exec (.writeOf n h a d) s = .next t → Succeeded t →
    ∃ v p, exec (.getLastWriteNew h) t = .next { t with resp := some (.ok ⟨v, a, BitVec.ofNat 4 n.bytes⟩) } ∧
      exec (.getLastWriteOld h) t = .next { t with resp := some (.ok ⟨p, a, BitVec.ofNat 4 n.bytes⟩) } ∧
      v = memRead t.mem a n ∧ ((pmaOf s a).mmr = false → v = dataOf n d) ∧ p = memRead s.mem a n ∧
      ∀ u ans, Answers (.readOf n a) s u ans → p = ans.r

/-! ## The PMA decoder and configuration (40_pma_config.md) -/

/-- GET_PMA answers the six bits of the address's page, `0x00` at and above `N`, and changes nothing (R120; D2). -/
def Obligations.GetPmaCompletes : Prop :=
  ∀ (a : Nat) (s : State), ∃ ans,
    exec (.getPma a) s = .next { s with resp := some (.ok ans) } ∧ ans.ra = 0 ∧ ans.rs = 0 ∧
    (spaceSize s.cfg ≤ a → ans.r = 0) ∧
    (a < spaceSize s.cfg →
      let q := pmaPage s (a / 2 ^ s.cfg.pageShift)
      ans.r.getLsbD 0 = q.read ∧ ans.r.getLsbD 1 = q.write ∧ ans.r.getLsbD 2 = q.exec ∧ ans.r.getLsbD 3 = q.mmr ∧
      ans.r.getLsbD 4 = q.iccm ∧ ans.r.getLsbD 5 = q.dccm ∧ ans.r.toNat < 64)

/-- SET_HART_COUNT: the count set, every slot and record re-created, the lock freed, and nothing else changed; refused for
0, for more than 2^24, and after the seal (R121; D13). -/
def Obligations.SetHartCountCompletes : Prop :=
  ∀ (d : DataWord) (s : State),
    (s.isSealed = false → 1 ≤ d.toNat → d.toNat ≤ 2 ^ 24 →
      ∃ t, Answers (.setHartCount d) s t ⟨0, 0, 0⟩ ∧ t.hartCount = d.toNat ∧
        (∀ h, lastWrite t h = ⟨none, 0, 0, 0⟩ ∧ reservation t h = ⟨0, .b, false⟩) ∧ t.lock = ⟨false, 0⟩ ∧
        t.mem = s.mem ∧ t.pma = s.pma ∧ t.mask = s.mask ∧ t.isSealed = s.isSealed ∧ t.cfg = s.cfg ∧ t.port = s.port) ∧
    (s.isSealed = true ∨ d.toNat = 0 ∨ d.toNat > 2 ^ 24 → FailsWith (.setHartCount d) s .configError)

/-- DEFINE_ICCM, DEFINE_DCCM, DEFINE_MMR_AREA: a page-aligned, non-empty area inside the space that meets no claimed page
gives its pages the attributes `0x15`, `0x23`, `0x0B`, and nothing else changes (R122 to R125; D7 to D10). -/
def Obligations.DefineAreaCompletes : Prop :=
  ∀ (a : Nat) (d : DataWord) (s : State), Canonical s → s.isSealed = false →
    a % 2 ^ s.cfg.pageShift = 0 → d.toNat % 2 ^ s.cfg.pageShift = 0 → d.toNat ≠ 0 → a + d.toNat ≤ spaceSize s.cfg →
    (∀ b, a ≤ b → b < a + d.toNat → (pmaOf s b).claimed = false) →
    ∀ q ∈ [(Instr.defineIccm a d, 0x15#6), (Instr.defineDccm a d, 0x23#6), (Instr.defineMmrArea a d, 0x0B#6)],
      ∃ t, Answers q.1 s t ⟨0, 0, 0⟩ ∧
        (∀ b, a ≤ b → b < a + d.toNat → (pmaOf t b).bits = q.2) ∧
        (∀ b, b < a ∨ a + d.toNat ≤ b → pmaOf t b = pmaOf s b) ∧
        t.mem = s.mem ∧ t.mask = s.mask ∧ t.lw = s.lw ∧ t.res = s.res ∧ t.hartCount = s.hartCount ∧
        t.isSealed = s.isSealed ∧ t.lock = s.lock ∧ t.cfg = s.cfg ∧ t.port = s.port

/-- An area that is not page-aligned in address and size, empty, beyond the space, or that meets a claimed page is refused
and no page is changed (R122; D9, D10). -/
def Obligations.BadAreaRefusedWhole : Prop :=
  ∀ (a : Nat) (d : DataWord) (s : State),
    (a % 2 ^ s.cfg.pageShift ≠ 0 ∨ d.toNat % 2 ^ s.cfg.pageShift ≠ 0 ∨ d.toNat = 0 ∨ a + d.toNat > spaceSize s.cfg ∨
      ∃ b, a ≤ b ∧ b < a + d.toNat ∧ (pmaOf s b).claimed = true) →
    ∀ i ∈ [Instr.defineIccm a d, Instr.defineDccm a d, Instr.defineMmrArea a d], FailsWith i s .configError

/-- DEFINE_MMR_MASK: the mask of the word is `D[31:0]`, every other as before, and nothing else changes; refused off a
word boundary and outside MMR pages (R126; D11). -/
def Obligations.DefineMmrMaskCompletes : Prop :=
  ∀ (a : Nat) (d : DataWord) (s : State), s.isSealed = false →
    (a % 4 = 0 → (pmaOf s a).mmr = true →
      ∃ t, Answers (.defineMmrMask a d) s t ⟨0, 0, 0⟩ ∧ maskOf t a = d.setWidth 32 ∧
        (∀ b, b ≠ a → maskOf t b = maskOf s b) ∧ t = { s with mask := t.mask, resp := t.resp }) ∧
    (a % 4 ≠ 0 ∨ (pmaOf s a).mmr = false → FailsWith (.defineMmrMask a d) s .configError)

/-- FINISH_CONFIG: `write` set on ICCM pages if `D[0] = 1`, cleared on DCCM pages under `DCCM_RO`, every other attribute
of every page as before, the block sealed, and nothing else changed (R127; D7, D8, D12). -/
def Obligations.FinishConfigCompletes : Prop :=
  ∀ (d : DataWord) (s : State), Canonical s → ValidConfig s → s.isSealed = false →
    ∃ t, Answers (.finishConfig d) s t ⟨0, 0, 0⟩ ∧ t.isSealed = true ∧
      (∀ p, pmaPage t p =
        { pmaPage s p with
          write :=
            if (pmaPage s p).iccm = true ∧ d.getLsbD 0 = true then true
            else if (pmaPage s p).dccm = true ∧ s.cfg.dccmRo = true then false
            else (pmaPage s p).write }) ∧
      t = { s with pma := t.pma, isSealed := true, resp := t.resp }

/-! ## The last-write recorder (43_last_write.md) -/

/-- GET_LAST_WRITE_NEW and GET_LAST_WRITE_OLD answer the slot and leave it; CLEAR_LAST_WRITE empties it and changes
nothing else (R165 to R167; D13, D15, D16). -/
def Obligations.LastWriteCommandsComplete : Prop :=
  ∀ (h : Nat) (s : State), Canonical s → h < s.hartCount →
    exec (.getLastWriteNew h) s = .next { s with
      resp := some (.ok ⟨(lastWrite s h).newValue, (lastWrite s h).address, sizeCode (lastWrite s h).size⟩) } ∧
    exec (.getLastWriteOld h) s = .next { s with
      resp := some (.ok ⟨(lastWrite s h).prevValue, (lastWrite s h).address, sizeCode (lastWrite s h).size⟩) } ∧
    ∃ t, Answers (.clearLastWrite h) s t ⟨0, 0, 0⟩ ∧ lastWrite t h = ⟨none, 0, 0, 0⟩ ∧
      (∀ j, j ≠ h → lastWrite t j = lastWrite s j) ∧ t = { s with lw := t.lw, resp := t.resp }

/-! ## The reservation table and the lock (44_reservation.md) -/

/-- MAKE_LR_B, MAKE_LR_H, MAKE_LR_W, MAKE_LR_D: the hart's record is replaced, with no test of the address, and nothing
else changes (R172 to R176; D18, D20). -/
def Obligations.MakeLrCompletes : Prop :=
  ∀ (n : Width) (h a : Nat) (s : State), Canonical s → h < s.hartCount →
    ∃ t, Answers (.makeLrOf n h a) s t ⟨0, 0, 0⟩ ∧ reservation t h = ⟨a, n, true⟩ ∧
      (∀ j, j ≠ h → reservation t j = reservation s j) ∧ t = { s with res := t.res, resp := t.resp }

/-- HAS_LR: 1 if the hart's reservation is valid and its address is exactly `A`, 0 otherwise, an answer both times; the
size plays no part and nothing is consumed; `BadCommand` for a hart id out of range; low header byte `0x09` (R177). -/
def Obligations.HasLrCompletes : Prop :=
  ∀ (h a : Nat) (s : State),
    (h < s.hartCount → exec (.hasLr h a) s = .next { s with
      resp := some (.ok ⟨if (reservation s h).valid = true ∧ (reservation s h).address = a then 1 else 0, 0, 0⟩) }) ∧
    (s.hartCount ≤ h → FailsWith (.hasLr h a) s .badCommand) ∧
    (encode (.hasLr h a)).ch.toNat % 256 = 0x09

/-- INVALIDATE_LR: the hart's own record is marked invalid, valid or not before, and nothing else changes; no other command
of the hart drops its reservation; `BadCommand` for a hart id out of range; low header byte `0x0A` (R178). -/
def Obligations.InvalidateLrCompletes : Prop :=
  ∀ (h : Nat) (s : State), Canonical s →
    (h < s.hartCount →
      ∃ t, Answers (.invalidateLr h) s t ⟨0, 0, 0⟩ ∧ reservation t h = { reservation s h with valid := false } ∧
        (∀ j, j ≠ h → reservation t j = reservation s j) ∧ t = { s with res := t.res, resp := t.resp }) ∧
    (∀ (i : Instr) (t : State), i.hart? = some h → exec i s = .next t → (reservation s h).valid = true →
      (reservation t h).valid = false → i = .invalidateLr h) ∧
    (s.hartCount ≤ h → FailsWith (.invalidateLr h) s .badCommand) ∧
    (encode (.invalidateLr h)).ch.toNat % 256 = 0x0A

/-- INVALIDATE_OTHER_HART_LR of the four sizes spares the named hart, INVALIDATE_LRS of the four sizes spares none; neither
tests the address, and nothing else changes (R179 to R188; D18). -/
def Obligations.InvalidationByRangeCompletes : Prop :=
  ∀ (n : Width) (h a : Nat) (s : State), Canonical s →
    (h < s.hartCount →
      ∃ t, Answers (.invalidateOtherHartLrOf n h a) s t ⟨0, 0, 0⟩ ∧
        (∀ j, reservation t j =
          if j ≠ h ∧ overlap a n.bytes (reservation s j) = true then { reservation s j with valid := false }
          else reservation s j) ∧ t = { s with res := t.res, resp := t.resp }) ∧
    ∃ t, Answers (.invalidateLrsOf n a) s t ⟨0, 0, 0⟩ ∧
      (∀ j, reservation t j =
        if overlap a n.bytes (reservation s j) = true then { reservation s j with valid := false }
        else reservation s j) ∧ t = { s with res := t.res, resp := t.resp }

/-- LOCK_ACQ takes a free lock, and answers `Busy` while any hart holds it, the asker included; LOCK_REL frees it for its
owner and is refused to any other; nothing else changes (R189, R190; D17). -/
def Obligations.LockCommandsComplete : Prop :=
  ∀ (h : Nat) (s : State), h < s.hartCount →
    (s.lock.held = false →
      exec (.lockAcq h) s = .next { s with lock := ⟨true, h⟩, resp := some (.ok ⟨0, 0, 0⟩) }) ∧
    (s.lock.held = true → FailsWith (.lockAcq h) s .busy) ∧
    (s.lock = ⟨true, h⟩ →
      exec (.lockRel h) s = .next { s with lock := ⟨false, 0⟩, resp := some (.ok ⟨0, 0, 0⟩) }) ∧
    (s.lock.held = false ∨ s.lock.owner ≠ h → FailsWith (.lockRel h) s .badCommand)

/-- What breaks a valid reservation is exactly the events (1) to (6) of R191; without one of them it stays as it was,
unless its own hart makes a new one. -/
def Obligations.ReservationBrokenExactlyByTheEvents : Prop :=
  ∀ (i : Instr) (s t : State) (h : Nat), Canonical s → (reservation s h).valid = true → exec i s = .next t →
    ((reservation t h).valid = false ↔ Succeeded t ∧ i.clears h (reservation s h) = true) ∧
    ((reservation t h).valid = true → i.remakes h = false → reservation t h = reservation s h)

/-- Forward progress: after MAKE_LR of hart `h` at `a`, any run of commands without an event (1) to (6) of R191 for `h` and
without a new MAKE_LR of `h` leaves HAS_LR of `h` at `a` answering 1: the block never fails an SC spuriously (R192). -/
def Obligations.UndisturbedReservationIsFound : Prop :=
  ∀ (n : Width) (h a : Nat) (s t : State) (cmds : List Instr), Canonical s → h < s.hartCount →
    exec (.makeLrOf n h a) s = .next t → Undisturbed h cmds t →
    ∃ u, Answers (.hasLr h a) (runCommands cmds t) u ⟨1, 0, 0⟩

/-! ## The executors' sequences (45_atomic_sequences.md; they bind the executor, log entry 13) -/

/-- The bracket of R195: under any schedule in which the other agents leave the lock alone, an executor between its
LOCK_ACQ and its LOCK_REL holds the lock, and no two executors are there at once (D17). -/
def Obligations.AtomicBodiesExcludeEachOther : Prop :=
  ∀ (y : System) (moves : List Move), LockOwned y → DistinctHarts y → Disciplined moves →
    LockOwned (y.run moves) ∧
    ∀ (j k : Nat) (e f : Executor), (y.run moves).execs[j]? = some e → (y.run moves).execs[k]? = some f →
      e.inBody = true → f.inBody = true → j = k

/-- The drain of R168 and R233: whatever the executors run and in whatever order their commands fall, the slot of each hart
is empty but from the WRITE of its instruction to the CLEAR_LAST_WRITE of its drain, the other agents writing no slot of
theirs; so it is empty whenever an instruction begins and whenever one is done. -/
def Obligations.EveryMoveKeepsTheSlotsDrained : Prop :=
  ∀ (y : System) (m : Move), SlotsDrained y → (∀ i, m = .other i → ∀ e ∈ y.execs, i.writesSlot e.hart = false) →
    SlotsDrained (y.move m)

/-- LR run without interruption on a free lock, and its drain where the executor drains after each instruction: the value
read is returned, the reservation made, the lock free again, and memory as it was (R196, R168). -/
def Obligations.LoadReservedSequence : Prop :=
  ∀ (s : State) (h a : Nat) (tr : Tracing) (n : AtomicWidth), Canonical s → h < s.hartCount → s.lock = ⟨false, 0⟩ →
    Gated s .read n.width a → MmrRespected s n.width a →
    let z := System.run ⟨s, [⟨h, tr, .lr n a, .start⟩]⟩ (List.replicate 7 (.executor 0))
    z.execs = [⟨h, tr, .lr n a, .done (.value (memRead s.mem a n.width))⟩] ∧
    reservation z.block h = ⟨a, n.width, true⟩ ∧ (∀ j, j ≠ h → reservation z.block j = reservation s j) ∧
    z.block.lock = ⟨false, 0⟩ ∧ z.block.mem = s.mem ∧
    ∀ j, lastWrite z.block j = if j = h ∧ tr.everyInstr = true then ⟨none, 0, 0, 0⟩ else lastWrite s j

/-- SC run without interruption on a free lock, five commands and the drain: with the reservation held at `a` it stores if
the WRITE is permitted, the record is drained and the slot empty; if the WRITE fails, with whatever kind, the instruction
ends with that kind and nothing stored; without the reservation it makes no memory access; the reservation is cleared every
time (R197, R168; D19). -/
def Obligations.StoreConditionalSequence : Prop :=
  ∀ (s : State) (h a : Nat) (tr : Tracing) (n : AtomicWidth) (v : DataWord), Canonical s → h < s.hartCount →
    s.lock = ⟨false, 0⟩ →
    let y : System := ⟨s, [⟨h, tr, .sc n a v, .start⟩]⟩
    let w := y.run (List.replicate 5 (.executor 0))
    let z := y.run (List.replicate 8 (.executor 0))
    (reservation z.block h).valid = false ∧ z.block.lock = ⟨false, 0⟩ ∧
    ((reservation s h).valid = true → (reservation s h).address = a →
      Gated s .write n.width a → MmrRespected s n.width a →
      w.execs = [⟨h, tr, .sc n a v, .drainGet .stored⟩] ∧
      lastWrite w.block h = ⟨some n.width, a, storedValue s n.width a v, memRead s.mem a n.width⟩ ∧
      z.execs = [⟨h, tr, .sc n a v, .done .stored⟩] ∧ lastWrite z.block h = ⟨none, 0, 0, 0⟩ ∧
      z.block.mem = memWrite s.mem a n.width (storedValue s n.width a v)) ∧
    (∀ k, (reservation s h).valid = true → (reservation s h).address = a →
      FailsWith (.writeOf n.width h a v) s k →
      z.execs = [⟨h, tr, .sc n a v, .done (.writeFailed k)⟩] ∧ z.block.mem = s.mem ∧ z.block.lw = s.lw) ∧
    (¬((reservation s h).valid = true ∧ (reservation s h).address = a) →
      z.execs = [⟨h, tr, .sc n a v, .done .notReserved⟩] ∧ z.block.mem = s.mem ∧
      ∀ j, lastWrite z.block j = if j = h ∧ tr.everyInstr = true then ⟨none, 0, 0, 0⟩ else lastWrite s j)

/-- AMO run without interruption on a free lock, four commands and the drain: the old value is returned, the new one stored
and recorded, the record drained, and the hart's own reservation left alone (R198, R168; the operation itself is general
knowledge, log entry 14). -/
def Obligations.AtomicMemoryOperationSequence : Prop :=
  ∀ (s : State) (h a : Nat) (tr : Tracing) (f : AmoOp) (n : AtomicWidth) (b : DataWord), Canonical s →
    h < s.hartCount → s.lock = ⟨false, 0⟩ → Gated s .read n.width a → Gated s .write n.width a →
    MmrRespected s n.width a →
    let y : System := ⟨s, [⟨h, tr, .amo f n a b, .start⟩]⟩
    let w := y.run (List.replicate 4 (.executor 0))
    let z := y.run (List.replicate 7 (.executor 0))
    let old := memRead s.mem a n.width
    let new := storedValue s n.width a (amoValue f n old b)
    w.execs = [⟨h, tr, .amo f n a b, .drainGet (.value old)⟩] ∧ lastWrite w.block h = ⟨some n.width, a, new, old⟩ ∧
    z.execs = [⟨h, tr, .amo f n a b, .done (.value old)⟩] ∧ lastWrite z.block h = ⟨none, 0, 0, 0⟩ ∧
    z.block.mem = memWrite s.mem a n.width new ∧ reservation z.block h = reservation s h ∧
    z.block.lock = ⟨false, 0⟩

/-- Mutual exclusion of LR/SC on one word (R202 (a)): two harts that both hold a reservation at `a` run their SCs, the
commands falling in any order, other agents only reading; if both are done, exactly one stored and the other found no
reservation. -/
def Obligations.ExactlyOneStoreConditionalSucceeds : Prop :=
  ∀ (s : State) (g h a : Nat) (tr ur : Tracing) (n : AtomicWidth) (v w : DataWord) (moves : List Move), Canonical s →
    g ≠ h → g < s.hartCount → h < s.hartCount → s.lock = ⟨false, 0⟩ → Gated s .write n.width a →
    MmrRespected s n.width a → reservation s g = ⟨a, n.width, true⟩ → reservation s h = ⟨a, n.width, true⟩ →
    (∀ i, Move.other i ∈ moves → i.readOnly = true) →
    ∀ p q, (System.run ⟨s, [⟨g, tr, .sc n a v, .start⟩, ⟨h, ur, .sc n a w, .start⟩]⟩ moves).execs =
        [⟨g, tr, .sc n a v, .done p⟩, ⟨h, ur, .sc n a w, .done q⟩] →
      (p = .stored ∧ q = .notReserved) ∨ (p = .notReserved ∧ q = .stored)
end

