-- ==== Sys2Proof/Laws/State.lean ====
section
/-! SUPPORT. One lemma per field per update of the state, true by unfolding the update once. -/

namespace Sys2Proof.Machine

/-! ## storeBytes -/

@[simp] theorem storeBytes_cfg (s : State) (n : Width) (a : Nat) (v : DataWord) :
    (storeBytes s n a v).cfg = s.cfg := rfl

@[simp] theorem storeBytes_mem (s : State) (n : Width) (a : Nat) (v : DataWord) :
    (storeBytes s n a v).mem = memWrite s.mem a n v := rfl

@[simp] theorem storeBytes_pma (s : State) (n : Width) (a : Nat) (v : DataWord) :
    (storeBytes s n a v).pma = s.pma := rfl

@[simp] theorem storeBytes_mask (s : State) (n : Width) (a : Nat) (v : DataWord) :
    (storeBytes s n a v).mask = s.mask := rfl

@[simp] theorem storeBytes_lw (s : State) (n : Width) (a : Nat) (v : DataWord) : (storeBytes s n a v).lw = s.lw := rfl

@[simp] theorem storeBytes_res (s : State) (n : Width) (a : Nat) (v : DataWord) :
    (storeBytes s n a v).res = s.res := rfl

@[simp] theorem storeBytes_hartCount (s : State) (n : Width) (a : Nat) (v : DataWord) :
    (storeBytes s n a v).hartCount = s.hartCount := rfl

@[simp] theorem storeBytes_isSealed (s : State) (n : Width) (a : Nat) (v : DataWord) :
    (storeBytes s n a v).isSealed = s.isSealed := rfl

@[simp] theorem storeBytes_lock (s : State) (n : Width) (a : Nat) (v : DataWord) :
    (storeBytes s n a v).lock = s.lock := rfl

@[simp] theorem storeBytes_port (s : State) (n : Width) (a : Nat) (v : DataWord) :
    (storeBytes s n a v).port = s.port := rfl

@[simp] theorem storeBytes_resp (s : State) (n : Width) (a : Nat) (v : DataWord) :
    (storeBytes s n a v).resp = s.resp := rfl

/-! ## setLastWrite -/

@[simp] theorem setLastWrite_cfg (s : State) (h : Nat) (x : LastWrite) : (setLastWrite s h x).cfg = s.cfg := rfl

@[simp] theorem setLastWrite_mem (s : State) (h : Nat) (x : LastWrite) : (setLastWrite s h x).mem = s.mem := rfl

@[simp] theorem setLastWrite_pma (s : State) (h : Nat) (x : LastWrite) : (setLastWrite s h x).pma = s.pma := rfl

@[simp] theorem setLastWrite_mask (s : State) (h : Nat) (x : LastWrite) : (setLastWrite s h x).mask = s.mask := rfl

@[simp] theorem setLastWrite_lw (s : State) (h : Nat) (x : LastWrite) :
    (setLastWrite s h x).lw = tablePut LastWrite.empty s.lw h x := rfl

@[simp] theorem setLastWrite_res (s : State) (h : Nat) (x : LastWrite) : (setLastWrite s h x).res = s.res := rfl

@[simp] theorem setLastWrite_hartCount (s : State) (h : Nat) (x : LastWrite) :
    (setLastWrite s h x).hartCount = s.hartCount := rfl

@[simp] theorem setLastWrite_isSealed (s : State) (h : Nat) (x : LastWrite) :
    (setLastWrite s h x).isSealed = s.isSealed := rfl

@[simp] theorem setLastWrite_lock (s : State) (h : Nat) (x : LastWrite) : (setLastWrite s h x).lock = s.lock := rfl

@[simp] theorem setLastWrite_port (s : State) (h : Nat) (x : LastWrite) : (setLastWrite s h x).port = s.port := rfl

@[simp] theorem setLastWrite_resp (s : State) (h : Nat) (x : LastWrite) : (setLastWrite s h x).resp = s.resp := rfl

/-! ## setReservation -/

@[simp] theorem setReservation_cfg (s : State) (h : Nat) (r : Reservation) : (setReservation s h r).cfg = s.cfg := rfl

@[simp] theorem setReservation_mem (s : State) (h : Nat) (r : Reservation) : (setReservation s h r).mem = s.mem := rfl

@[simp] theorem setReservation_pma (s : State) (h : Nat) (r : Reservation) : (setReservation s h r).pma = s.pma := rfl

@[simp] theorem setReservation_mask (s : State) (h : Nat) (r : Reservation) :
    (setReservation s h r).mask = s.mask := rfl

@[simp] theorem setReservation_lw (s : State) (h : Nat) (r : Reservation) : (setReservation s h r).lw = s.lw := rfl

@[simp] theorem setReservation_res (s : State) (h : Nat) (r : Reservation) :
    (setReservation s h r).res = tablePut Reservation.empty s.res h r := rfl

@[simp] theorem setReservation_hartCount (s : State) (h : Nat) (r : Reservation) :
    (setReservation s h r).hartCount = s.hartCount := rfl

@[simp] theorem setReservation_isSealed (s : State) (h : Nat) (r : Reservation) :
    (setReservation s h r).isSealed = s.isSealed := rfl

@[simp] theorem setReservation_lock (s : State) (h : Nat) (r : Reservation) :
    (setReservation s h r).lock = s.lock := rfl

@[simp] theorem setReservation_port (s : State) (h : Nat) (r : Reservation) :
    (setReservation s h r).port = s.port := rfl

@[simp] theorem setReservation_resp (s : State) (h : Nat) (r : Reservation) :
    (setReservation s h r).resp = s.resp := rfl

/-! ## sweep -/

@[simp] theorem sweep_cfg (s : State) (f : Nat → Reservation → Bool) : (sweep s f).cfg = s.cfg := rfl

@[simp] theorem sweep_mem (s : State) (f : Nat → Reservation → Bool) : (sweep s f).mem = s.mem := rfl

@[simp] theorem sweep_pma (s : State) (f : Nat → Reservation → Bool) : (sweep s f).pma = s.pma := rfl

@[simp] theorem sweep_mask (s : State) (f : Nat → Reservation → Bool) : (sweep s f).mask = s.mask := rfl

@[simp] theorem sweep_lw (s : State) (f : Nat → Reservation → Bool) : (sweep s f).lw = s.lw := rfl

@[simp] theorem sweep_res (s : State) (f : Nat → Reservation → Bool) :
    (sweep s f).res = tableMap Reservation.empty (fun h r => if f h r then r.cleared else r) s.res := rfl

@[simp] theorem sweep_hartCount (s : State) (f : Nat → Reservation → Bool) :
    (sweep s f).hartCount = s.hartCount := rfl

@[simp] theorem sweep_isSealed (s : State) (f : Nat → Reservation → Bool) : (sweep s f).isSealed = s.isSealed := rfl

@[simp] theorem sweep_lock (s : State) (f : Nat → Reservation → Bool) : (sweep s f).lock = s.lock := rfl

@[simp] theorem sweep_port (s : State) (f : Nat → Reservation → Bool) : (sweep s f).port = s.port := rfl

@[simp] theorem sweep_resp (s : State) (f : Nat → Reservation → Bool) : (sweep s f).resp = s.resp := rfl

/-! ## invalidateOthers -/

@[simp] theorem invalidateOthers_cfg (s : State) (h a n : Nat) : (invalidateOthers s h a n).cfg = s.cfg := rfl

@[simp] theorem invalidateOthers_mem (s : State) (h a n : Nat) : (invalidateOthers s h a n).mem = s.mem := rfl

@[simp] theorem invalidateOthers_pma (s : State) (h a n : Nat) : (invalidateOthers s h a n).pma = s.pma := rfl

@[simp] theorem invalidateOthers_mask (s : State) (h a n : Nat) : (invalidateOthers s h a n).mask = s.mask := rfl

@[simp] theorem invalidateOthers_lw (s : State) (h a n : Nat) : (invalidateOthers s h a n).lw = s.lw := rfl

theorem invalidateOthers_res (s : State) (h a n : Nat) :
    (invalidateOthers s h a n).res = (sweep s (fun h' r => h' != h && overlap a n r)).res := rfl

@[simp] theorem invalidateOthers_hartCount (s : State) (h a n : Nat) :
    (invalidateOthers s h a n).hartCount = s.hartCount := rfl

@[simp] theorem invalidateOthers_isSealed (s : State) (h a n : Nat) :
    (invalidateOthers s h a n).isSealed = s.isSealed := rfl

@[simp] theorem invalidateOthers_lock (s : State) (h a n : Nat) : (invalidateOthers s h a n).lock = s.lock := rfl

@[simp] theorem invalidateOthers_port (s : State) (h a n : Nat) : (invalidateOthers s h a n).port = s.port := rfl

@[simp] theorem invalidateOthers_resp (s : State) (h a n : Nat) : (invalidateOthers s h a n).resp = s.resp := rfl

/-! ## invalidateAll -/

@[simp] theorem invalidateAll_cfg (s : State) (a n : Nat) : (invalidateAll s a n).cfg = s.cfg := rfl

@[simp] theorem invalidateAll_mem (s : State) (a n : Nat) : (invalidateAll s a n).mem = s.mem := rfl

@[simp] theorem invalidateAll_pma (s : State) (a n : Nat) : (invalidateAll s a n).pma = s.pma := rfl

@[simp] theorem invalidateAll_mask (s : State) (a n : Nat) : (invalidateAll s a n).mask = s.mask := rfl

@[simp] theorem invalidateAll_lw (s : State) (a n : Nat) : (invalidateAll s a n).lw = s.lw := rfl

theorem invalidateAll_res (s : State) (a n : Nat) :
    (invalidateAll s a n).res = (sweep s (fun _ r => overlap a n r)).res := rfl

@[simp] theorem invalidateAll_hartCount (s : State) (a n : Nat) : (invalidateAll s a n).hartCount = s.hartCount := rfl

@[simp] theorem invalidateAll_isSealed (s : State) (a n : Nat) : (invalidateAll s a n).isSealed = s.isSealed := rfl

@[simp] theorem invalidateAll_lock (s : State) (a n : Nat) : (invalidateAll s a n).lock = s.lock := rfl

@[simp] theorem invalidateAll_port (s : State) (a n : Nat) : (invalidateAll s a n).port = s.port := rfl

@[simp] theorem invalidateAll_resp (s : State) (a n : Nat) : (invalidateAll s a n).resp = s.resp := rfl

/-! ## claimPages -/

@[simp] theorem claimPages_cfg (s : State) (a size : Nat) (q : Pma) : (claimPages s a size q).cfg = s.cfg := rfl

@[simp] theorem claimPages_mem (s : State) (a size : Nat) (q : Pma) : (claimPages s a size q).mem = s.mem := rfl

@[simp] theorem claimPages_pma (s : State) (a size : Nat) (q : Pma) :
    (claimPages s a size q).pma = tableFill Pma.plain s.pma (areaFirst s a) (areaPages s a size) q := rfl

@[simp] theorem claimPages_mask (s : State) (a size : Nat) (q : Pma) : (claimPages s a size q).mask = s.mask := rfl

@[simp] theorem claimPages_lw (s : State) (a size : Nat) (q : Pma) : (claimPages s a size q).lw = s.lw := rfl

@[simp] theorem claimPages_res (s : State) (a size : Nat) (q : Pma) : (claimPages s a size q).res = s.res := rfl

@[simp] theorem claimPages_hartCount (s : State) (a size : Nat) (q : Pma) :
    (claimPages s a size q).hartCount = s.hartCount := rfl

@[simp] theorem claimPages_isSealed (s : State) (a size : Nat) (q : Pma) :
    (claimPages s a size q).isSealed = s.isSealed := rfl

@[simp] theorem claimPages_lock (s : State) (a size : Nat) (q : Pma) : (claimPages s a size q).lock = s.lock := rfl

@[simp] theorem claimPages_port (s : State) (a size : Nat) (q : Pma) : (claimPages s a size q).port = s.port := rfl

@[simp] theorem claimPages_resp (s : State) (a size : Nat) (q : Pma) : (claimPages s a size q).resp = s.resp := rfl

/-! ## writeEffect -/

@[simp] theorem writeEffect_cfg (n : Width) (h a : Nat) (d : DataWord) (s : State) :
    (writeEffect n h a d s).cfg = s.cfg := rfl

@[simp] theorem writeEffect_mem (n : Width) (h a : Nat) (d : DataWord) (s : State) :
    (writeEffect n h a d s).mem = memWrite s.mem a n (storedValue s n a d) := rfl

@[simp] theorem writeEffect_pma (n : Width) (h a : Nat) (d : DataWord) (s : State) :
    (writeEffect n h a d s).pma = s.pma := rfl

@[simp] theorem writeEffect_mask (n : Width) (h a : Nat) (d : DataWord) (s : State) :
    (writeEffect n h a d s).mask = s.mask := rfl

@[simp] theorem writeEffect_lw (n : Width) (h a : Nat) (d : DataWord) (s : State) :
    (writeEffect n h a d s).lw = tablePut LastWrite.empty s.lw h (writeRecord s n a d) := rfl

theorem writeEffect_res (n : Width) (h a : Nat) (d : DataWord) (s : State) :
    (writeEffect n h a d s).res = (invalidateOthers s h a n.bytes).res := rfl

@[simp] theorem writeEffect_hartCount (n : Width) (h a : Nat) (d : DataWord) (s : State) :
    (writeEffect n h a d s).hartCount = s.hartCount := rfl

@[simp] theorem writeEffect_isSealed (n : Width) (h a : Nat) (d : DataWord) (s : State) :
    (writeEffect n h a d s).isSealed = s.isSealed := rfl

@[simp] theorem writeEffect_lock (n : Width) (h a : Nat) (d : DataWord) (s : State) :
    (writeEffect n h a d s).lock = s.lock := rfl

@[simp] theorem writeEffect_port (n : Width) (h a : Nat) (d : DataWord) (s : State) :
    (writeEffect n h a d s).port = s.port := rfl

@[simp] theorem writeEffect_resp (n : Width) (h a : Nat) (d : DataWord) (s : State) :
    (writeEffect n h a d s).resp = s.resp := rfl

/-! ## pokeEffect -/

@[simp] theorem pokeEffect_cfg (n : Width) (a : Nat) (d : DataWord) (s : State) :
    (pokeEffect n a d s).cfg = s.cfg := rfl

@[simp] theorem pokeEffect_mem (n : Width) (a : Nat) (d : DataWord) (s : State) :
    (pokeEffect n a d s).mem = memWrite s.mem a n (storedValue s n a d) := rfl

@[simp] theorem pokeEffect_pma (n : Width) (a : Nat) (d : DataWord) (s : State) :
    (pokeEffect n a d s).pma = s.pma := rfl

@[simp] theorem pokeEffect_mask (n : Width) (a : Nat) (d : DataWord) (s : State) :
    (pokeEffect n a d s).mask = s.mask := rfl

@[simp] theorem pokeEffect_lw (n : Width) (a : Nat) (d : DataWord) (s : State) : (pokeEffect n a d s).lw = s.lw := rfl

theorem pokeEffect_res (n : Width) (a : Nat) (d : DataWord) (s : State) :
    (pokeEffect n a d s).res = (invalidateAll s a n.bytes).res := rfl

@[simp] theorem pokeEffect_hartCount (n : Width) (a : Nat) (d : DataWord) (s : State) :
    (pokeEffect n a d s).hartCount = s.hartCount := rfl

@[simp] theorem pokeEffect_isSealed (n : Width) (a : Nat) (d : DataWord) (s : State) :
    (pokeEffect n a d s).isSealed = s.isSealed := rfl

@[simp] theorem pokeEffect_lock (n : Width) (a : Nat) (d : DataWord) (s : State) :
    (pokeEffect n a d s).lock = s.lock := rfl

@[simp] theorem pokeEffect_port (n : Width) (a : Nat) (d : DataWord) (s : State) :
    (pokeEffect n a d s).port = s.port := rfl

@[simp] theorem pokeEffect_resp (n : Width) (a : Nat) (d : DataWord) (s : State) :
    (pokeEffect n a d s).resp = s.resp := rfl

/-! ## putRequest -/

@[simp] theorem putRequest_cfg (s : State) (r : Request) : (putRequest s r).cfg = s.cfg := rfl

@[simp] theorem putRequest_mem (s : State) (r : Request) : (putRequest s r).mem = s.mem := rfl

@[simp] theorem putRequest_pma (s : State) (r : Request) : (putRequest s r).pma = s.pma := rfl

@[simp] theorem putRequest_mask (s : State) (r : Request) : (putRequest s r).mask = s.mask := rfl

@[simp] theorem putRequest_lw (s : State) (r : Request) : (putRequest s r).lw = s.lw := rfl

@[simp] theorem putRequest_res (s : State) (r : Request) : (putRequest s r).res = s.res := rfl

@[simp] theorem putRequest_hartCount (s : State) (r : Request) : (putRequest s r).hartCount = s.hartCount := rfl

@[simp] theorem putRequest_isSealed (s : State) (r : Request) : (putRequest s r).isSealed = s.isSealed := rfl

@[simp] theorem putRequest_lock (s : State) (r : Request) : (putRequest s r).lock = s.lock := rfl

@[simp] theorem putRequest_port (s : State) (r : Request) : (putRequest s r).port = r :: s.port := rfl

@[simp] theorem putRequest_resp (s : State) (r : Request) : (putRequest s r).resp = s.resp := rfl

/-! ## Construction -/

@[simp] theorem construct_cfg (c : Config) (image : Memory) : (State.construct c image).cfg = c := rfl

@[simp] theorem construct_mem (c : Config) (image : Memory) : (State.construct c image).mem = image := rfl

@[simp] theorem construct_pma (c : Config) (image : Memory) : (State.construct c image).pma = [] := rfl

@[simp] theorem construct_mask (c : Config) (image : Memory) : (State.construct c image).mask = [] := rfl

@[simp] theorem construct_lw (c : Config) (image : Memory) : (State.construct c image).lw = [] := rfl

@[simp] theorem construct_res (c : Config) (image : Memory) : (State.construct c image).res = [] := rfl

@[simp] theorem construct_hartCount (c : Config) (image : Memory) : (State.construct c image).hartCount = 1 := rfl

@[simp] theorem construct_isSealed (c : Config) (image : Memory) : (State.construct c image).isSealed = false := rfl

@[simp] theorem construct_lock (c : Config) (image : Memory) : (State.construct c image).lock = Lock.free := rfl

@[simp] theorem construct_port (c : Config) (image : Memory) : (State.construct c image).port = [] := rfl

@[simp] theorem construct_resp (c : Config) (image : Memory) : (State.construct c image).resp = none := rfl

end Sys2Proof.Machine
end

