-- ==== Sys2Proof/Laws/Exec.lean ====
section
/-! SUPPORT. Every command in one form: its first failing test, its effect, its answer. exec_eq says it once for all 44
commands; what a command can do is read from the three tables, without unfolding exec again. -/

namespace Sys2Proof.Machine

/-- FINISH_CONFIG's effect. -/
def sealEffect (iccmRw : Bool) (s : State) : State :=
  { s with
    pma := tableMap Pma.plain (fun _ q => sealPage iccmRw s.cfg.dccmRo q) s.pma
    isSealed := true }

/-- The first failing test of a command, none if it succeeds. -/
def firstError (s : State) : Instr → Option ErrKind
  | .readB a => accessError s .read .b a
  | .readH a => accessError s .read .h a
  | .readW a => accessError s .read .w a
  | .readD a => accessError s .read .d a
  | .readInstHalf a => gateError s .exec .h a
  | .readInstWord a => gateError s .exec .w a
  | .writeB h a _ => (hartError s h).or (accessError s .write .b a)
  | .writeH h a _ => (hartError s h).or (accessError s .write .h a)
  | .writeW h a _ => (hartError s h).or (accessError s .write .w a)
  | .writeD h a _ => (hartError s h).or (accessError s .write .d a)
  | .checkWriteB a _ => accessError s .write .b a
  | .checkWriteH a _ => accessError s .write .h a
  | .checkWriteW a _ => accessError s .write .w a
  | .checkWriteD a _ => accessError s .write .d a
  | .pokeB a _ => accessError s .mapped .b a
  | .pokeH a _ => accessError s .mapped .h a
  | .pokeW a _ => accessError s .mapped .w a
  | .pokeD a _ => accessError s .mapped .d a
  | .getPma _ => none
  | .makeLrB h _ => hartError s h
  | .makeLrH h _ => hartError s h
  | .makeLrW h _ => hartError s h
  | .makeLrD h _ => hartError s h
  | .hasLr h _ => hartError s h
  | .invalidateLr h => hartError s h
  | .invalidateOtherHartLrB h _ => hartError s h
  | .invalidateOtherHartLrH h _ => hartError s h
  | .invalidateOtherHartLrW h _ => hartError s h
  | .invalidateOtherHartLrD h _ => hartError s h
  | .invalidateLrsB _ => none
  | .invalidateLrsH _ => none
  | .invalidateLrsW _ => none
  | .invalidateLrsD _ => none
  | .lockAcq h => lockAcqError s h
  | .lockRel h => lockRelError s h
  | .getLastWriteNew h => hartError s h
  | .getLastWriteOld h => hartError s h
  | .clearLastWrite h => hartError s h
  | .setHartCount d => hartCountError s d.toNat
  | .defineIccm a d => areaError s a d.toNat
  | .defineDccm a d => areaError s a d.toNat
  | .defineMmrArea a d => areaError s a d.toNat
  | .defineMmrMask a _ => maskError s a
  | .finishConfig _ => if s.isSealed then some .configError else none

/-- The state a command that succeeds leaves, but for the response. -/
def effect (s : State) : Instr → State
  | .readB _ => s
  | .readH _ => s
  | .readW _ => s
  | .readD _ => s
  | .readInstHalf _ => s
  | .readInstWord _ => s
  | .writeB h a d => writeEffect .b h a d s
  | .writeH h a d => writeEffect .h h a d s
  | .writeW h a d => writeEffect .w h a d s
  | .writeD h a d => writeEffect .d h a d s
  | .checkWriteB _ _ => s
  | .checkWriteH _ _ => s
  | .checkWriteW _ _ => s
  | .checkWriteD _ _ => s
  | .pokeB a d => pokeEffect .b a d s
  | .pokeH a d => pokeEffect .h a d s
  | .pokeW a d => pokeEffect .w a d s
  | .pokeD a d => pokeEffect .d a d s
  | .getPma _ => s
  | .makeLrB h a => setReservation s h ⟨a, .b, true⟩
  | .makeLrH h a => setReservation s h ⟨a, .h, true⟩
  | .makeLrW h a => setReservation s h ⟨a, .w, true⟩
  | .makeLrD h a => setReservation s h ⟨a, .d, true⟩
  | .hasLr _ _ => s
  | .invalidateLr h => setReservation s h (reservation s h).cleared
  | .invalidateOtherHartLrB h a => invalidateOthers s h a (Width.bytes .b)
  | .invalidateOtherHartLrH h a => invalidateOthers s h a (Width.bytes .h)
  | .invalidateOtherHartLrW h a => invalidateOthers s h a (Width.bytes .w)
  | .invalidateOtherHartLrD h a => invalidateOthers s h a (Width.bytes .d)
  | .invalidateLrsB a => invalidateAll s a (Width.bytes .b)
  | .invalidateLrsH a => invalidateAll s a (Width.bytes .h)
  | .invalidateLrsW a => invalidateAll s a (Width.bytes .w)
  | .invalidateLrsD a => invalidateAll s a (Width.bytes .d)
  | .lockAcq h => { s with lock := ⟨true, h⟩ }
  | .lockRel _ => { s with lock := Lock.free }
  | .getLastWriteNew _ => s
  | .getLastWriteOld _ => s
  | .clearLastWrite h => setLastWrite s h LastWrite.empty
  | .setHartCount d => { s with hartCount := d.toNat, lw := [], res := [], lock := Lock.free }
  | .defineIccm a d => claimPages s a d.toNat Pma.iccmPage
  | .defineDccm a d => claimPages s a d.toNat Pma.dccmPage
  | .defineMmrArea a d => claimPages s a d.toNat Pma.mmrPage
  | .defineMmrMask a d => { s with mask := tableInsert s.mask a (d.setWidth 32) }
  | .finishConfig d => sealEffect (d.getLsbD 0) s

/-- The result fields of a command that succeeds. -/
def result (s : State) : Instr → Answer
  | .readB a => ⟨memRead s.mem a .b, 0, 0⟩
  | .readH a => ⟨memRead s.mem a .h, 0, 0⟩
  | .readW a => ⟨memRead s.mem a .w, 0, 0⟩
  | .readD a => ⟨memRead s.mem a .d, 0, 0⟩
  | .readInstHalf a => ⟨memRead s.mem a .h, 0, 0⟩
  | .readInstWord a => ⟨memRead s.mem a .w, 0, 0⟩
  | .writeB _ _ _ => ⟨0, 0, 0⟩
  | .writeH _ _ _ => ⟨0, 0, 0⟩
  | .writeW _ _ _ => ⟨0, 0, 0⟩
  | .writeD _ _ _ => ⟨0, 0, 0⟩
  | .checkWriteB a d => ⟨storedValue s .b a d, 0, 0⟩
  | .checkWriteH a d => ⟨storedValue s .h a d, 0, 0⟩
  | .checkWriteW a d => ⟨storedValue s .w a d, 0, 0⟩
  | .checkWriteD a d => ⟨storedValue s .d a d, 0, 0⟩
  | .pokeB _ _ => ⟨0, 0, 0⟩
  | .pokeH _ _ => ⟨0, 0, 0⟩
  | .pokeW _ _ => ⟨0, 0, 0⟩
  | .pokeD _ _ => ⟨0, 0, 0⟩
  | .getPma a => ⟨(pmaOf s a).bits.setWidth 64, 0, 0⟩
  | .makeLrB _ _ => ⟨0, 0, 0⟩
  | .makeLrH _ _ => ⟨0, 0, 0⟩
  | .makeLrW _ _ => ⟨0, 0, 0⟩
  | .makeLrD _ _ => ⟨0, 0, 0⟩
  | .hasLr h a => ⟨if (reservation s h).holdsAt a then 1 else 0, 0, 0⟩
  | .invalidateLr _ => ⟨0, 0, 0⟩
  | .invalidateOtherHartLrB _ _ => ⟨0, 0, 0⟩
  | .invalidateOtherHartLrH _ _ => ⟨0, 0, 0⟩
  | .invalidateOtherHartLrW _ _ => ⟨0, 0, 0⟩
  | .invalidateOtherHartLrD _ _ => ⟨0, 0, 0⟩
  | .invalidateLrsB _ => ⟨0, 0, 0⟩
  | .invalidateLrsH _ => ⟨0, 0, 0⟩
  | .invalidateLrsW _ => ⟨0, 0, 0⟩
  | .invalidateLrsD _ => ⟨0, 0, 0⟩
  | .lockAcq _ => ⟨0, 0, 0⟩
  | .lockRel _ => ⟨0, 0, 0⟩
  | .getLastWriteNew h => ⟨(lastWrite s h).newValue, (lastWrite s h).address, sizeCode (lastWrite s h).size⟩
  | .getLastWriteOld h => ⟨(lastWrite s h).prevValue, (lastWrite s h).address, sizeCode (lastWrite s h).size⟩
  | .clearLastWrite _ => ⟨0, 0, 0⟩
  | .setHartCount _ => ⟨0, 0, 0⟩
  | .defineIccm _ _ => ⟨0, 0, 0⟩
  | .defineDccm _ _ => ⟨0, 0, 0⟩
  | .defineMmrArea _ _ => ⟨0, 0, 0⟩
  | .defineMmrMask _ _ => ⟨0, 0, 0⟩
  | .finishConfig _ => ⟨0, 0, 0⟩

/-- Every command fails with its first failing test and changes nothing, or takes its effect and answers. -/
theorem exec_eq (i : Instr) (s : State) : exec i s = complete s (firstError s i) (effect s i) (result s i) := by
  cases i <;> rfl

theorem exec_of_error {i : Instr} {s : State} {k : ErrKind} (h : firstError s i = some k) :
    exec i s = .next { s with resp := some (.failed k) } := by
  rw [exec_eq, h]
  rfl

theorem exec_of_none {i : Instr} {s : State} (h : firstError s i = none) :
    exec i s = .next { effect s i with resp := some (.ok (result s i)) } := by
  rw [exec_eq, h]
  rfl

/-- All a command can do. -/
theorem exec_cases {i : Instr} {s t : State} (h : exec i s = .next t) :
    (∃ k, firstError s i = some k ∧ t = { s with resp := some (.failed k) }) ∨
    (firstError s i = none ∧ t = { effect s i with resp := some (.ok (result s i)) }) := by
  cases e : firstError s i with
  | some k =>
    rw [exec_of_error e] at h
    cases h
    exact Or.inl ⟨k, rfl, rfl⟩
  | none =>
    rw [exec_of_none e] at h
    cases h
    exact Or.inr ⟨rfl, rfl⟩

/-- Every command completes: no meaning ends in a fault or a refusal. -/
theorem exec_next (i : Instr) (s : State) : ∃ t, exec i s = .next t := by
  cases e : firstError s i with
  | some k => exact ⟨_, exec_of_error e⟩
  | none => exact ⟨_, exec_of_none e⟩

/-- All a step can do. -/
theorem step_cases {s t : State} (h : step s = .next t) :
    validConfig s.cfg = true ∧
    ((s.port = [] ∧ t = s) ∨
     (∃ r rest why, s.port = r :: rest ∧ decode s.cfg r = .reserved why ∧
       t = { s with port := rest, resp := some (.failed .badCommand) }) ∨
     (∃ r rest i, s.port = r :: rest ∧ decode s.cfg r = .command i ∧ exec i { s with port := rest } = .next t)) := by
  unfold step at h
  split at h
  · refine ⟨by assumption, ?_⟩
    cases hp : s.port with
    | nil =>
      simp only [takeRequest, hp] at h
      cases h
      exact Or.inl ⟨rfl, rfl⟩
    | cons r rest =>
      simp only [takeRequest, hp] at h
      cases hd : decode s.cfg r with
      | reserved why =>
        simp only [hd, raise] at h
        cases h
        exact Or.inr (Or.inl ⟨r, rest, why, rfl, hd, rfl⟩)
      | command i =>
        simp only [hd] at h
        exact Or.inr (Or.inr ⟨r, rest, i, rfl, hd, h⟩)
  · cases h

end Sys2Proof.Machine
end

