-- ==== Sys2Proof/Laws/Table.lean ====
section
/-! SUPPORT. Laws of the sparse tables: reading after each update, the canonical form kept, and equal readings of two
canonical tables meaning equal tables. -/

namespace Sys2Proof.Machine

variable {α : Type}

/-! ## Rising keys -/

@[simp] theorem rising_nil : TableRising ([] : List (Nat × α)) := List.Pairwise.nil

theorem rising_cons {b : Nat × α} {t : List (Nat × α)} :
    TableRising (b :: t) ↔ (∀ kv ∈ t, b.1 < kv.1) ∧ TableRising t := by
  refine List.pairwise_cons.trans (and_congr_left fun _ => ⟨fun h kv hkv => h _ (List.mem_map_of_mem hkv), fun h a ha => ?_⟩)
  obtain ⟨kv, hkv, rfl⟩ := List.mem_map.mp ha
  exact h kv hkv

/-! ## Finding -/

theorem tableFind_eq_none_of_lt {t : List (Nat × α)} {i : Nat} (h : ∀ kv ∈ t, i < kv.1) : tableFind t i = none := by
  induction t with
  | nil => rfl
  | cons kv t ih =>
    have h1 := h kv (by simp)
    simp only [tableFind]
    rw [if_neg (by omega)]
    exact ih fun x hx => h x (by simp [hx])

theorem mem_of_tableFind {t : List (Nat × α)} {i : Nat} {x : α} (h : tableFind t i = some x) : (i, x) ∈ t := by
  induction t with
  | nil => simp [tableFind] at h
  | cons kv t ih =>
    obtain ⟨k, v⟩ := kv
    simp only [tableFind] at h
    split at h
    · simp_all
    · exact List.mem_cons_of_mem _ (ih h)

theorem tableFind_of_mem {t : List (Nat × α)} {kv : Nat × α} (ht : TableRising t) (h : kv ∈ t) :
    tableFind t kv.1 = some kv.2 := by
  induction t with
  | nil => simp at h
  | cons b t ih =>
    have hp := rising_cons.mp ht
    rcases List.mem_cons.mp h with rfl | h
    · simp [tableFind]
    · have : b.1 < kv.1 := hp.1 _ h
      simp only [tableFind]
      rw [if_neg (by omega)]
      exact ih hp.2 h

@[simp] theorem tableGet_nil (dflt : α) (i : Nat) : tableGet dflt [] i = dflt := rfl

theorem tableGet_mem_or (dflt : α) (t : List (Nat × α)) (i : Nat) :
    tableGet dflt t i = dflt ∨ (i, tableGet dflt t i) ∈ t := by
  unfold tableGet
  cases h : tableFind t i with
  | none => simp
  | some x => exact Or.inr (mem_of_tableFind h)

theorem tableGet_of_mem {dflt : α} {t : List (Nat × α)} {kv : Nat × α} (ht : TableRising t) (h : kv ∈ t) :
    tableGet dflt t kv.1 = kv.2 := by
  simp [tableGet, tableFind_of_mem ht h]

/-! ## Reading after an update -/

theorem tableFind_insert (t : List (Nat × α)) (i j : Nat) (x : α) :
    tableFind (tableInsert t i x) j = if j = i then some x else tableFind t j := by
  induction t with
  | nil => simp [tableInsert, tableFind]
  | cons kv t ih =>
    obtain ⟨k, v⟩ := kv
    simp only [tableInsert]
    split
    · simp [tableFind]
    · split
      · subst_vars
        simp only [tableFind]
        split <;> rfl
      · simp only [tableFind, ih]
        split
        · subst_vars
          rw [if_neg (by omega)]
        · rfl

theorem tableFind_erase {t : List (Nat × α)} (ht : TableRising t) (i j : Nat) :
    tableFind (tableErase t i) j = if j = i then none else tableFind t j := by
  induction t with
  | nil => simp [tableErase, tableFind]
  | cons kv t ih =>
    obtain ⟨k, v⟩ := kv
    have hp := rising_cons.mp ht
    simp only [tableErase]
    split
    · subst_vars
      split
      · subst_vars
        exact tableFind_eq_none_of_lt fun kv hkv => hp.1 _ hkv
      · simp only [tableFind]
        rw [if_neg (by assumption)]
    · simp only [tableFind, ih hp.2]
      split
      · subst_vars
        rw [if_neg (by omega)]
      · rfl

theorem tableGet_put [DecidableEq α] {dflt : α} {t : List (Nat × α)} (ht : TableRising t) (i j : Nat) (x : α) :
    tableGet dflt (tablePut dflt t i x) j = if j = i then x else tableGet dflt t j := by
  unfold tablePut tableGet
  split
  · rw [tableFind_erase ht]
    split <;> simp_all
  · rw [tableFind_insert]
    split <;> rfl

theorem tableFind_map [DecidableEq α] {dflt : α} {f : Nat → α → α} {t : List (Nat × α)} (ht : TableRising t) (i : Nat) :
    tableFind (tableMap dflt f t) i =
      (tableFind t i).bind fun x => if f i x = dflt then none else some (f i x) := by
  induction t with
  | nil => rfl
  | cons kv t ih =>
    obtain ⟨k, v⟩ := kv
    have hp := rising_cons.mp ht
    have hnone : tableFind t k = none :=
      tableFind_eq_none_of_lt fun kv hkv => hp.1 _ hkv
    simp only [tableMap]
    split
    · rw [ih hp.2]
      simp only [tableFind]
      split
      · subst_vars
        simp [*]
      · rfl
    · simp only [tableFind]
      split
      · subst_vars
        simp [*]
      · exact ih hp.2

theorem tableGet_map [DecidableEq α] {dflt : α} {f : Nat → α → α} {t : List (Nat × α)} (ht : TableRising t)
    (hf : ∀ i, f i dflt = dflt) (i : Nat) :
    tableGet dflt (tableMap dflt f t) i = f i (tableGet dflt t i) := by
  unfold tableGet
  rw [tableFind_map ht]
  cases tableFind t i with
  | none => simp [hf]
  | some x =>
    simp only [Option.bind_some, Option.getD_some]
    split <;> simp [*]

/-! ## The canonical form is kept -/

theorem keys_insert {t : List (Nat × α)} {i : Nat} {x : α} {kv : Nat × α} (h : kv ∈ tableInsert t i x) :
    kv = (i, x) ∨ kv ∈ t := by
  induction t with
  | nil => simpa [tableInsert] using h
  | cons b t ih =>
    obtain ⟨k, v⟩ := b
    simp only [tableInsert] at h
    split at h
    · simpa using h
    · split at h
      · rcases List.mem_cons.mp h with h | h <;> simp [h]
      · rcases List.mem_cons.mp h with h | h
        · simp [h]
        · rcases ih h with h | h <;> simp [h]

theorem rising_insert {t : List (Nat × α)} (ht : TableRising t) (i : Nat) (x : α) :
    TableRising (tableInsert t i x) := by
  induction t with
  | nil => exact rising_cons.mpr ⟨by simp, rising_nil⟩
  | cons b t ih =>
    obtain ⟨k, v⟩ := b
    have hp := rising_cons.mp ht
    simp only [tableInsert]
    split
    · refine rising_cons.mpr ⟨fun kv hkv => ?_, ht⟩
      rcases List.mem_cons.mp hkv with rfl | hkv
      · assumption
      · have h1 : k < kv.1 := hp.1 kv hkv
        show i < kv.1
        omega
    · split
      · subst_vars
        exact rising_cons.mpr ⟨hp.1, hp.2⟩
      · refine rising_cons.mpr ⟨fun kv hkv => ?_, ih hp.2⟩
        rcases keys_insert hkv with rfl | hkv
        · show k < i
          omega
        · exact hp.1 _ hkv

theorem mem_of_mem_erase {t : List (Nat × α)} {i : Nat} {kv : Nat × α} (h : kv ∈ tableErase t i) : kv ∈ t := by
  induction t with
  | nil => simp [tableErase] at h
  | cons b t ih =>
    obtain ⟨k, v⟩ := b
    simp only [tableErase] at h
    split at h
    · simp [h]
    · rcases List.mem_cons.mp h with h | h
      · simp [h]
      · simp [ih h]

theorem rising_erase {t : List (Nat × α)} (ht : TableRising t) (i : Nat) : TableRising (tableErase t i) := by
  induction t with
  | nil => exact rising_nil
  | cons b t ih =>
    obtain ⟨k, v⟩ := b
    have hp := rising_cons.mp ht
    simp only [tableErase]
    split
    · exact hp.2
    · refine rising_cons.mpr ⟨fun kv hkv => ?_, ih hp.2⟩
      exact hp.1 _ (mem_of_mem_erase hkv)

theorem mem_put [DecidableEq α] {dflt : α} {t : List (Nat × α)} {i : Nat} {x : α} {kv : Nat × α}
    (h : kv ∈ tablePut dflt t i x) : (kv = (i, x) ∧ x ≠ dflt) ∨ kv ∈ t := by
  unfold tablePut at h
  split at h
  · exact Or.inr (mem_of_mem_erase h)
  · rcases keys_insert h with h | h
    · exact Or.inl ⟨h, by assumption⟩
    · exact Or.inr h

theorem wf_put [DecidableEq α] {dflt : α} {t : List (Nat × α)} (ht : TableWf dflt t) (i : Nat) (x : α) :
    TableWf dflt (tablePut dflt t i x) := by
  refine ⟨?_, fun kv h => ?_⟩
  · unfold tablePut
    split
    · exact rising_erase ht.1 i
    · exact rising_insert ht.1 i x
  · rcases mem_put h with ⟨rfl, hx⟩ | h
    · exact hx
    · exact ht.2 kv h

theorem mem_tableMap [DecidableEq α] {dflt : α} {f : Nat → α → α} {t : List (Nat × α)} {kv : Nat × α}
    (h : kv ∈ tableMap dflt f t) : kv.2 ≠ dflt ∧ ∃ v, (kv.1, v) ∈ t ∧ kv.2 = f kv.1 v := by
  induction t with
  | nil => simp [tableMap] at h
  | cons b t ih =>
    obtain ⟨k, v⟩ := b
    simp only [tableMap] at h
    split at h
    · obtain ⟨h1, w, h2, h3⟩ := ih h
      exact ⟨h1, w, by simp [h2], h3⟩
    · rcases List.mem_cons.mp h with rfl | h
      · exact ⟨by assumption, v, by simp, rfl⟩
      · obtain ⟨h1, w, h2, h3⟩ := ih h
        exact ⟨h1, w, by simp [h2], h3⟩

theorem rising_map [DecidableEq α] {dflt : α} {f : Nat → α → α} {t : List (Nat × α)} (ht : TableRising t) :
    TableRising (tableMap dflt f t) := by
  induction t with
  | nil => exact rising_nil
  | cons b t ih =>
    obtain ⟨k, v⟩ := b
    have hp := rising_cons.mp ht
    simp only [tableMap]
    split
    · exact ih hp.2
    · refine rising_cons.mpr ⟨fun kv hkv => ?_, ih hp.2⟩
      obtain ⟨-, w, hw, -⟩ := mem_tableMap hkv
      exact hp.1 (kv.1, w) hw

theorem wf_map [DecidableEq α] {dflt : α} {f : Nat → α → α} {t : List (Nat × α)} (ht : TableWf dflt t) :
    TableWf dflt (tableMap dflt f t) :=
  ⟨rising_map ht.1, fun _ h => (mem_tableMap h).1⟩

/-! ## Filling a run of keys -/

theorem wf_fill [DecidableEq α] {dflt : α} {t : List (Nat × α)} (ht : TableWf dflt t) (lo count : Nat) (x : α) :
    TableWf dflt (tableFill dflt t lo count x) := by
  induction count generalizing t lo with
  | zero => exact ht
  | succ n ih => exact ih (wf_put ht lo x) (lo + 1)

theorem tableGet_fill [DecidableEq α] {dflt : α} {t : List (Nat × α)} (ht : TableWf dflt t) (lo count i : Nat) (x : α) :
    tableGet dflt (tableFill dflt t lo count x) i =
      if lo ≤ i ∧ i < lo + count then x else tableGet dflt t i := by
  induction count generalizing t lo with
  | zero =>
    rw [if_neg (by omega)]
    rfl
  | succ n ih =>
    simp only [tableFill]
    rw [ih (wf_put ht lo x), tableGet_put ht.1]
    by_cases h1 : i = lo
    · subst h1
      rw [if_neg (by omega), if_pos rfl, if_pos (by omega)]
    · rw [if_neg h1]
      by_cases h2 : lo ≤ i ∧ i < lo + (n + 1)
      · rw [if_pos h2, if_pos (by omega)]
      · rw [if_neg h2, if_neg (by omega)]

theorem mem_fill [DecidableEq α] {dflt : α} {t : List (Nat × α)} {lo count : Nat} {x : α} {kv : Nat × α}
    (h : kv ∈ tableFill dflt t lo count x) : (lo ≤ kv.1 ∧ kv.1 < lo + count ∧ kv.2 = x) ∨ kv ∈ t := by
  induction count generalizing t lo with
  | zero => exact Or.inr h
  | succ n ih =>
    simp only [tableFill] at h
    rcases ih h with ⟨h1, h2, h3⟩ | h
    · exact Or.inl ⟨by omega, by omega, h3⟩
    · rcases mem_put h with ⟨rfl, -⟩ | h
      · exact Or.inl ⟨Nat.le_refl _, by show lo < lo + (n + 1); omega, rfl⟩
      · exact Or.inr h

/-! ## Equal readings, equal tables -/

theorem tableGet_ext {dflt : α} {t u : List (Nat × α)} (ht : TableWf dflt t) (hu : TableWf dflt u)
    (h : ∀ i, tableGet dflt t i = tableGet dflt u i) : t = u := by
  induction t generalizing u with
  | nil =>
    cases u with
    | nil => rfl
    | cons b u =>
      have h1 := h b.1
      rw [tableGet_of_mem hu.1 (by simp)] at h1
      exact absurd h1.symm (hu.2 b (by simp))
  | cons a t ih =>
    cases u with
    | nil =>
      have h1 := h a.1
      rw [tableGet_of_mem ht.1 (by simp)] at h1
      exact absurd h1 (ht.2 a (by simp))
    | cons b u =>
      have pt := rising_cons.mp ht.1
      have pu := rising_cons.mp hu.1
      have ha : tableGet dflt (a :: t) a.1 = a.2 := tableGet_of_mem ht.1 (by simp)
      have hb : tableGet dflt (b :: u) b.1 = b.2 := tableGet_of_mem hu.1 (by simp)
      have hlow : ∀ {c : Nat × α} {w : List (Nat × α)} {i : Nat}, (∀ kv ∈ w, c.1 < kv.1) → i < c.1 →
          tableGet dflt (c :: w) i = dflt := by
        intro c w i hw hi
        rw [tableGet, tableFind_eq_none_of_lt]
        · rfl
        · intro kv hkv
          rcases List.mem_cons.mp hkv with rfl | hkv
          · exact hi
          · exact Nat.lt_trans hi (hw _ hkv)
      have hk : a.1 = b.1 := by
        rcases Nat.lt_trichotomy a.1 b.1 with h1 | h1 | h1
        · have h2 := h a.1
          rw [ha, hlow pu.1 h1] at h2
          exact absurd h2 (ht.2 a (by simp))
        · exact h1
        · have h2 := h b.1
          rw [hb, hlow pt.1 h1] at h2
          exact absurd h2.symm (hu.2 b (by simp))
      have hv : a.2 = b.2 := by
        rw [← ha, ← hb, ← hk]
        exact h a.1
      have hab : a = b := Prod.ext hk hv
      subst hab
      congr 1
      refine ih ⟨pt.2, fun kv hkv => ht.2 kv (by simp [hkv])⟩ ⟨pu.2, fun kv hkv => hu.2 kv (by simp [hkv])⟩ fun i => ?_
      by_cases hi : i = a.1
      · subst hi
        have e1 : tableFind t a.1 = none := tableFind_eq_none_of_lt fun kv hkv => pt.1 _ hkv
        have e2 : tableFind u a.1 = none := tableFind_eq_none_of_lt fun kv hkv => pu.1 _ hkv
        simp [tableGet, e1, e2]
      · have h1 := h i
        simpa [tableGet, tableFind, hi] using h1

end Sys2Proof.Machine
end

