-- ==== Sys2Proof/Laws/Memory.lean ====
section
/-! SUPPORT. Laws of the backing store: one byte read after a write, the little-endian wide accesses (R51), and the
canonical form kept by every memory operation. -/

namespace Sys2Proof.Machine

/-! ## One byte -/

theorem Memory.byte_put {m : Memory} (hm : m.wf) (a b : Nat) (x : Byte) :
    (m.put a x).byte b = if b = a then x else m.byte b :=
  tableGet_put hm.1 a b x

theorem Memory.wf_put {m : Memory} (hm : m.wf) (a : Nat) (x : Byte) : (m.put a x).wf :=
  Sys2Proof.Machine.wf_put hm a x

theorem Memory.mem_put {m : Memory} {a : Nat} {x : Byte} {kv : Host.Cell} (h : kv ∈ m.put a x) :
    kv.1 = a ∨ kv ∈ m := by
  rcases Sys2Proof.Machine.mem_put h with ⟨rfl, -⟩ | h
  · exact Or.inl rfl
  · exact Or.inr h

theorem Memory.ext {m k : Memory} (hm : m.wf) (hk : k.wf) (h : ∀ a, m.byte a = k.byte a) : m = k :=
  tableGet_ext hm hk h

/-! ## Wide accesses -/

theorem wf_writeBytes {m : Memory} (hm : m.wf) (a n v : Nat) : (writeBytes m a n v).wf := by
  induction n generalizing m a v with
  | zero => exact hm
  | succ n ih => exact ih (Memory.wf_put hm a _) (a + 1) (v / 256)

theorem mem_writeBytes {m : Memory} {a n v : Nat} {kv : Host.Cell} (h : kv ∈ writeBytes m a n v) :
    (a ≤ kv.1 ∧ kv.1 < a + n) ∨ kv ∈ m := by
  induction n generalizing m a v with
  | zero => exact Or.inr h
  | succ n ih =>
    rcases ih h with h | h
    · exact Or.inl (by omega)
    · rcases Memory.mem_put h with h | h
      · exact Or.inl (by omega)
      · exact Or.inr h

theorem byte_writeBytes {m : Memory} (hm : m.wf) (a n v b : Nat) :
    (writeBytes m a n v).byte b =
      if a ≤ b ∧ b < a + n then BitVec.ofNat 8 (v / 256 ^ (b - a)) else m.byte b := by
  induction n generalizing m a v with
  | zero =>
    rw [if_neg (by omega)]
    rfl
  | succ n ih =>
    simp only [writeBytes]
    rw [ih (Memory.wf_put hm a _), Memory.byte_put hm]
    by_cases h1 : b = a
    · subst h1
      rw [if_neg (by omega), if_pos rfl, if_pos (by omega)]
      simp
    · rw [if_neg h1]
      by_cases h2 : a ≤ b ∧ b < a + (n + 1)
      · rw [if_pos (by omega), if_pos h2, Nat.div_div_eq_div_mul]
        congr 2
        rw [show b - a = (b - (a + 1)) + 1 by omega, Nat.pow_succ, Nat.mul_comm]
      · rw [if_neg (by omega), if_neg h2]

theorem readBytes_congr {m k : Memory} {a n : Nat} (h : ∀ b, a ≤ b → b < a + n → m.byte b = k.byte b) :
    readBytes m a n = readBytes k a n := by
  induction n generalizing a with
  | zero => rfl
  | succ n ih =>
    simp only [readBytes]
    rw [h a (by omega) (by omega), ih fun b h1 h2 => h b (by omega) (by omega)]

theorem readBytes_lt (m : Memory) (a n : Nat) : readBytes m a n < 256 ^ n := by
  induction n generalizing a with
  | zero => simp [readBytes]
  | succ n ih =>
    have h1 := ih (a + 1)
    have h2 : (m.byte a).toNat < 256 := (m.byte a).isLt
    simp only [readBytes, Nat.pow_succ]
    omega

/-- Byte `i` of a wide read is the byte at `a + i` (R51). -/
theorem readBytes_byte (m : Memory) (a n i : Nat) (hi : i < n) :
    readBytes m a n / 256 ^ i % 256 = (m.byte (a + i)).toNat := by
  induction n generalizing a i with
  | zero => omega
  | succ n ih =>
    have h2 : (m.byte a).toNat < 256 := (m.byte a).isLt
    cases i with
    | zero =>
      simp only [readBytes, Nat.pow_zero, Nat.div_one, Nat.add_zero]
      omega
    | succ i =>
      have h3 := ih (a + 1) i (by omega)
      rw [show a + 1 + i = a + (i + 1) by omega] at h3
      rw [← h3, Nat.pow_succ, Nat.mul_comm, ← Nat.div_div_eq_div_mul]
      congr 2
      simp only [readBytes]
      omega

/-- A wide read after a wide write of the same bytes gives the value's low bytes (R66). -/
theorem readBytes_writeBytes {m : Memory} (hm : m.wf) (a n v : Nat) :
    readBytes (writeBytes m a n v) a n = v % 256 ^ n := by
  induction n generalizing m a v with
  | zero => simp [readBytes, Nat.mod_one]
  | succ n ih =>
    have e : v % 256 ^ (n + 1) = v % 256 + 256 * (v / 256 % 256 ^ n) := by
      rw [Nat.pow_succ, Nat.mul_comm, Nat.mod_mul]
    simp only [readBytes, writeBytes]
    rw [ih (Memory.wf_put hm a _), byte_writeBytes (Memory.wf_put hm a _), if_neg (by omega), Memory.byte_put hm,
      if_pos rfl, BitVec.toNat_ofNat, e]

/-! ## The typed accesses -/

theorem width_bytes_pos (n : Width) : 0 < n.bytes := by cases n <;> decide

theorem width_bytes_le (n : Width) : n.bytes ≤ 8 := by cases n <;> decide

theorem pow_bytes (n : Width) : (256 : Nat) ^ n.bytes = 2 ^ (8 * n.bytes) := by cases n <;> decide

theorem pow_bytes_le (n : Width) : (2 : Nat) ^ (8 * n.bytes) ≤ 2 ^ 64 := by cases n <;> decide

theorem memRead_toNat (m : Memory) (a : Nat) (n : Width) : (memRead m a n).toNat = readBytes m a n.bytes := by
  have h1 := readBytes_lt m a n.bytes
  have h2 := pow_bytes_le n
  rw [pow_bytes] at h1
  rw [memRead, BitVec.toNat_ofNat, Nat.mod_eq_of_lt (by omega)]

theorem memRead_lt (m : Memory) (a : Nat) (n : Width) : (memRead m a n).toNat < 2 ^ (8 * n.bytes) := by
  rw [memRead_toNat, ← pow_bytes]
  exact readBytes_lt m a n.bytes

theorem memRead_congr {m k : Memory} {a : Nat} {n : Width}
    (h : ∀ b, a ≤ b → b < a + n.bytes → m.byte b = k.byte b) : memRead m a n = memRead k a n := by
  rw [memRead, memRead, readBytes_congr h]

theorem wf_memWrite {m : Memory} (hm : m.wf) (a : Nat) (n : Width) (v : DataWord) : (memWrite m a n v).wf :=
  wf_writeBytes hm a n.bytes v.toNat

theorem mem_memWrite {m : Memory} {a : Nat} {n : Width} {v : DataWord} {kv : Host.Cell} (h : kv ∈ memWrite m a n v) :
    (a ≤ kv.1 ∧ kv.1 < a + n.bytes) ∨ kv ∈ m :=
  mem_writeBytes h

theorem byte_memWrite {m : Memory} (hm : m.wf) (a b : Nat) (n : Width) (v : DataWord) :
    (memWrite m a n v).byte b =
      if a ≤ b ∧ b < a + n.bytes then BitVec.ofNat 8 (v.toNat / 256 ^ (b - a)) else m.byte b :=
  byte_writeBytes hm a n.bytes v.toNat b

theorem byte_memWrite_outside {m : Memory} (hm : m.wf) {a b : Nat} {n : Width} (v : DataWord)
    (h : b < a ∨ a + n.bytes ≤ b) : (memWrite m a n v).byte b = m.byte b := by
  rw [byte_memWrite hm, if_neg (by omega)]

theorem memRead_memWrite {m : Memory} (hm : m.wf) (a : Nat) (n : Width) (v : DataWord) :
    memRead (memWrite m a n v) a n = dataOf n v := by
  rw [memRead, memWrite, readBytes_writeBytes hm, dataOf, dataNat, pow_bytes]

theorem dataOf_toNat (n : Width) (d : DataWord) : (dataOf n d).toNat = dataNat n d := by
  have h1 : dataNat n d < 2 ^ (8 * n.bytes) := Nat.mod_lt _ (by positivity)
  have h2 := pow_bytes_le n
  rw [dataOf, BitVec.toNat_ofNat, Nat.mod_eq_of_lt (by omega)]

theorem dataOf_lt (n : Width) (d : DataWord) : (dataOf n d).toNat < 2 ^ (8 * n.bytes) := by
  rw [dataOf_toNat]
  exact Nat.mod_lt _ (by positivity)

/-- Taking the low bytes twice is taking them once. -/
theorem dataOf_of_lt {n : Width} {v : DataWord} (h : v.toNat < 2 ^ (8 * n.bytes)) : dataOf n v = v := by
  rw [dataOf, dataNat, Nat.mod_eq_of_lt h]
  simp

theorem storedValue_lt (s : State) (n : Width) (a : Nat) (d : DataWord) :
    (storedValue s n a d).toNat < 2 ^ (8 * n.bytes) := by
  unfold storedValue
  split
  · rw [BitVec.toNat_and]
    exact Nat.lt_of_le_of_lt Nat.and_le_left (dataOf_lt n d)
  · exact dataOf_lt n d

end Sys2Proof.Machine
end

