-- ==== Sys2Proof/Laws/Ops.lean ====
section
/-! SUPPORT. One law per shared operation: what each test says, what each lookup reads after each update. -/

namespace Sys2Proof.Machine

/-! ## How a command ends -/

theorem complete_next {s t u : State} {e : Option ErrKind} {ans : Answer} (h : complete s e t ans = .next u) :
    (∃ k, e = some k ∧ u = { s with resp := some (.failed k) }) ∨ (e = none ∧ u = { t with resp := some (.ok ans) }) := by
  cases e with
  | some k => cases h; exact Or.inl ⟨k, rfl, rfl⟩
  | none => cases h; exact Or.inr ⟨rfl, rfl⟩

/-! ## The tests -/

theorem hartError_none {s : State} {h : Nat} : hartError s h = none ↔ h < s.hartCount := by
  unfold hartError
  split <;> simp [*]

theorem hartError_some {s : State} {h : Nat} {k : ErrKind} :
    hartError s h = some k ↔ ¬h < s.hartCount ∧ k = .badCommand := by
  unfold hartError
  split <;> simp [*, eq_comm]

theorem aligned_iff {n : Width} {a : Nat} : aligned n a = true ↔ a % n.bytes = 0 := by simp [aligned]

theorem gateError_none {s : State} {need : Need} {n : Width} {a : Nat} :
    gateError s need n a = none ↔
      a + n.bytes ≤ spaceSize s.cfg ∧ need.holds (pmaOf s a) = true ∧
      (a % n.bytes ≠ 0 → pmaOf s a = pmaOf s (a + n.bytes - 1)) := by
  unfold gateError
  split
  · simp; omega
  · split
    · split <;> simp_all
    · split <;> simp_all [aligned]

theorem gateError_some {s : State} {need : Need} {n : Width} {a : Nat} {k : ErrKind} (h : gateError s need n a = some k) :
    k = .outOfBounds ∧ a + n.bytes > spaceSize s.cfg ∨
    k = .unmapped ∧ (pmaOf s a).mapped = false ∧ need.holds (pmaOf s a) = false ∨
    k = .permissionDenied ∧ (pmaOf s a).mapped = true ∧ need.holds (pmaOf s a) = false ∨
    k = .straddle ∧ a % n.bytes ≠ 0 ∧ pmaOf s a ≠ pmaOf s (a + n.bytes - 1) := by
  unfold gateError at h
  split at h
  · cases h
    simp_all
  · split at h
    · split at h <;> cases h <;> simp_all
    · split at h
      · cases h
        simp_all [aligned]
      · cases h

theorem mmrError_none {s : State} {n : Width} {a : Nat} :
    mmrError s n a = none ↔ ((pmaOf s a).mmr = true → n = .w ∧ a % 4 = 0) := by
  unfold mmrError
  split <;> simp_all [or_iff_not_imp_left]

theorem mmrError_some {s : State} {n : Width} {a : Nat} {k : ErrKind} (h : mmrError s n a = some k) :
    k = .badMmrAccess := by
  unfold mmrError at h
  split at h <;> cases h
  rfl

theorem or_none {e f : Option ErrKind} : e.or f = none ↔ e = none ∧ f = none := by cases e <;> simp

theorem accessError_none {s : State} {need : Need} {n : Width} {a : Nat} :
    accessError s need n a = none ↔
      (a + n.bytes ≤ spaceSize s.cfg ∧ need.holds (pmaOf s a) = true ∧
        (a % n.bytes ≠ 0 → pmaOf s a = pmaOf s (a + n.bytes - 1))) ∧
      ((pmaOf s a).mmr = true → n = .w ∧ a % 4 = 0) := by
  rw [accessError, or_none, gateError_none, mmrError_none]

/-! ## Lookups after an update -/

@[simp] theorem pmaOf_storeBytes (s : State) (n : Width) (a b : Nat) (v : DataWord) :
    pmaOf (storeBytes s n a v) b = pmaOf s b := rfl

@[simp] theorem pmaOf_resp (s : State) (r : Option Response) (b : Nat) : pmaOf { s with resp := r } b = pmaOf s b := rfl

@[simp] theorem pmaOf_writeEffect (n : Width) (h a b : Nat) (d : DataWord) (s : State) :
    pmaOf (writeEffect n h a d s) b = pmaOf s b := rfl

@[simp] theorem pmaOf_pokeEffect (n : Width) (a b : Nat) (d : DataWord) (s : State) :
    pmaOf (pokeEffect n a d s) b = pmaOf s b := rfl

theorem pmaOf_congr {s t : State} (hc : t.cfg = s.cfg) (hp : t.pma = s.pma) (b : Nat) : pmaOf t b = pmaOf s b := by
  unfold pmaOf pmaPage
  rw [hc, hp]

theorem reservation_setReservation {s : State} (hr : TableRising s.res) (h j : Nat) (r : Reservation) :
    reservation (setReservation s h r) j = if j = h then r else reservation s j :=
  tableGet_put hr h j r

theorem lastWrite_setLastWrite {s : State} (hl : TableRising s.lw) (h j : Nat) (x : LastWrite) :
    lastWrite (setLastWrite s h x) j = if j = h then x else lastWrite s j :=
  tableGet_put hl h j x

theorem reservation_sweep {s : State} (hr : TableRising s.res) (f : Nat → Reservation → Bool) (j : Nat) :
    reservation (sweep s f) j =
      if f j (reservation s j) then (reservation s j).cleared else reservation s j :=
  tableGet_map (f := fun h r => if f h r then r.cleared else r) hr (fun i => by split <;> rfl) j

theorem reservation_invalidateOthers {s : State} (hr : TableRising s.res) (h a n j : Nat) :
    reservation (invalidateOthers s h a n) j =
      if j ≠ h ∧ overlap a n (reservation s j) = true then (reservation s j).cleared else reservation s j := by
  rw [invalidateOthers, reservation_sweep hr]
  congr 1
  simp

theorem reservation_invalidateAll {s : State} (hr : TableRising s.res) (a n j : Nat) :
    reservation (invalidateAll s a n) j =
      if overlap a n (reservation s j) = true then (reservation s j).cleared else reservation s j := by
  rw [invalidateAll, reservation_sweep hr]

theorem reservation_writeEffect {s : State} (hr : TableRising s.res) (n : Width) (h a : Nat) (d : DataWord) (j : Nat) :
    reservation (writeEffect n h a d s) j =
      if j ≠ h ∧ overlap a n.bytes (reservation s j) = true then (reservation s j).cleared else reservation s j :=
  reservation_invalidateOthers (s := setLastWrite (storeBytes s n a (storedValue s n a d)) h (writeRecord s n a d)) hr
    h a n.bytes j

theorem reservation_pokeEffect {s : State} (hr : TableRising s.res) (n : Width) (a : Nat) (d : DataWord) (j : Nat) :
    reservation (pokeEffect n a d s) j =
      if overlap a n.bytes (reservation s j) = true then (reservation s j).cleared else reservation s j :=
  reservation_invalidateAll (s := storeBytes s n a (storedValue s n a d)) hr a n.bytes j

theorem lastWrite_writeEffect {s : State} (hl : TableRising s.lw) (n : Width) (h a : Nat) (d : DataWord) (j : Nat) :
    lastWrite (writeEffect n h a d s) j = if j = h then writeRecord s n a d else lastWrite s j :=
  lastWrite_setLastWrite (s := storeBytes s n a (storedValue s n a d)) hl h j (writeRecord s n a d)

theorem pmaPage_claimPages {s : State} (hp : TableWf Pma.plain s.pma) (a size p : Nat) (q : Pma) :
    pmaPage (claimPages s a size q) p =
      if areaFirst s a ≤ p ∧ p < areaFirst s a + areaPages s a size then q else pmaPage s p :=
  tableGet_fill hp _ _ p q

/-! ## The overlap test (R170) -/

theorem overlap_iff {a s : Nat} {r : Reservation} (hs : 0 < s) :
    overlap a s r = true ↔ ∃ b, (a ≤ b ∧ b < a + s) ∧ r.address ≤ b ∧ b < r.address + r.size.bytes := by
  have hp := width_bytes_pos r.size
  simp only [overlap, Bool.or_eq_true, Bool.and_eq_true, decide_eq_true_eq]
  constructor
  · rintro (⟨h1, h2⟩ | ⟨h1, h2⟩)
    · exact ⟨a, by omega, by omega⟩
    · exact ⟨r.address, by omega, by omega⟩
  · rintro ⟨b, ⟨h1, h2⟩, h3, h4⟩
    omega

/-! ## Pages -/

theorem pageIndex_eq (c : Config) (a : Nat) : pageIndex c a = a / pageSize c := Nat.shiftRight_eq_div_pow a c.pageShift

theorem pageIndex_lt {c : Config} {a : Nat} (h : a < spaceSize c) : pageIndex c a < pageCount c := by
  have hp : 0 < pageSize c := Nat.two_pow_pos _
  rw [pageIndex_eq, pageCount, Nat.div_lt_iff_lt_mul hp]
  have h1 := Nat.div_add_mod (spaceSize c + (pageSize c - 1)) (pageSize c)
  have h2 := Nat.mod_lt (spaceSize c + (pageSize c - 1)) hp
  rw [Nat.mul_comm] at h1
  omega

theorem bytes_dvd_pageSize {c : Config} (hc : validConfig c = true) (n : Width) : n.bytes ∣ pageSize c := by
  have h1 : 3 ≤ c.pageShift := by simp [validConfig] at hc; exact hc.1
  have h2 : n.bytes ∣ 2 ^ 3 := by cases n <;> decide
  exact h2.trans (Nat.pow_dvd_pow 2 h1)

/-- "A naturally aligned access never crosses a page" (R57). -/
theorem aligned_one_page {c : Config} (hc : validConfig c = true) {n : Width} {a : Nat} (ha : a % n.bytes = 0)
    {b : Nat} (h1 : a ≤ b) (h2 : b < a + n.bytes) : pageIndex c b = pageIndex c a := by
  obtain ⟨k, hk⟩ := bytes_dvd_pageSize hc n
  have hn := width_bytes_pos n
  rw [pageIndex_eq, pageIndex_eq, hk, ← Nat.div_div_eq_div_mul, ← Nat.div_div_eq_div_mul]
  congr 1
  obtain ⟨q, rfl⟩ := Nat.dvd_of_mod_eq_zero ha
  rw [Nat.mul_div_cancel_left q hn]
  refine Nat.div_eq_of_lt_le ?_ ?_
  · rw [Nat.mul_comm]; exact h1
  · rw [Nat.add_mul, Nat.mul_comm q, Nat.one_mul]; exact h2

/-- An access touches the page of its first byte and the page of its last byte, no other (R57). -/
theorem access_two_pages {c : Config} (hc : validConfig c = true) {n : Width} {a b : Nat} (h1 : a ≤ b)
    (h2 : b < a + n.bytes) : pageIndex c b = pageIndex c a ∨ pageIndex c b = pageIndex c (a + n.bytes - 1) := by
  have h8 : 8 ≤ pageSize c := by
    have : 3 ≤ c.pageShift := by simp [validConfig] at hc; exact hc.1
    calc 8 = 2 ^ 3 := rfl
      _ ≤ 2 ^ c.pageShift := Nat.pow_le_pow_right (by omega) this
  have hn := width_bytes_le n
  have hp : 0 < pageSize c := by omega
  rw [pageIndex_eq, pageIndex_eq, pageIndex_eq]
  have m1 : a / pageSize c ≤ b / pageSize c := Nat.div_le_div_right h1
  have m2 : b / pageSize c ≤ (a + n.bytes - 1) / pageSize c := Nat.div_le_div_right (by omega)
  have m3 : (a + n.bytes - 1) / pageSize c ≤ a / pageSize c + 1 := by
    calc (a + n.bytes - 1) / pageSize c ≤ (a + pageSize c) / pageSize c := Nat.div_le_div_right (by omega)
      _ = a / pageSize c + 1 := Nat.add_div_right a hp
  omega

end Sys2Proof.Machine
end

