-- ==== Sys2Proof/Laws/Effects.lean ====
section
/-! SUPPORT. What the effects of all commands have in common, and the completion of the sized families: the laws the
whole-block claims are assembled from. -/

namespace Sys2Proof.Machine

/-! ## What no command changes -/

@[simp] theorem effect_cfg (i : Instr) (s : State) : (effect s i).cfg = s.cfg := by cases i <;> rfl

@[simp] theorem effect_port (i : Instr) (s : State) : (effect s i).port = s.port := by cases i <;> rfl

theorem exec_cfg {i : Instr} {s t : State} (h : exec i s = .next t) : t.cfg = s.cfg := by
  rcases exec_cases h with ⟨k, -, rfl⟩ | ⟨-, rfl⟩
  · rfl
  · exact effect_cfg i s

theorem exec_port {i : Instr} {s t : State} (h : exec i s = .next t) : t.port = s.port := by
  rcases exec_cases h with ⟨k, -, rfl⟩ | ⟨-, rfl⟩
  · rfl
  · exact effect_port i s

/-! ## Success and failure -/

theorem succeeded_iff {i : Instr} {s t : State} (h : exec i s = .next t) : Succeeded t ↔ firstError s i = none := by
  rcases exec_cases h with ⟨k, e, rfl⟩ | ⟨e, rfl⟩
  · simp [Succeeded, e]
  · simp [Succeeded, e]

theorem exec_succeeded {i : Instr} {s t : State} (h : exec i s = .next t) (ht : Succeeded t) :
    firstError s i = none ∧ t = { effect s i with resp := some (.ok (result s i)) } := by
  rcases exec_cases h with ⟨k, -, rfl⟩ | e
  · obtain ⟨ans, e⟩ := ht
    cases e
  · exact e

theorem failsWith_of_error {i : Instr} {s : State} {k : ErrKind} (h : firstError s i = some k) : FailsWith i s k :=
  exec_of_error h

theorem answers_of_none {i : Instr} {s : State} (h : firstError s i = none) :
    Answers i s { effect s i with resp := some (.ok (result s i)) } (result s i) :=
  ⟨exec_of_none h, rfl⟩

theorem accessError_of_gated {s : State} {need : Need} {n : Width} {a : Nat} (hg : Gated s need n a)
    (hm : MmrRespected s n a) : accessError s need n a = none :=
  accessError_none.mpr ⟨⟨hg.inBounds, hg.permitted, hg.noStraddle⟩, hm⟩

theorem gated_of_accessError {s : State} {need : Need} {n : Width} {a : Nat} (h : accessError s need n a = none) :
    Gated s need n a ∧ MmrRespected s n a := by
  obtain ⟨⟨h1, h2, h3⟩, h4⟩ := accessError_none.mp h
  exact ⟨⟨h1, h2, h3⟩, h4⟩

/-! ## The tables of the sized families -/

@[simp] theorem firstError_readOf (s : State) (n : Width) (a : Nat) :
    firstError s (.readOf n a) = accessError s .read n a := by cases n <;> rfl

@[simp] theorem effect_readOf (s : State) (n : Width) (a : Nat) : effect s (.readOf n a) = s := by cases n <;> rfl

@[simp] theorem result_readOf (s : State) (n : Width) (a : Nat) : result s (.readOf n a) = ⟨memRead s.mem a n, 0, 0⟩ := by
  cases n <;> rfl

@[simp] theorem firstError_writeOf (s : State) (n : Width) (h a : Nat) (d : DataWord) :
    firstError s (.writeOf n h a d) = (hartError s h).or (accessError s .write n a) := by cases n <;> rfl

@[simp] theorem effect_writeOf (s : State) (n : Width) (h a : Nat) (d : DataWord) :
    effect s (.writeOf n h a d) = writeEffect n h a d s := by cases n <;> rfl

@[simp] theorem result_writeOf (s : State) (n : Width) (h a : Nat) (d : DataWord) :
    result s (.writeOf n h a d) = ⟨0, 0, 0⟩ := by cases n <;> rfl

@[simp] theorem firstError_checkWriteOf (s : State) (n : Width) (a : Nat) (d : DataWord) :
    firstError s (.checkWriteOf n a d) = accessError s .write n a := by cases n <;> rfl

@[simp] theorem effect_checkWriteOf (s : State) (n : Width) (a : Nat) (d : DataWord) :
    effect s (.checkWriteOf n a d) = s := by cases n <;> rfl

@[simp] theorem result_checkWriteOf (s : State) (n : Width) (a : Nat) (d : DataWord) :
    result s (.checkWriteOf n a d) = ⟨storedValue s n a d, 0, 0⟩ := by cases n <;> rfl

@[simp] theorem firstError_pokeOf (s : State) (n : Width) (a : Nat) (d : DataWord) :
    firstError s (.pokeOf n a d) = accessError s .mapped n a := by cases n <;> rfl

@[simp] theorem effect_pokeOf (s : State) (n : Width) (a : Nat) (d : DataWord) :
    effect s (.pokeOf n a d) = pokeEffect n a d s := by cases n <;> rfl

@[simp] theorem result_pokeOf (s : State) (n : Width) (a : Nat) (d : DataWord) :
    result s (.pokeOf n a d) = ⟨0, 0, 0⟩ := by cases n <;> rfl

@[simp] theorem firstError_makeLrOf (s : State) (n : Width) (h a : Nat) :
    firstError s (.makeLrOf n h a) = hartError s h := by cases n <;> rfl

@[simp] theorem effect_makeLrOf (s : State) (n : Width) (h a : Nat) :
    effect s (.makeLrOf n h a) = setReservation s h ⟨a, n, true⟩ := by cases n <;> rfl

@[simp] theorem result_makeLrOf (s : State) (n : Width) (h a : Nat) : result s (.makeLrOf n h a) = ⟨0, 0, 0⟩ := by
  cases n <;> rfl

@[simp] theorem firstError_invalidateOtherHartLrOf (s : State) (n : Width) (h a : Nat) :
    firstError s (.invalidateOtherHartLrOf n h a) = hartError s h := by cases n <;> rfl

@[simp] theorem effect_invalidateOtherHartLrOf (s : State) (n : Width) (h a : Nat) :
    effect s (.invalidateOtherHartLrOf n h a) = invalidateOthers s h a n.bytes := by cases n <;> rfl

@[simp] theorem result_invalidateOtherHartLrOf (s : State) (n : Width) (h a : Nat) :
    result s (.invalidateOtherHartLrOf n h a) = ⟨0, 0, 0⟩ := by cases n <;> rfl

@[simp] theorem firstError_invalidateLrsOf (s : State) (n : Width) (a : Nat) :
    firstError s (.invalidateLrsOf n a) = none := by cases n <;> rfl

@[simp] theorem effect_invalidateLrsOf (s : State) (n : Width) (a : Nat) :
    effect s (.invalidateLrsOf n a) = invalidateAll s a n.bytes := by cases n <;> rfl

@[simp] theorem result_invalidateLrsOf (s : State) (n : Width) (a : Nat) :
    result s (.invalidateLrsOf n a) = ⟨0, 0, 0⟩ := by cases n <;> rfl

/-! ## The canonical form is kept -/

theorem canonical_setReservation {s : State} (hs : Canonical s) (h : Nat) (r : Reservation) :
    Canonical (setReservation s h r) := ⟨hs.mem, hs.pma, hs.mask, hs.lw, wf_put hs.res h r⟩

theorem canonical_setLastWrite {s : State} (hs : Canonical s) (h : Nat) (x : LastWrite) :
    Canonical (setLastWrite s h x) := ⟨hs.mem, hs.pma, hs.mask, wf_put hs.lw h x, hs.res⟩

theorem canonical_sweep {s : State} (hs : Canonical s) (f : Nat → Reservation → Bool) : Canonical (sweep s f) :=
  ⟨hs.mem, hs.pma, hs.mask, hs.lw, wf_map hs.res⟩

theorem canonical_storeBytes {s : State} (hs : Canonical s) (n : Width) (a : Nat) (v : DataWord) :
    Canonical (storeBytes s n a v) := ⟨wf_memWrite hs.mem a n v, hs.pma, hs.mask, hs.lw, hs.res⟩

theorem canonical_claimPages {s : State} (hs : Canonical s) (a size : Nat) (q : Pma) :
    Canonical (claimPages s a size q) := ⟨hs.mem, wf_fill hs.pma _ _ q, hs.mask, hs.lw, hs.res⟩

theorem canonical_writeEffect {s : State} (hs : Canonical s) (n : Width) (h a : Nat) (d : DataWord) :
    Canonical (writeEffect n h a d s) :=
  canonical_sweep (canonical_setLastWrite (canonical_storeBytes hs n a _) h _) _

theorem canonical_pokeEffect {s : State} (hs : Canonical s) (n : Width) (a : Nat) (d : DataWord) :
    Canonical (pokeEffect n a d s) := canonical_sweep (canonical_storeBytes hs n a _) _

theorem wf_nil {α : Type} (dflt : α) : TableWf dflt ([] : List (Nat × α)) := ⟨rising_nil, fun _ h => by cases h⟩

theorem canonical_effect {s : State} (hs : Canonical s) (i : Instr) : Canonical (effect s i) := by
  cases i <;> first
    | exact hs
    | exact canonical_writeEffect hs _ _ _ _
    | exact canonical_pokeEffect hs _ _ _
    | exact canonical_setReservation hs _ _
    | exact canonical_setLastWrite hs _ _
    | exact canonical_sweep hs _
    | exact canonical_claimPages hs _ _ _
    | exact ⟨hs.mem, hs.pma, hs.mask, hs.lw, hs.res⟩
    | exact ⟨hs.mem, hs.pma, hs.mask, wf_nil _, wf_nil _⟩
    | exact ⟨hs.mem, hs.pma, rising_insert hs.mask _ _, hs.lw, hs.res⟩
    | exact ⟨hs.mem, wf_map hs.pma, hs.mask, hs.lw, hs.res⟩

theorem canonical_resp {s : State} (hs : Canonical s) (r : Option Response) : Canonical { s with resp := r } :=
  ⟨hs.mem, hs.pma, hs.mask, hs.lw, hs.res⟩

theorem canonical_exec {s t : State} {i : Instr} (hs : Canonical s) (h : exec i s = .next t) : Canonical t := by
  rcases exec_cases h with ⟨k, -, rfl⟩ | ⟨-, rfl⟩
  · exact canonical_resp hs _
  · exact canonical_resp (canonical_effect hs i) _

theorem Inv.canonical {s : State} (h : Inv s) : Canonical s := ⟨h.memWf, h.pmaWf, h.maskWf, h.lwWf, h.resWf⟩

/-! ## What each kind of command leaves of the reservation records and the last-write slots -/

/-- The record of a hart after a command that succeeds, by the events of R191. -/
theorem reservation_effect {s : State} (hs : Canonical s) (i : Instr) (h : Nat) (hr : i.remakes h = false) :
    reservation (effect s i) h =
      if i.clears h (reservation s h) = true then
        (if ∃ d, i = .setHartCount d then Reservation.empty else (reservation s h).cleared)
      else reservation s h := by
  have hrise := hs.res.1
  have key : ∀ (h' : Nat) (b : Bool) (x y : Reservation), (if h ≠ h' ∧ b = true then x else y) =
      if (h' != h && b) = true then x else y := by
    intro h' b x y
    by_cases e : h = h'
    · subst e; simp
    · have e' : h' ≠ h := fun c => e c.symm
      simp [e, e']
  have hw : ∀ n h' a d, reservation (writeEffect n h' a d s) h =
      if (h' != h && overlap a n.bytes (reservation s h)) = true then (reservation s h).cleared else reservation s h :=
    fun n h' a d => (reservation_writeEffect hrise n h' a d h).trans (key _ _ _ _)
  have ho : ∀ h' a n, reservation (invalidateOthers s h' a n) h =
      if (h' != h && overlap a n (reservation s h)) = true then (reservation s h).cleared else reservation s h :=
    fun h' a n => (reservation_invalidateOthers hrise h' a n h).trans (key _ _ _ _)
  have hm : ∀ h' r, (h' == h) = false → reservation (setReservation s h' r) h = reservation s h := by
    intro h' r e
    rw [reservation_setReservation hrise, if_neg]
    rintro rfl
    simp at e
  cases i
  all_goals try simp only [reduceCtorEq, exists_false, if_false]
  case writeB h' a d => exact hw .b h' a d
  case writeH h' a d => exact hw .h h' a d
  case writeW h' a d => exact hw .w h' a d
  case writeD h' a d => exact hw .d h' a d
  case pokeB a d => exact reservation_pokeEffect hrise .b a d h
  case pokeH a d => exact reservation_pokeEffect hrise .h a d h
  case pokeW a d => exact reservation_pokeEffect hrise .w a d h
  case pokeD a d => exact reservation_pokeEffect hrise .d a d h
  case invalidateOtherHartLrB h' a => exact ho h' a (Width.bytes .b)
  case invalidateOtherHartLrH h' a => exact ho h' a (Width.bytes .h)
  case invalidateOtherHartLrW h' a => exact ho h' a (Width.bytes .w)
  case invalidateOtherHartLrD h' a => exact ho h' a (Width.bytes .d)
  case invalidateLrsB a => exact reservation_invalidateAll hrise a (Width.bytes .b) h
  case invalidateLrsH a => exact reservation_invalidateAll hrise a (Width.bytes .h) h
  case invalidateLrsW a => exact reservation_invalidateAll hrise a (Width.bytes .w) h
  case invalidateLrsD a => exact reservation_invalidateAll hrise a (Width.bytes .d) h
  case makeLrB h' a => exact (hm h' ⟨a, .b, true⟩ hr).trans (if_neg Bool.false_ne_true).symm
  case makeLrH h' a => exact (hm h' ⟨a, .h, true⟩ hr).trans (if_neg Bool.false_ne_true).symm
  case makeLrW h' a => exact (hm h' ⟨a, .w, true⟩ hr).trans (if_neg Bool.false_ne_true).symm
  case makeLrD h' a => exact (hm h' ⟨a, .d, true⟩ hr).trans (if_neg Bool.false_ne_true).symm
  case invalidateLr h' =>
    rw [effect, reservation_setReservation hrise]
    by_cases e : h = h'
    · subst e; simp [Instr.clears]
    · have e' : h' ≠ h := fun c => e c.symm
      simp [Instr.clears, e, e']
  case setHartCount d => simp [effect, reservation, Instr.clears]
  all_goals exact (if_neg Bool.false_ne_true).symm

end Sys2Proof.Machine
end

