-- ==== Sys2Proof/Laws/Access.lean ====
section
/-! SUPPORT. The gate test by test, the bytes of an access that passes it, and the areas of the configuration commands. -/

namespace Sys2Proof.Machine

/-! ## The gate, test by test (R61) -/

theorem gateError_bounds {s : State} {need : Need} {n : Width} {a : Nat} (h : a + n.bytes > spaceSize s.cfg) :
    gateError s need n a = some .outOfBounds := if_pos h

theorem gateError_permission {s : State} {need : Need} {n : Width} {a : Nat} (h : a + n.bytes ≤ spaceSize s.cfg)
    (hp : need.holds (pmaOf s a) = false) :
    gateError s need n a = some (if (pmaOf s a).mapped then .permissionDenied else .unmapped) := by
  simp only [gateError, Nat.not_lt.mpr h, hp, if_false, Bool.not_false, if_true]
  split <;> rfl

theorem gateError_straddle {s : State} {need : Need} {n : Width} {a : Nat} (h : a + n.bytes ≤ spaceSize s.cfg)
    (hp : need.holds (pmaOf s a) = true) (ha : a % n.bytes ≠ 0) (hs : pmaOf s a ≠ pmaOf s (a + n.bytes - 1)) :
    gateError s need n a = some .straddle := by
  simp [gateError, Nat.not_lt.mpr h, hp, aligned, ha, hs]

theorem accessError_of_gateError {s : State} {need : Need} {n : Width} {a : Nat} {k : ErrKind}
    (h : gateError s need n a = some k) : accessError s need n a = some k := by
  rw [accessError, h]
  rfl

theorem accessError_mmr {s : State} {need : Need} {n : Width} {a : Nat} (hg : Gated s need n a)
    (hm : ¬MmrRespected s n a) : accessError s need n a = some .badMmrAccess := by
  have h1 : gateError s need n a = none := gateError_none.mpr ⟨hg.inBounds, hg.permitted, hg.noStraddle⟩
  rw [accessError, h1, Option.none_or, mmrError, if_pos]
  unfold MmrRespected at hm
  simp
  tauto

/-- A command whose first failing test is the gate's, wherever the gate fails, refuses in the gate's order. -/
theorem refusesInOrder_of {i : Instr} {s : State} {need : Need} {n : Width} {a : Nat}
    (h : ∀ k, gateError s need n a = some k → firstError s i = some k) : RefusesInOrder i s need n a where
  bounds h1 := exec_of_error (h _ (gateError_bounds h1))
  permission h1 h2 := exec_of_error (h _ (gateError_permission h1 h2))
  straddle h1 h2 h3 h4 := exec_of_error (h _ (gateError_straddle h1 h2 h3 h4))

/-- The tests read the parameters and the page table only. -/
theorem accessError_congr {s t : State} (hc : t.cfg = s.cfg) (hp : t.pma = s.pma) (need : Need) (n : Width) (a : Nat) :
    accessError t need n a = accessError s need n a := by
  unfold accessError gateError mmrError
  simp only [hc, pmaOf_congr hc hp]

/-- The kinds an access can fail with (R211). -/
theorem accessError_kinds {s : State} {need : Need} {n : Width} {a : Nat} {k : ErrKind}
    (h : accessError s need n a = some k) :
    k ∈ [ErrKind.outOfBounds, .unmapped, .permissionDenied, .straddle, .badMmrAccess] ∧ (n = .b → k ≠ .straddle) ∧
      (need = .mapped → k ≠ .permissionDenied) := by
  unfold accessError at h
  cases hg : gateError s need n a with
  | some k' =>
    rw [hg] at h
    cases h
    rcases gateError_some hg with ⟨rfl, -⟩ | ⟨rfl, h1, -⟩ | ⟨rfl, h1, h2⟩ | ⟨rfl, h1, -⟩
    · simp
    · simp
    · refine ⟨by simp, by simp, ?_⟩
      rintro rfl
      simp [Need.holds, h1] at h2
    · refine ⟨by simp, ?_, by simp⟩
      rintro rfl
      simp [Width.bytes, Nat.mod_one] at h1
  | none =>
    rw [hg] at h
    rw [mmrError_some h]
    simp

/-- Every byte of an access that passes the bounds and straddle tests has the PMA of the first (R57). -/
theorem pmaOf_bytes_alike {s : State} (hc : validConfig s.cfg = true) {n : Width} {a b : Nat}
    (hb : a + n.bytes ≤ spaceSize s.cfg) (hs : a % n.bytes ≠ 0 → pmaOf s a = pmaOf s (a + n.bytes - 1)) (h1 : a ≤ b)
    (h2 : b < a + n.bytes) : pmaOf s b = pmaOf s a := by
  have hn := width_bytes_pos n
  have page : ∀ x, x < spaceSize s.cfg → pmaOf s x = pmaPage s (pageIndex s.cfg x) := fun x h => if_pos h
  by_cases hal : a % n.bytes = 0
  · rw [page b (by omega), page a (by omega), aligned_one_page hc hal h1 h2]
  · rcases access_two_pages hc h1 h2 with e | e
    · rw [page b (by omega), page a (by omega), e]
    · rw [hs hal, page b (by omega), page _ (by omega), e]

/-! ## Stores -/

theorem write_mem {n : Width} {h a : Nat} {d : DataWord} {s t : State} (he : exec (.writeOf n h a d) s = .next t)
    (ht : Succeeded t) : t.mem = memWrite s.mem a n (storedValue s n a d) := by
  obtain ⟨-, rfl⟩ := exec_succeeded he ht
  rw [effect_writeOf]
  rfl

theorem poke_mem {n : Width} {a : Nat} {d : DataWord} {s t : State} (he : exec (.pokeOf n a d) s = .next t)
    (ht : Succeeded t) : t.mem = memWrite s.mem a n (storedValue s n a d) := by
  obtain ⟨-, rfl⟩ := exec_succeeded he ht
  rw [effect_pokeOf]
  rfl

theorem dataOf_storedValue (s : State) (n : Width) (a : Nat) (d : DataWord) :
    dataOf n (storedValue s n a d) = storedValue s n a d := dataOf_of_lt (storedValue_lt s n a d)

/-! ## Areas (R122) -/

theorem areaError_none {s : State} {a z : Nat} (h : areaError s a z = none) :
    s.isSealed = false ∧ a % pageSize s.cfg = 0 ∧ z % pageSize s.cfg = 0 ∧ z ≠ 0 ∧ a + z ≤ spaceSize s.cfg ∧
      ∀ p, areaFirst s a ≤ p → p < areaFirst s a + areaPages s a z → (pmaPage s p).claimed = false := by
  unfold areaError at h
  split at h
  · cases h
  split at h
  · cases h
  split at h
  · cases h
  split at h
  · cases h
  split at h
  · cases h
  rename_i h1 h2 h3 h4 h5
  simp at h1 h2 h3 h4 h5
  exact ⟨h1, h2.1, h2.2, h3, h4, fun p hp hq => by simpa using h5 p hp hq⟩

/-- The pages of a page-aligned area are those of its addresses. -/
theorem page_mem_area {s : State} {a z b : Nat} (h1 : a % pageSize s.cfg = 0) (h2 : z % pageSize s.cfg = 0) :
    (areaFirst s a ≤ pageIndex s.cfg b ∧ pageIndex s.cfg b < areaFirst s a + areaPages s a z) ↔ a ≤ b ∧ b < a + z := by
  have hP : 0 < pageSize s.cfg := Nat.two_pow_pos _
  simp only [areaFirst, areaPages, pageIndex_eq]
  obtain ⟨x, hx⟩ := Nat.dvd_of_mod_eq_zero h1
  obtain ⟨y, hy⟩ := Nat.dvd_of_mod_eq_zero h2
  rw [hx, hy, ← Nat.mul_add, Nat.mul_div_cancel_left _ hP, Nat.mul_div_cancel_left _ hP, Nat.le_div_iff_mul_le hP,
    show x + (x + y - x) = x + y by omega, Nat.div_lt_iff_lt_mul hP, Nat.mul_comm x, Nat.mul_comm (x + y)]

/-! ## Membership after an update -/

theorem mem_setReservation {s : State} {h : Nat} {r : Reservation} {kv : Nat × Reservation}
    (hk : kv ∈ (setReservation s h r).res) : kv = (h, r) ∨ kv ∈ s.res := by
  rcases mem_put hk with ⟨rfl, -⟩ | hk
  · exact Or.inl rfl
  · exact Or.inr hk

theorem mem_sweep {s : State} {f : Nat → Reservation → Bool} {kv : Nat × Reservation} (hk : kv ∈ (sweep s f).res) :
    ∃ v, (kv.1, v) ∈ s.res ∧ kv.2.address = v.address := by
  obtain ⟨-, v, hv, e⟩ := mem_tableMap hk
  refine ⟨v, hv, ?_⟩
  rw [e]
  split <;> rfl

theorem mem_writeEffect_lw {s : State} {n : Width} {h a : Nat} {d : DataWord} {kv : Nat × LastWrite}
    (hk : kv ∈ (writeEffect n h a d s).lw) : kv = (h, writeRecord s n a d) ∨ kv ∈ s.lw := by
  change kv ∈ tablePut LastWrite.empty s.lw h (writeRecord s n a d) at hk
  rcases mem_put hk with ⟨rfl, -⟩ | hk
  · exact Or.inl rfl
  · exact Or.inr hk

end Sys2Proof.Machine
end

