-- ==== Sys2Proof/Laws/Decode.lean ====
section
/-! SUPPORT. Laws of the header fields (R91), the decoder (R101) and the encoder. -/

namespace Sys2Proof

/-! ## The fields of a header built from its fields -/

theorem header_toNat {op sz h : Nat} (ho : op < 32) (hs : sz < 4) (hh : h < 2 ^ 24) :
    (header op sz h).toNat = h * 256 + sz * 32 + op := by
  rw [header, BitVec.toNat_ofNat, Nat.mod_eq_of_lt (by omega)]

theorem opField_header {op sz h : Nat} (ho : op < 32) (hs : sz < 4) (hh : h < 2 ^ 24) :
    opField (header op sz h) = op := by
  rw [opField, header_toNat ho hs hh]
  omega

theorem szField_header {op sz h : Nat} (ho : op < 32) (hs : sz < 4) (hh : h < 2 ^ 24) :
    szField (header op sz h) = sz := by
  rw [szField, header_toNat ho hs hh]
  omega

theorem zField_header {op sz h : Nat} (ho : op < 32) (hs : sz < 4) (hh : h < 2 ^ 24) :
    zField (header op sz h) = 0 := by
  rw [zField, header_toNat ho hs hh]
  omega

theorem hartField_header {op sz h : Nat} (ho : op < 32) (hs : sz < 4) (hh : h < 2 ^ 24) :
    hartField (header op sz h) = h := by
  rw [hartField, header_toNat ho hs hh]
  omega

theorem hartField_lt (ch : Word32) : hartField ch < 2 ^ 24 := by
  have := ch.isLt
  unfold hartField
  omega

theorem szField_lt (ch : Word32) : szField ch < 4 := Nat.mod_lt _ (by decide)

theorem addrOperand_lt (c : Config) (a : Nat) : addrOperand c a < 2 ^ c.addrW := Nat.mod_lt _ (Nat.two_pow_pos _)

theorem addrOperand_of_lt {c : Config} {a : Nat} (h : a < 2 ^ c.addrW) : addrOperand c a = a := Nat.mod_eq_of_lt h

/-! ## Decoding a header built from its fields -/

/-- Decoding a request whose header is built from fields in range is decoding the fields. -/
theorem decode_header {c : Config} {op sz h a : Nat} (d : DataWord) (ho : op < 32) (hs : sz < 4) (hh : h < 2 ^ 24) :
    decode c ⟨header op sz h, a, d⟩ = decodeFields op sz h (addrOperand c a) d := by
  simp only [decode]
  rw [zField_header ho hs hh, opField_header ho hs hh, szField_header ho hs hh, hartField_header ho hs hh, if_pos rfl]

theorem wf_iff {c : Config} {i : Instr} :
    i.wf c = true ↔ (∀ h, i.hart? = some h → h < 2 ^ 24) ∧ (∀ a, i.addr? = some a → a < 2 ^ c.addrW) := by
  unfold Instr.wf
  cases i.hart? <;> cases i.addr? <;> simp

/-! ## What the decoder answers is well formed -/

theorem unsized_command {sz : Nat} {i j : Instr} (h : unsized sz i = .command j) : sz = 0 ∧ i = j := by
  unfold unsized at h
  split at h
  · cases h
    exact ⟨by assumption, rfl⟩
  · cases h

/-- A decoded command's operands are the fields it was decoded from. -/
theorem decodeFields_operands {op sz h a : Nat} {d : DataWord} {i : Instr} (hd : decodeFields op sz h a d = .command i) :
    (∀ x, i.hart? = some x → x = h) ∧ (∀ x, i.addr? = some x → x = a) := by
  have hu : ∀ {j : Instr}, unsized sz j = .command i → i = j := fun e => (unsized_command e).2.symm
  unfold decodeFields at hd
  split at hd
  case h_2 => split at hd <;> cases hd <;> simp [Instr.hart?, Instr.addr?]
  case h_23 => cases hd
  all_goals first
    | (have e := hu hd; subst e; simp [Instr.hart?, Instr.addr?])
    | (cases hd
       cases widthOfSz sz <;>
       simp [Instr.readOf, Instr.writeOf, Instr.checkWriteOf, Instr.pokeOf, Instr.makeLrOf, Instr.invalidateOtherHartLrOf,
         Instr.invalidateLrsOf, Instr.hart?, Instr.addr?])

theorem decode_wf {c : Config} {r : Request} {i : Instr} (hd : decode c r = .command i) : i.wf c = true := by
  unfold decode at hd
  split at hd
  · obtain ⟨h1, h2⟩ := decodeFields_operands hd
    refine wf_iff.mpr ⟨fun h hh => ?_, fun a ha => ?_⟩
    · rw [h1 h hh]
      exact hartField_lt r.ch
    · rw [h2 a ha]
      exact addrOperand_lt c r.a
  · cases hd

end Sys2Proof
end

