-- ==== Sys2Proof/Laws/PerInstr.lean ====
section
/-! SUPPORT. A statement about each command as syntax: the header its encoding carries (R91, R94). -/

namespace Sys2Proof.Laws.HeaderFields

/-- The encoding of a command the port can carry has `z = 0`, the command's hart id (0 where it has none) and address (0
where it has none) in their fields. -/
def Statement (i : Instr) : Prop :=
  ∀ c, i.wf c = true →
    zField (encode i).ch = 0 ∧ hartField (encode i).ch = i.hart?.getD 0 ∧ (encode i).a = i.addr?.getD 0

theorem fields {op sz h a : Nat} {d : DataWord} (ho : op < 32) (hs : sz < 4) (hh : h < 2 ^ 24) :
    zField (Request.mk (header op sz h) a d).ch = 0 ∧ hartField (Request.mk (header op sz h) a d).ch = h ∧
      (Request.mk (header op sz h) a d).a = a :=
  ⟨zField_header ho hs hh, hartField_header ho hs hh, rfl⟩

theorem hart_lt {c : Config} {i : Instr} {h : Nat} (hw : i.wf c = true) (hi : i.hart? = some h) : h < 2 ^ 24 :=
  (wf_iff.mp hw).1 h hi

theorem readB (a : Nat) : Statement (.readB a) :=
  fun _ _ => fields (by decide) (by decide) (by decide)

theorem readH (a : Nat) : Statement (.readH a) :=
  fun _ _ => fields (by decide) (by decide) (by decide)

theorem readW (a : Nat) : Statement (.readW a) :=
  fun _ _ => fields (by decide) (by decide) (by decide)

theorem readD (a : Nat) : Statement (.readD a) :=
  fun _ _ => fields (by decide) (by decide) (by decide)

theorem readInstHalf (a : Nat) : Statement (.readInstHalf a) :=
  fun _ _ => fields (by decide) (by decide) (by decide)

theorem readInstWord (a : Nat) : Statement (.readInstWord a) :=
  fun _ _ => fields (by decide) (by decide) (by decide)

theorem writeB (h a : Nat) (d : DataWord) : Statement (.writeB h a d) :=
  fun _ hw => fields (by decide) (by decide) (hart_lt hw rfl)

theorem writeH (h a : Nat) (d : DataWord) : Statement (.writeH h a d) :=
  fun _ hw => fields (by decide) (by decide) (hart_lt hw rfl)

theorem writeW (h a : Nat) (d : DataWord) : Statement (.writeW h a d) :=
  fun _ hw => fields (by decide) (by decide) (hart_lt hw rfl)

theorem writeD (h a : Nat) (d : DataWord) : Statement (.writeD h a d) :=
  fun _ hw => fields (by decide) (by decide) (hart_lt hw rfl)

theorem checkWriteB (a : Nat) (d : DataWord) : Statement (.checkWriteB a d) :=
  fun _ _ => fields (by decide) (by decide) (by decide)

theorem checkWriteH (a : Nat) (d : DataWord) : Statement (.checkWriteH a d) :=
  fun _ _ => fields (by decide) (by decide) (by decide)

theorem checkWriteW (a : Nat) (d : DataWord) : Statement (.checkWriteW a d) :=
  fun _ _ => fields (by decide) (by decide) (by decide)

theorem checkWriteD (a : Nat) (d : DataWord) : Statement (.checkWriteD a d) :=
  fun _ _ => fields (by decide) (by decide) (by decide)

theorem pokeB (a : Nat) (d : DataWord) : Statement (.pokeB a d) :=
  fun _ _ => fields (by decide) (by decide) (by decide)

theorem pokeH (a : Nat) (d : DataWord) : Statement (.pokeH a d) :=
  fun _ _ => fields (by decide) (by decide) (by decide)

theorem pokeW (a : Nat) (d : DataWord) : Statement (.pokeW a d) :=
  fun _ _ => fields (by decide) (by decide) (by decide)

theorem pokeD (a : Nat) (d : DataWord) : Statement (.pokeD a d) :=
  fun _ _ => fields (by decide) (by decide) (by decide)

theorem getPma (a : Nat) : Statement (.getPma a) :=
  fun _ _ => fields (by decide) (by decide) (by decide)

theorem makeLrB (h a : Nat) : Statement (.makeLrB h a) :=
  fun _ hw => fields (by decide) (by decide) (hart_lt hw rfl)

theorem makeLrH (h a : Nat) : Statement (.makeLrH h a) :=
  fun _ hw => fields (by decide) (by decide) (hart_lt hw rfl)

theorem makeLrW (h a : Nat) : Statement (.makeLrW h a) :=
  fun _ hw => fields (by decide) (by decide) (hart_lt hw rfl)

theorem makeLrD (h a : Nat) : Statement (.makeLrD h a) :=
  fun _ hw => fields (by decide) (by decide) (hart_lt hw rfl)

theorem hasLr (h a : Nat) : Statement (.hasLr h a) :=
  fun _ hw => fields (by decide) (by decide) (hart_lt hw rfl)

theorem invalidateLr (h : Nat) : Statement (.invalidateLr h) :=
  fun _ hw => fields (by decide) (by decide) (hart_lt hw rfl)

theorem invalidateOtherHartLrB (h a : Nat) : Statement (.invalidateOtherHartLrB h a) :=
  fun _ hw => fields (by decide) (by decide) (hart_lt hw rfl)

theorem invalidateOtherHartLrH (h a : Nat) : Statement (.invalidateOtherHartLrH h a) :=
  fun _ hw => fields (by decide) (by decide) (hart_lt hw rfl)

theorem invalidateOtherHartLrW (h a : Nat) : Statement (.invalidateOtherHartLrW h a) :=
  fun _ hw => fields (by decide) (by decide) (hart_lt hw rfl)

theorem invalidateOtherHartLrD (h a : Nat) : Statement (.invalidateOtherHartLrD h a) :=
  fun _ hw => fields (by decide) (by decide) (hart_lt hw rfl)

theorem invalidateLrsB (a : Nat) : Statement (.invalidateLrsB a) :=
  fun _ _ => fields (by decide) (by decide) (by decide)

theorem invalidateLrsH (a : Nat) : Statement (.invalidateLrsH a) :=
  fun _ _ => fields (by decide) (by decide) (by decide)

theorem invalidateLrsW (a : Nat) : Statement (.invalidateLrsW a) :=
  fun _ _ => fields (by decide) (by decide) (by decide)

theorem invalidateLrsD (a : Nat) : Statement (.invalidateLrsD a) :=
  fun _ _ => fields (by decide) (by decide) (by decide)

theorem lockAcq (h : Nat) : Statement (.lockAcq h) :=
  fun _ hw => fields (by decide) (by decide) (hart_lt hw rfl)

theorem lockRel (h : Nat) : Statement (.lockRel h) :=
  fun _ hw => fields (by decide) (by decide) (hart_lt hw rfl)

theorem getLastWriteNew (h : Nat) : Statement (.getLastWriteNew h) :=
  fun _ hw => fields (by decide) (by decide) (hart_lt hw rfl)

theorem getLastWriteOld (h : Nat) : Statement (.getLastWriteOld h) :=
  fun _ hw => fields (by decide) (by decide) (hart_lt hw rfl)

theorem clearLastWrite (h : Nat) : Statement (.clearLastWrite h) :=
  fun _ hw => fields (by decide) (by decide) (hart_lt hw rfl)

theorem setHartCount (d : DataWord) : Statement (.setHartCount d) :=
  fun _ _ => fields (by decide) (by decide) (by decide)

theorem defineIccm (a : Nat) (d : DataWord) : Statement (.defineIccm a d) :=
  fun _ _ => fields (by decide) (by decide) (by decide)

theorem defineDccm (a : Nat) (d : DataWord) : Statement (.defineDccm a d) :=
  fun _ _ => fields (by decide) (by decide) (by decide)

theorem defineMmrArea (a : Nat) (d : DataWord) : Statement (.defineMmrArea a d) :=
  fun _ _ => fields (by decide) (by decide) (by decide)

theorem defineMmrMask (a : Nat) (d : DataWord) : Statement (.defineMmrMask a d) :=
  fun _ _ => fields (by decide) (by decide) (by decide)

theorem finishConfig (d : DataWord) : Statement (.finishConfig d) :=
  fun _ _ => fields (by decide) (by decide) (by decide)

end Sys2Proof.Laws.HeaderFields
end

