-- ==== Sys2Proof/Laws/Sequences.lean ====
section
/-! SUPPORT. One move of a block and its executors, and the drain of a retired instruction. -/

namespace Sys2Proof.Machine

/-- Every command of a system is answered. -/
theorem runCommand_cases (b : State) (i : Instr) :
    ∃ t r, exec i b = .next t ∧ t.resp = some r ∧ System.runCommand b i = (t, some r) := by
  obtain ⟨t, h⟩ := exec_next i b
  obtain ⟨r, hr⟩ : ∃ r, t.resp = some r := by
    rcases exec_cases h with ⟨k, -, rfl⟩ | ⟨-, rfl⟩ <;> exact ⟨_, rfl⟩
  refine ⟨t, r, h, hr, ?_⟩
  unfold System.runCommand
  rw [h]
  simp only [hr]

theorem runCommand_of_none {b : State} {i : Instr} (h : firstError b i = none) :
    System.runCommand b i = ({ effect b i with resp := some (.ok (result b i)) }, some (.ok (result b i))) := by
  unfold System.runCommand
  rw [exec_of_none h]

theorem runCommand_of_error {b : State} {i : Instr} {k : ErrKind} (h : firstError b i = some k) :
    System.runCommand b i = ({ b with resp := some (.failed k) }, some (.failed k)) := by
  unfold System.runCommand
  rw [exec_of_error h]

/-- A move of an executor that has a command to issue. -/
theorem move_executor {b : State} {es : List Executor} {k : Nat} {e : Executor} {i : Instr} (he : es[k]? = some e)
    (hi : e.command = some i) :
    System.move ⟨b, es⟩ (.executor k) =
      match firstError b i with
      | none => ⟨{ effect b i with resp := some (.ok (result b i)) }, es.set k (e.advance (.ok (result b i)))⟩
      | some x => ⟨{ b with resp := some (.failed x) }, es.set k (e.advance (.failed x))⟩ := by
  simp only [System.move, he, hi]
  cases h : firstError b i with
  | none => rw [runCommand_of_none h]
  | some x => rw [runCommand_of_error h]

/-- A move of the only executor, its command passing. -/
theorem move_ok {b : State} {e : Executor} {i : Instr} (hi : e.command = some i) (hf : firstError b i = none) :
    System.move ⟨b, [e]⟩ (.executor 0) =
      ⟨{ effect b i with resp := some (.ok (result b i)) }, [e.advance (.ok (result b i))]⟩ := by
  rw [move_executor (e := e) rfl hi, hf]
  rfl

/-- A move of the only executor, its command failing. -/
theorem move_failed {b : State} {e : Executor} {i : Instr} {k : ErrKind} (hi : e.command = some i)
    (hf : firstError b i = some k) :
    System.move ⟨b, [e]⟩ (.executor 0) = ⟨{ b with resp := some (.failed k) }, [e.advance (.failed k)]⟩ := by
  rw [move_executor (e := e) rfl hi, hf]
  rfl

/-- The commands that leave the lock alone do. -/
theorem lock_of_leavesLock {i : Instr} {s t : State} (hi : i.leavesLock = true) (h : exec i s = .next t) :
    t.lock = s.lock := by
  rcases exec_cases h with ⟨k, -, rfl⟩ | ⟨-, rfl⟩
  · rfl
  · cases i <;> first | rfl | cases hi

/-! ## The drain (R168) -/

/-- An instruction that made a WRITE retires. -/
theorem retires_of_wrote {op : ExecOp} {r : ExecResult} (h : op.wrote r = true) : r.retires = true := by
  cases op <;> cases r <;> first | rfl | cases h

/-- The drain is outside the bracket of R195. -/
@[simp] theorem retire_inBody (e : Executor) (r : ExecResult) : (e.retire r).inBody = false := by
  unfold Executor.retire
  split <;> rfl

/-- A record waits for its drain exactly if the instruction made a WRITE. -/
@[simp] theorem retire_outcome (e : Executor) (r : ExecResult) : (e.retire r).outcome?.any e.op.wrote = e.op.wrote r := by
  unfold Executor.retire Executor.drainsAfter
  cases hw : e.op.wrote r
  · split
    · exact hw
    · rfl
  · rw [retires_of_wrote hw]
    exact hw

theorem run_append (y : System) (xs zs : List Move) : y.run (xs ++ zs) = (y.run xs).run zs := List.foldl_append

/-- A retired executor that is alone: in three moves its drain, if it makes one, empties its slot, and it is done. -/
theorem run_retire {b : State} {h : Nat} {tr : Tracing} {op : ExecOp} {p : Phase} {r : ExecResult} (hh : h < b.hartCount) :
    ∃ x, System.run ⟨b, [⟨h, tr, op, Executor.retire ⟨h, tr, op, p⟩ r⟩]⟩ (List.replicate 3 (.executor 0)) =
      ⟨{ (if Executor.drainsAfter ⟨h, tr, op, p⟩ r then setLastWrite b h LastWrite.empty else b) with resp := x },
        [⟨h, tr, op, .done r⟩]⟩ := by
  have e : hartError b h = none := hartError_none.mpr hh
  have run3 : ∀ y : System, y.run (List.replicate 3 (.executor 0)) =
    ((y.move (.executor 0)).move (.executor 0)).move (.executor 0) := fun _ => rfl
  rw [run3]
  unfold Executor.retire
  split
  · rw [move_ok (i := .getLastWriteNew h) rfl (by exact e)]
    obtain ⟨old, every⟩ := tr
    cases old
    · rw [move_ok (i := .clearLastWrite h) rfl (by exact e)]
      exact ⟨_, rfl⟩
    · rw [move_ok (i := .getLastWriteOld h) rfl (by exact e), move_ok (i := .clearLastWrite h) rfl (by exact e)]
      exact ⟨_, rfl⟩
  · exact ⟨b.resp, rfl⟩
end Sys2Proof.Machine
end

