-- ==== Sys2Proof/Tests/Slice0.lean ====
section
/-! SUPPORT. The model's own tests: the well-formedness checks refuse, words written out from the encoding tables decode,
single steps give the values of the spec's vectors (95_test_vectors.md), and a witness for every statement that has
hypotheses. -/

namespace Sys2Proof.Tests

open Sys2Proof Sys2Proof.Machine

/-! ## Well-formedness refuses -/

/-- A hart id has 24 bits (R91). -/
theorem test_wf_refuses_wide_hart : Instr.wf Config.default (.lockAcq 0x1000000) = false := by decide

theorem test_wf_takes_widest_hart : Instr.wf Config.default (.lockAcq 0xFFFFFF) = true := by decide

/-- An address has `ADDR_W` bits (R90). -/
theorem test_wf_refuses_wide_address : Instr.wf Config.default (.readB 0x10000000000000000) = false := by decide

theorem test_wf_takes_widest_address : Instr.wf Config.default (.readB 0xFFFFFFFFFFFFFFFF) = true := by decide

theorem test_wf_follows_the_address_width :
    Instr.wf { Config.default with addrW := 32 } (.readB 0x100000000) = false := by decide

/-! ## Words written out from R91 and R94: `{hart, z, sz, op}` -/

def word (hart : BitVec 24) (z : BitVec 1) (sz : BitVec 2) (op : BitVec 5) : Word32 := hart ++ z ++ sz ++ op

def dec (ch : Word32) : Decoded := decode Config.default ⟨ch, 0x208, 0x1122334455667788#64⟩

/-- READ_B, READ_H, READ_W, READ_D: `op` 0x01, the `hart` field ignored (R94, R93). -/
theorem test_decode_read :
    dec (word 0xABCDEF#24 0b0#1 0b00#2 0b00001#5) = .command (.readB 0x208) ∧
    dec (word 0xABCDEF#24 0b0#1 0b01#2 0b00001#5) = .command (.readH 0x208) ∧
    dec (word 0xABCDEF#24 0b0#1 0b10#2 0b00001#5) = .command (.readW 0x208) ∧
    dec (word 0xABCDEF#24 0b0#1 0b11#2 0b00001#5) = .command (.readD 0x208) := by decide

/-- READ_INST_HALF, READ_INST_WORD: `op` 0x02, `sz` 1 and 2 (R94, R92). -/
theorem test_decode_fetch :
    dec (word 0#24 0b0#1 0b01#2 0b00010#5) = .command (.readInstHalf 0x208) ∧
    dec (word 0#24 0b0#1 0b10#2 0b00010#5) = .command (.readInstWord 0x208) := by decide

/-- WRITE_B, WRITE_H, WRITE_W, WRITE_D: `op` 0x03 (R94). -/
theorem test_decode_write :
    dec (word 0x800001#24 0b0#1 0b00#2 0b00011#5) = .command (.writeB 0x800001 0x208 0x1122334455667788#64) ∧
    dec (word 0x800001#24 0b0#1 0b01#2 0b00011#5) = .command (.writeH 0x800001 0x208 0x1122334455667788#64) ∧
    dec (word 0x800001#24 0b0#1 0b10#2 0b00011#5) = .command (.writeW 0x800001 0x208 0x1122334455667788#64) ∧
    dec (word 0x800001#24 0b0#1 0b11#2 0b00011#5) = .command (.writeD 0x800001 0x208 0x1122334455667788#64) := by decide

/-- CHECK_WRITE_B, CHECK_WRITE_H, CHECK_WRITE_W, CHECK_WRITE_D: `op` 0x04 (R94). -/
theorem test_decode_check_write :
    dec (word 0#24 0b0#1 0b00#2 0b00100#5) = .command (.checkWriteB 0x208 0x1122334455667788#64) ∧
    dec (word 0#24 0b0#1 0b01#2 0b00100#5) = .command (.checkWriteH 0x208 0x1122334455667788#64) ∧
    dec (word 0#24 0b0#1 0b10#2 0b00100#5) = .command (.checkWriteW 0x208 0x1122334455667788#64) ∧
    dec (word 0#24 0b0#1 0b11#2 0b00100#5) = .command (.checkWriteD 0x208 0x1122334455667788#64) := by decide

/-- POKE_B, POKE_H, POKE_W, POKE_D: `op` 0x05, the `hart` field ignored (R94, R93). -/
theorem test_decode_poke :
    dec (word 9#24 0b0#1 0b00#2 0b00101#5) = .command (.pokeB 0x208 0x1122334455667788#64) ∧
    dec (word 9#24 0b0#1 0b01#2 0b00101#5) = .command (.pokeH 0x208 0x1122334455667788#64) ∧
    dec (word 9#24 0b0#1 0b10#2 0b00101#5) = .command (.pokeW 0x208 0x1122334455667788#64) ∧
    dec (word 9#24 0b0#1 0b11#2 0b00101#5) = .command (.pokeD 0x208 0x1122334455667788#64) := by decide

/-- MAKE_LR_B, MAKE_LR_H, MAKE_LR_W, MAKE_LR_D: `op` 0x08 (R94). -/
theorem test_decode_make_lr :
    dec (word 0x800001#24 0b0#1 0b00#2 0b01000#5) = .command (.makeLrB 0x800001 0x208) ∧
    dec (word 0x800001#24 0b0#1 0b01#2 0b01000#5) = .command (.makeLrH 0x800001 0x208) ∧
    dec (word 0x800001#24 0b0#1 0b10#2 0b01000#5) = .command (.makeLrW 0x800001 0x208) ∧
    dec (word 0x800001#24 0b0#1 0b11#2 0b01000#5) = .command (.makeLrD 0x800001 0x208) := by decide

/-- INVALIDATE_OTHER_HART_LR_B/H/W/D: `op` 0x0B (R94). -/
theorem test_decode_invalidate_other :
    dec (word 0x800001#24 0b0#1 0b00#2 0b01011#5) = .command (.invalidateOtherHartLrB 0x800001 0x208) ∧
    dec (word 0x800001#24 0b0#1 0b01#2 0b01011#5) = .command (.invalidateOtherHartLrH 0x800001 0x208) ∧
    dec (word 0x800001#24 0b0#1 0b10#2 0b01011#5) = .command (.invalidateOtherHartLrW 0x800001 0x208) ∧
    dec (word 0x800001#24 0b0#1 0b11#2 0b01011#5) = .command (.invalidateOtherHartLrD 0x800001 0x208) := by decide

/-- INVALIDATE_LRS_B/H/W/D: `op` 0x0C, the `hart` field ignored (R94, R93). -/
theorem test_decode_invalidate_lrs :
    dec (word 7#24 0b0#1 0b00#2 0b01100#5) = .command (.invalidateLrsB 0x208) ∧
    dec (word 7#24 0b0#1 0b01#2 0b01100#5) = .command (.invalidateLrsH 0x208) ∧
    dec (word 7#24 0b0#1 0b10#2 0b01100#5) = .command (.invalidateLrsW 0x208) ∧
    dec (word 7#24 0b0#1 0b11#2 0b01100#5) = .command (.invalidateLrsD 0x208) := by decide

/-- GET_PMA 0x06, HAS_LR 0x09, INVALIDATE_LR 0x0A, LOCK_ACQ 0x0D, LOCK_REL 0x0E (R94). -/
theorem test_decode_pma_and_reservation :
    dec (word 0#24 0b0#1 0b00#2 0b00110#5) = .command (.getPma 0x208) ∧
    dec (word 3#24 0b0#1 0b00#2 0b01001#5) = .command (.hasLr 3 0x208) ∧
    dec (word 3#24 0b0#1 0b00#2 0b01010#5) = .command (.invalidateLr 3) ∧
    dec (word 3#24 0b0#1 0b00#2 0b01101#5) = .command (.lockAcq 3) ∧
    dec (word 3#24 0b0#1 0b00#2 0b01110#5) = .command (.lockRel 3) := by decide

/-- The last-write commands 0x10 to 0x12, the configuration commands 0x18 to 0x1C and 0x1E (R94). -/
theorem test_decode_last_write_and_config :
    dec (word 3#24 0b0#1 0b00#2 0b10000#5) = .command (.getLastWriteNew 3) ∧
    dec (word 3#24 0b0#1 0b00#2 0b10001#5) = .command (.getLastWriteOld 3) ∧
    dec (word 3#24 0b0#1 0b00#2 0b10010#5) = .command (.clearLastWrite 3) ∧
    dec (word 0#24 0b0#1 0b00#2 0b11000#5) = .command (.setHartCount 0x1122334455667788#64) ∧
    dec (word 0#24 0b0#1 0b00#2 0b11001#5) = .command (.defineIccm 0x208 0x1122334455667788#64) ∧
    dec (word 0#24 0b0#1 0b00#2 0b11010#5) = .command (.defineDccm 0x208 0x1122334455667788#64) ∧
    dec (word 0#24 0b0#1 0b00#2 0b11011#5) = .command (.defineMmrArea 0x208 0x1122334455667788#64) ∧
    dec (word 0#24 0b0#1 0b00#2 0b11100#5) = .command (.defineMmrMask 0x208 0x1122334455667788#64) ∧
    dec (word 0#24 0b0#1 0b00#2 0b11110#5) = .command (.finishConfig 0x1122334455667788#64) := by decide

/-- Reserved headers (R95; V-DEC1, V-DEC11, V-DEC12, V-DEC14). -/
theorem test_decode_reserved :
    dec (word 0#24 0b0#1 0b00#2 0b00000#5) = .reserved .reservedOpcode ∧
    dec (word 0#24 0b1#1 0b10#2 0b00001#5) = .reserved .reservedBit ∧
    dec (word 0#24 0b0#1 0b00#2 0b00010#5) = .reserved .reservedSize ∧
    dec (word 0#24 0b0#1 0b01#2 0b00110#5) = .reserved .reservedSize := by decide

/-- The table's bit numbering: WRITE_W is `0x43` in bits 7:0; with all other bits 0 it is hart 0, address 0, data 0. -/
theorem test_table_word : decodeTableWord 32 0x43 = some (.writeW 0 0 0) ∧ decodeTableWord 32 0x07 = none := by decide

/-- A presented request is the next one taken: the step is the command's meaning. -/
theorem test_with_fetch_word_runs_next :
    step (State.reset.withFetchWord 32 0x43) = exec (.writeW 0 0 0) State.reset := by rfl

/-! ## One command on a small block -/

/-- The state after a command. -/
def after (i : Instr) (s : State) : State := (System.runCommand s i).1

theorem exec_after (i : Instr) (s : State) : exec i s = .next (after i s) := by
  obtain ⟨t, r, h, -, e⟩ := runCommand_cases s i
  rw [after, e, h]

/-- The block of configuration CFG1 (95_test_vectors.md): MMR page 1 with masks, ICCM pages 16 and 17, DCCM page 32, two
harts, sealed. -/
def cfg1 : State :=
  { State.reset with
    pma := [(1, Pma.mmrPage), (16, Pma.iccmPage), (17, Pma.iccmPage), (32, Pma.dccmPage)]
    mask := [(0x1000, 0xFFFF#32), (0x1004, 0#32)]
    hartCount := 2
    isSealed := true }

/-- CFG1 with both harts holding `[0x200, 0x204)`. -/
def cfg1Reserved : State := { cfg1 with res := [(0, ⟨0x200, .w, true⟩), (1, ⟨0x200, .w, true⟩)] }

/-- CFG1 with hart 1 holding the word at `a`. -/
def cfg1Held (a : Nat) : State := { cfg1 with res := [(1, ⟨a, .w, true⟩)] }

/-- CFG1 with the bytes `EF BE AD DE` at `0x200`. -/
def cfg1Loaded : State := { cfg1 with mem := [(0x200, 0xEF), (0x201, 0xBE), (0x202, 0xAD), (0x203, 0xDE)] }

/-- S1: `write_word(0, 0x0, 0xDEADBEEF)` leaves `EF BE AD DE` and the record. -/
theorem test_s1_write :
    (after (.writeW 0 0x0 0xDEADBEEF#64) State.reset).mem = [(0, 0xEF), (1, 0xBE), (2, 0xAD), (3, 0xDE)] ∧
    lastWrite (after (.writeW 0 0x0 0xDEADBEEF#64) State.reset) 0 = ⟨some .w, 0, 0xDEADBEEF#64, 0#64⟩ := by decide

/-- R141, R142, R144: narrow and misaligned reads of one word. -/
theorem test_reads :
    (after (.readB 0x203) cfg1Loaded).resp = some (.ok ⟨0xDE, 0, 0⟩) ∧
    (after (.readH 0x201) cfg1Loaded).resp = some (.ok ⟨0xADBE, 0, 0⟩) ∧
    (after (.readD 0x200) cfg1Loaded).resp = some (.ok ⟨0xDEADBEEF, 0, 0⟩) := by decide

/-- S2: an MMR word is stored masked. -/
theorem test_s2_mask :
    (after (.writeW 0 0x1000 0xAAAABBBB#64) cfg1).mem = [(0x1000, 0xBB), (0x1001, 0xBB)] := by decide

/-- S3: a byte write to an MMR page fails. -/
theorem test_s3_byte_to_mmr :
    after (.writeB 0 0x1000 0x11#64) cfg1 = { cfg1 with resp := some (.failed .badMmrAccess) } := by decide

/-- S4: a poke into an unwritable ICCM page succeeds; the write does not (V-WR9). -/
theorem test_s4_iccm :
    (after (.pokeW 0x10000 0x13#64) cfg1).mem = [(0x10000, 0x13)] ∧
    (after (.writeW 0 0x10000 0x13#64) cfg1).resp = some (.failed .permissionDenied) := by decide

/-- R146, R147: a fetch from the ICCM succeeds, one across its edge fails though both pages have `exec` (V-FE5, C4). -/
theorem test_fetch :
    (after (.readInstWord 0x10000) cfg1).resp = some (.ok ⟨0, 0, 0⟩) ∧
    (after (.readInstWord 0xFFFE) cfg1).resp = some (.failed .straddle) ∧
    (after (.readInstHalf 0x20000) cfg1).resp = some (.failed .permissionDenied) := by decide

/-- S5, S6: a write clears the other hart's reservation and keeps the writer's own. -/
theorem test_s5_s6_write_and_reservations :
    reservation (after (.writeW 1 0x200 0x1#64) cfg1Reserved) 0 = ⟨0x200, .w, false⟩ ∧
    reservation (after (.writeW 1 0x200 0x1#64) cfg1Reserved) 1 = ⟨0x200, .w, true⟩ := by decide

/-- R173, R180, R185: the bytes next to a reservation set do not break it, its last byte does. -/
theorem test_edges_of_the_reservation_set :
    (reservation (after (.writeB 0 0x204 0#64) cfg1Reserved) 1).valid = true ∧
    (reservation (after (.writeB 0 0x203 0#64) cfg1Reserved) 1).valid = false ∧
    (reservation (after (.invalidateLrsB 0x1FF) cfg1Reserved) 1).valid = true ∧
    (reservation (after (.invalidateOtherHartLrH 0 0x1FF) cfg1Reserved) 1).valid = false := by decide

/-- R177: the match is on the start address only. -/
theorem test_has_lr :
    (after (.hasLr 0 0x200) cfg1Reserved).resp = some (.ok ⟨1, 0, 0⟩) ∧
    (after (.hasLr 0 0x202) cfg1Reserved).resp = some (.ok ⟨0, 0, 0⟩) := by decide

/-- V-OV13, V-OV15, V-OV18, V-OV20 (R170). -/
theorem test_overlap :
    overlap 0x200 4 ⟨0x201, .b, true⟩ = true ∧ overlap 0x200 4 ⟨0x204, .b, true⟩ = false ∧
    overlap 0xFFFFFFFFFFFFFFFF 1 ⟨0xFFFFFFFFFFFFFFFC, .w, true⟩ = true ∧
    overlap 0xFFFFFFFFFFFFFFFE 4 ⟨0, .w, true⟩ = false := by decide

/-- V-INV2: the old value of a misaligned half-word write. -/
theorem test_last_write_old :
    (after (.getLastWriteOld 1) (after (.writeH 1 0x201 0xABCD#64) cfg1Loaded)).resp =
      some (.ok ⟨0xADBE, 0x201, 2⟩) := by decide

/-- R189, R190: not recursive; only the owner releases. -/
theorem test_lock :
    (after (.lockAcq 0) { cfg1 with lock := ⟨true, 0⟩ }).resp = some (.failed .busy) ∧
    (after (.lockRel 1) { cfg1 with lock := ⟨true, 0⟩ }).resp = some (.failed .badCommand) ∧
    (after (.lockRel 0) { cfg1 with lock := ⟨true, 0⟩ }).lock = ⟨false, 0⟩ := by decide

/-- V-CFG12, V-CFG14, V-CFG21, V-CFG24: areas, an overlap refused whole, a mask's low half, the seal. -/
theorem test_configuration :
    (pmaOf (after (.defineIccm 0x10000 0x2000#64) State.reset) 0x11FFF).bits = 0x15#6 ∧
    (after (.defineDccm 0xF000 0x2000#64) { cfg1 with isSealed := false }).resp = some (.failed .configError) ∧
    maskOf (after (.defineMmrMask 0x1000 0xFFFFFFFF0000FF00#64) { cfg1 with isSealed := false }) 0x1000 = 0xFF00#32 ∧
    (pmaOf (after (.finishConfig 1#64) { cfg1 with isSealed := false }) 0x10000).bits = 0x17#6 := by decide

/-- R199: signed and unsigned minimum on words. -/
theorem test_amo_min :
    amoValue .min .w 0x80000000#64 1#64 = 0x80000000#64 ∧ amoValue .minu .w 0x80000000#64 1#64 = 1#64 := by decide

/-- R215: MMR misuse may be an illegal instruction, another failed load is a load access fault. -/
theorem test_allowed_exceptions :
    allowedExceptions .load .badMmrAccess = [.loadAccessFault, .illegalInstruction] ∧
    allowedExceptions .load .unmapped = [.loadAccessFault] := by decide

/-! ## Witnesses: for every statement that has hypotheses, states and operands that meet them, clause by clause -/

theorem cfg1_canonical : Canonical cfg1 :=
  ⟨by decide, by decide, by decide, by decide, by decide⟩

theorem reserved_canonical : Canonical cfg1Reserved :=
  ⟨by decide, by decide, by decide, by decide, by decide⟩

theorem loaded_canonical : Canonical cfg1Loaded :=
  ⟨by decide, by decide, by decide, by decide, by decide⟩

theorem cfg1_valid : ValidConfig cfg1 := by
  intro p
  rcases tableGet_mem_or Pma.plain cfg1.pma p with e | e
  · rw [pmaPage, e]
    simp [Pma.valid, Pma.plain]
  · rw [pmaPage]
    revert e
    generalize tableGet Pma.plain cfg1.pma p = q
    intro e
    simp [cfg1] at e
    rcases e with ⟨-, rfl⟩ | ⟨-, rfl⟩ | ⟨-, rfl⟩ | ⟨-, rfl⟩ <;>
      simp [Pma.valid, Pma.mmrPage, Pma.iccmPage, Pma.dccmPage]

theorem cfg1_inv : Inv cfg1 where
  cfg := by decide
  memWf := by decide
  memIn := by decide
  pmaWf := by decide
  pmaIn := by unfold Pma.reachable; decide
  pmaValid := cfg1_valid
  maskWf := by decide
  maskIn := by decide
  lwWf := by decide
  lwIn := fun _ h => by cases h
  resWf := by decide
  resIn := by decide
  harts := by decide
  lockOk := by decide

/-- CFG1 with requests waiting: WRITE_W by hart 1 (`CH = 0x143`), then a reserved header. -/
def cfg1Waiting : State := { cfg1 with port := [⟨0x143#32, 0x200, 1#64⟩, ⟨0x80#32, 0, 0#64⟩] }

/-- A page that other configuration could leave writable and not readable, and one unmapped (U20). -/
def oddPages : State := { cfg1 with pma := [(2, ⟨false, true, false, false, false, false⟩), (3, Pma.unmapped)] }

theorem succeeded_of {t : State} {ans : Answer} (h : t.resp = some (.ok ans)) : Succeeded t := ⟨ans, h⟩

theorem gated_cfg1 : Gated cfg1 .write .w 0x200 ∧ Gated cfg1 .read .w 0x200 ∧ Gated cfg1 .write .d 0xFFFF8 ∧
    Gated cfg1 .read .d 0xFFFF8 ∧ Gated cfg1 .write .w 0x1000 ∧ Gated cfg1 .read .w 0x1000 ∧
    Gated cfg1 .write .h 0x2FFF ∧ Gated cfg1 .mapped .w 0x10000 ∧ Gated cfg1 .exec .w 0x10FFE ∧
    Gated cfg1 .exec .h 0xFFFFE := by
  refine ⟨⟨?_, ?_, ?_⟩, ⟨?_, ?_, ?_⟩, ⟨?_, ?_, ?_⟩, ⟨?_, ?_, ?_⟩, ⟨?_, ?_, ?_⟩, ⟨?_, ?_, ?_⟩, ⟨?_, ?_, ?_⟩, ⟨?_, ?_, ?_⟩,
    ⟨?_, ?_, ?_⟩, ⟨?_, ?_, ?_⟩⟩ <;> decide

theorem mmr_cfg1 : MmrRespected cfg1 .w 0x200 ∧ MmrRespected cfg1 .d 0xFFFF8 ∧ MmrRespected cfg1 .w 0x1000 ∧
    MmrRespected cfg1 .h 0x2FFF ∧ MmrRespected cfg1 .w 0x10000 := by
  unfold MmrRespected
  decide

theorem witness_DecodeOfEncodeIsTheCommand :
    Instr.wf Config.default (.writeD 0xFFFFFF 0xFFFFFFFFFFFFFFFF 0#64) = true := by decide

theorem witness_DecodedCommandCarriesTheFields :
    decode Config.default ⟨0x143#32, 0x200, 1#64⟩ = .command (.writeW 1 0x200 1#64) := by decide

theorem witness_HartFieldIgnoredWhereUnused :
    decode Config.default ⟨0x41#32, 0x200, 0#64⟩ = .command (.readW 0x200) ∧ (Instr.readW 0x200).hart? = none ∧
    (0xFFFFFF41#32).toNat % 256 = (0x41#32).toNat % 256 := by decide

theorem witness_UnusedDataBitsIgnored :
    (0x1FF#64).toNat % 2 ^ (8 * Width.bytes .b) = (0xFF#64).toNat % 2 ^ (8 * Width.bytes .b) ∧
    (0x100000001#64).toNat % 2 ^ (8 * Width.bytes .w) = (0x1#64).toNat % 2 ^ (8 * Width.bytes .w) ∧
    (0x100000001#64).setWidth 32 = (0x1#64).setWidth 32 ∧ (0x3#64).getLsbD 0 = (0x1#64).getLsbD 0 := by decide

theorem witness_StepRunsTheDecodedCommand :
    validConfig cfg1Waiting.cfg = true ∧ cfg1Waiting.port = ⟨0x143#32, 0x200, 1#64⟩ :: [⟨0x80#32, 0, 0#64⟩] ∧
    decode cfg1Waiting.cfg ⟨0x143#32, 0x200, 1#64⟩ = .command (.writeW 1 0x200 1#64) := by decide

theorem witness_ReservedHeaderAnswersBadCommand :
    validConfig cfg1.cfg = true ∧ ({ cfg1 with port := [⟨0x80#32, 0, 0#64⟩] } : State).port = [⟨0x80#32, 0, 0#64⟩] ∧
    (0x80#32).toNat % 256 ∉ tableLowBytes ∧ (0xFF#32).toNat % 256 ∉ tableLowBytes := by decide

/-- `PAGE_SIZE = 8` is the smallest a block has (R230). -/
theorem witness_StepWithNothingToRun :
    (validConfig { cfg1.cfg with pageShift := 3 } = true ∧ cfg1.port = []) ∧
    validConfig { cfg1.cfg with pageShift := 2 } = false ∧
    validConfig { cfg1.cfg with regionShift := 11 } = false := by decide

theorem witness_InvariantAtConstruction :
    validConfig { Config.default with sizeBytes := 0x1802 } = true ∧ Memory.wf [(0x17FF, 1#8)] ∧
    ∀ kv ∈ ([(0x17FF, 1#8)] : Memory), kv.1 < spaceSize { Config.default with sizeBytes := 0x1802 } := by decide

theorem witness_StepKeepsTheInvariant : ∃ t, Inv cfg1Waiting ∧ step cfg1Waiting = .next t :=
  ⟨_, { cfg1_inv with }, rfl⟩

theorem witness_CommandsKeepValidConfig :
    TableWf Pma.plain cfg1.pma ∧ ValidConfig cfg1 ∧
      exec (.finishConfig 1#64) cfg1 = .next (after (.finishConfig 1#64) cfg1) :=
  ⟨by decide, cfg1_valid, exec_after _ _⟩

theorem witness_FailedCommandChangesNothing :
    exec (.readW 0xFFFFD) cfg1 = .next (after (.readW 0xFFFFD) cfg1) ∧
    (after (.readW 0xFFFFD) cfg1).resp = some (.failed .outOfBounds) := ⟨exec_after _ _, by decide⟩

theorem witness_FailureKindsOfEachCommand :
    exec (.lockRel 1) cfg1 = .next (after (.lockRel 1) cfg1) ∧
    (after (.lockRel 1) cfg1).resp = some (.failed .badCommand) := ⟨exec_after _ _, by decide⟩

theorem witness_ReadOnlyCommandsChangeNothing :
    (Instr.readW 0x1000).readOnly = true ∧ exec (.readW 0x1000) cfg1 = .next (after (.readW 0x1000) cfg1) :=
  ⟨rfl, exec_after _ _⟩

theorem witness_MemoryChangesOnlyByStores :
    Canonical cfg1 ∧ exec (.writeW 0 0x200 1#64) cfg1 = .next (after (.writeW 0 0x200 1#64) cfg1) ∧
    (after (.writeW 0 0x200 1#64) cfg1).mem.byte 0x200 ≠ cfg1.mem.byte 0x200 :=
  ⟨cfg1_canonical, exec_after _ _, by decide⟩

theorem witness_ConfigurationChangesOnlyByConfiguring :
    (Instr.pokeB 0x200 1#64).configures = false ∧ exec (.pokeB 0x200 1#64) cfg1 = .next (after (.pokeB 0x200 1#64) cfg1) :=
  ⟨rfl, exec_after _ _⟩

theorem witness_SealIsPermanent :
    cfg1Waiting.isSealed = true ∧ (Instr.finishConfig 0#64).configures = true ∧ ∃ t, step cfg1Waiting = .next t :=
  ⟨rfl, rfl, _, rfl⟩

theorem witness_OtherHartsOnlyLoseReservations :
    Canonical cfg1Reserved ∧ (Instr.writeW 1 0x200 1#64).hart? ≠ some 0 ∧ (Instr.pokeB 0x203 0#64).hart? ≠ some 0 ∧
    (∀ d, Instr.writeW 1 0x200 1#64 ≠ .setHartCount d) ∧ (∀ d, Instr.pokeB 0x203 0#64 ≠ .setHartCount d) ∧
    exec (.writeW 1 0x200 1#64) cfg1Reserved = .next (after (.writeW 1 0x200 1#64) cfg1Reserved) ∧
    exec (.pokeB 0x203 0#64) cfg1Reserved = .next (after (.pokeB 0x203 0#64) cfg1Reserved) :=
  ⟨reserved_canonical, by decide, by decide, fun _ => by simp, fun _ => by simp, exec_after _ _, exec_after _ _⟩

theorem witness_HartIdOutOfRangeRefused :
    (Instr.writeW 2 0x200 1#64).hart? = some 2 ∧ cfg1.hartCount ≤ 2 := by decide

theorem witness_LastWriteSlotWriters :
    Canonical cfg1 ∧ exec (.writeW 1 0x200 1#64) cfg1 = .next (after (.writeW 1 0x200 1#64) cfg1) ∧
    lastWrite (after (.writeW 1 0x200 1#64) cfg1) 1 ≠ lastWrite cfg1 1 :=
  ⟨cfg1_canonical, exec_after _ _, by decide⟩

theorem witness_LockChangesOnlyByItsCommands :
    (exec (.lockAcq 1) cfg1 = .next (after (.lockAcq 1) cfg1) ∧ (after (.lockAcq 1) cfg1).lock ≠ cfg1.lock) ∧
    (after (.lockRel 1) { cfg1 with lock := ⟨true, 1⟩ }).lock ≠ ⟨true, 1⟩ ∧
    (after (.setHartCount 2#64) { State.reset with lock := ⟨true, 0⟩ }).lock ≠ ⟨true, 0⟩ :=
  ⟨⟨exec_after _ _, by decide⟩, by decide, by decide⟩

/-- The last bytes of the space (`N = 0x100000`). -/
theorem witness_LittleEndianAccesses :
    Memory.wf cfg1Loaded.mem ∧ 7 < Width.bytes .d ∧ Canonical cfg1 ∧
    (exec (.readD 0xFFFF8) cfg1 = .next (after (.readD 0xFFFF8) cfg1) ∧ Succeeded (after (.readD 0xFFFF8) cfg1)) ∧
    (exec (.writeB 1 0xFFFFF 1#64) cfg1 = .next (after (.writeB 1 0xFFFFF 1#64) cfg1) ∧
      Succeeded (after (.writeB 1 0xFFFFF 1#64) cfg1)) ∧
    (exec (.pokeH 0xFFFFE 1#64) cfg1 = .next (after (.pokeH 0xFFFFE 1#64) cfg1) ∧
      Succeeded (after (.pokeH 0xFFFFE 1#64) cfg1)) ∧
    Succeeded (after (.readInstHalf 0xFFFFE) cfg1) ∧ Succeeded (after (.readInstWord 0xFFFFC) cfg1) :=
  ⟨by decide, by decide, cfg1_canonical, ⟨exec_after _ _, _, rfl⟩, ⟨exec_after _ _, _, rfl⟩, ⟨exec_after _ _, _, rfl⟩,
    ⟨_, rfl⟩, _, rfl⟩

theorem witness_LookupsAreTotal :
    0xFFFFF < spaceSize cfg1.cfg ∧ spaceSize cfg1.cfg ≤ 0x100000 ∧
    ((0x1004, 0#32) ∈ cfg1.mask ∧ TableRising cfg1.mask) ∧ ∀ kv ∈ cfg1.mask, kv.1 ≠ 0x1008 := by decide

theorem witness_SweepsClearExactlyTheOverlapping :
    Canonical cfg1Reserved ∧
    (exec (.writeB 0 0x203 1#64) cfg1Reserved = .next (after (.writeB 0 0x203 1#64) cfg1Reserved) ∧
      Succeeded (after (.writeB 0 0x203 1#64) cfg1Reserved)) ∧
    (exec (.invalidateOtherHartLrB 0 0x204) cfg1Reserved = .next (after (.invalidateOtherHartLrB 0 0x204) cfg1Reserved) ∧
      Succeeded (after (.invalidateOtherHartLrB 0 0x204) cfg1Reserved)) ∧
    (exec (.pokeB 0x200 1#64) cfg1Reserved = .next (after (.pokeB 0x200 1#64) cfg1Reserved) ∧
      Succeeded (after (.pokeB 0x200 1#64) cfg1Reserved)) ∧
    (exec (.invalidateLrsB 0x1FF) cfg1Reserved = .next (after (.invalidateLrsB 0x1FF) cfg1Reserved) ∧
      Succeeded (after (.invalidateLrsB 0x1FF) cfg1Reserved)) :=
  ⟨reserved_canonical, ⟨exec_after _ _, _, rfl⟩, ⟨exec_after _ _, _, rfl⟩, ⟨exec_after _ _, _, rfl⟩, exec_after _ _, _, rfl⟩

/-- Each test of a WRITE and of a POKE at the first address that fails it. -/
theorem witness_WriteAndPokeFailWithTheFirstFailingTest :
    1 < cfg1.hartCount ∧
    0xFFFFD + Width.bytes .w > spaceSize cfg1.cfg ∧
    (0x10000 + Width.bytes .w ≤ spaceSize cfg1.cfg ∧ Need.holds .write (pmaOf cfg1 0x10000) = false) ∧
    (0x3000 + Width.bytes .w ≤ spaceSize oddPages.cfg ∧ Need.holds .mapped (pmaOf oddPages 0x3000) = false) ∧
    (0xFFD + Width.bytes .w ≤ spaceSize cfg1.cfg ∧ Need.holds .write (pmaOf cfg1 0xFFD) = true ∧
      0xFFD % Width.bytes .w ≠ 0 ∧ pmaOf cfg1 0xFFD ≠ pmaOf cfg1 (0xFFD + Width.bytes .w - 1)) ∧
    (Gated cfg1 .write .w 0x1001 ∧ ¬MmrRespected cfg1 .w 0x1001) ∧ (Gated cfg1 .mapped .b 0x1000 ∧ ¬MmrRespected cfg1 .b 0x1000) := by
  refine ⟨by decide, by decide, by decide, by decide, by decide, ⟨⟨by decide, by decide, by decide⟩, ?_⟩,
    ⟨by decide, by decide, by decide⟩, ?_⟩ <;> (unfold MmrRespected; decide)

theorem witness_ReadCompletes :
    (Gated cfg1 .read .d 0xFFFF8 ∧ MmrRespected cfg1 .d 0xFFFF8) ∧ (Gated cfg1 .read .w 0x1000 ∧ MmrRespected cfg1 .w 0x1000) ∧
    0xFFFF9 + Width.bytes .d > spaceSize cfg1.cfg ∧
    (0x2000 + Width.bytes .w ≤ spaceSize oddPages.cfg ∧ Need.holds .read (pmaOf oddPages 0x2000) = false ∧
      (pmaOf oddPages 0x2000).mapped = true) ∧
    (0x3000 + Width.bytes .w ≤ spaceSize oddPages.cfg ∧ Need.holds .read (pmaOf oddPages 0x3000) = false ∧
      (pmaOf oddPages 0x3000).mapped = false) ∧
    (0xFFF + Width.bytes .h ≤ spaceSize cfg1.cfg ∧ Need.holds .read (pmaOf cfg1 0xFFF) = true ∧
      0xFFF % Width.bytes .h ≠ 0 ∧ pmaOf cfg1 0xFFF ≠ pmaOf cfg1 (0xFFF + Width.bytes .h - 1)) ∧
    (Gated cfg1 .read .w 0x1002 ∧ ¬MmrRespected cfg1 .w 0x1002) := by
  refine ⟨⟨gated_cfg1.2.2.2.1, mmr_cfg1.2.1⟩, ⟨gated_cfg1.2.2.2.2.2.1, mmr_cfg1.2.2.1⟩, by decide, by decide, by decide,
    by decide, ⟨by decide, by decide, by decide⟩, ?_⟩
  unfold MmrRespected
  decide

theorem witness_FetchCompletes :
    Gated cfg1 .exec .h 0xFFFFE ∧ Gated cfg1 .exec .w 0x10FFE ∧ 0xFFFFF + Width.bytes .h > spaceSize cfg1.cfg ∧
    (0x20000 + Width.bytes .w ≤ spaceSize cfg1.cfg ∧ Need.holds .exec (pmaOf cfg1 0x20000) = false) ∧
    (0xFFFF + Width.bytes .h ≤ spaceSize cfg1.cfg ∧ Need.holds .exec (pmaOf cfg1 0xFFFF) = true ∧
      0xFFFF % Width.bytes .h ≠ 0 ∧ pmaOf cfg1 0xFFFF ≠ pmaOf cfg1 (0xFFFF + Width.bytes .h - 1)) :=
  ⟨gated_cfg1.2.2.2.2.2.2.2.2.2, gated_cfg1.2.2.2.2.2.2.2.2.1, by decide, by decide, by decide⟩

theorem witness_FetchedBytesAreExecutable :
    validConfig cfg1.cfg = true ∧ Succeeded (after (.readInstWord 0x10FFE) cfg1) ∧
    exec (.readInstWord 0x10FFE) cfg1 = .next (after (.readInstWord 0x10FFE) cfg1) ∧
    0x10FFE ≤ 0x11001 ∧ 0x11001 < 0x10FFE + Width.bytes .w :=
  ⟨by decide, ⟨_, rfl⟩, exec_after _ _, by decide, by decide⟩

/-- One misaligned read that passes and one that does not. -/
theorem witness_MisalignedReadRejectedIffAttributesDiffer :
    (validConfig cfg1.cfg = true ∧ 0x2FFF + Width.bytes .h ≤ spaceSize cfg1.cfg ∧ (pmaOf cfg1 0x2FFF).read = true ∧
      (pmaOf cfg1 0x2FFF).mmr = false ∧ exec (.readH 0x2FFF) cfg1 = .next (after (.readH 0x2FFF) cfg1) ∧
      Succeeded (after (.readH 0x2FFF) cfg1)) ∧
    ((pmaOf cfg1 0xFFF).read = true ∧ (pmaOf cfg1 0xFFF).mmr = false ∧
      exec (.readH 0xFFF) cfg1 = .next (after (.readH 0xFFF) cfg1) ∧
      (after (.readH 0xFFF) cfg1).resp = some (.failed .straddle)) :=
  ⟨⟨by decide, by decide, by decide, by decide, exec_after _ _, _, rfl⟩, by decide, by decide, exec_after _ _, by decide⟩

/-- A plain word, the last double word of the space, a misaligned half word, an MMR word. -/
theorem witness_WriteCompletes :
    Canonical cfg1 ∧ 1 < cfg1.hartCount ∧ (Gated cfg1 .write .w 0x200 ∧ MmrRespected cfg1 .w 0x200) ∧
    (Gated cfg1 .write .d 0xFFFF8 ∧ MmrRespected cfg1 .d 0xFFFF8) ∧ (Gated cfg1 .write .h 0x2FFF ∧ MmrRespected cfg1 .h 0x2FFF) ∧
    (Gated cfg1 .write .w 0x1000 ∧ MmrRespected cfg1 .w 0x1000) :=
  ⟨cfg1_canonical, by decide, ⟨gated_cfg1.1, mmr_cfg1.1⟩, ⟨gated_cfg1.2.2.1, mmr_cfg1.2.1⟩,
    ⟨gated_cfg1.2.2.2.2.2.2.1, mmr_cfg1.2.2.2.1⟩, gated_cfg1.2.2.2.2.1, mmr_cfg1.2.2.1⟩

theorem witness_CheckWriteCompletes :
    (Gated cfg1 .write .d 0xFFFF8 ∧ MmrRespected cfg1 .d 0xFFFF8) ∧ (Gated cfg1 .write .w 0x1000 ∧ MmrRespected cfg1 .w 0x1000) ∧
    0xFFFF9 + Width.bytes .d > spaceSize cfg1.cfg ∧
    (0x10000 + Width.bytes .d ≤ spaceSize cfg1.cfg ∧ Need.holds .write (pmaOf cfg1 0x10000) = false) ∧
    (0xFFF + Width.bytes .h ≤ spaceSize cfg1.cfg ∧ Need.holds .write (pmaOf cfg1 0xFFF) = true ∧
      0xFFF % Width.bytes .h ≠ 0 ∧ pmaOf cfg1 0xFFF ≠ pmaOf cfg1 (0xFFF + Width.bytes .h - 1)) ∧
    (Gated cfg1 .write .b 0x1FFF ∧ ¬MmrRespected cfg1 .b 0x1FFF) := by
  refine ⟨⟨gated_cfg1.2.2.1, mmr_cfg1.2.1⟩, ⟨gated_cfg1.2.2.2.2.1, mmr_cfg1.2.2.1⟩, by decide, by decide, by decide,
    ⟨by decide, by decide, by decide⟩, ?_⟩
  unfold MmrRespected
  decide

theorem witness_CheckWriteForetellsWrite :
    Canonical cfg1 ∧ 0 < cfg1.hartCount ∧
    exec (.checkWriteW 0x1000 0xAAAABBBB#64) cfg1 = .next (after (.checkWriteW 0x1000 0xAAAABBBB#64) cfg1) ∧
    exec (.writeW 0 0x1000 0xAAAABBBB#64) cfg1 = .next (after (.writeW 0 0x1000 0xAAAABBBB#64) cfg1) ∧
    (after (.checkWriteW 0x1000 0xAAAABBBB#64) cfg1).resp = some (.ok ⟨0xBBBB, 0, 0⟩) :=
  ⟨cfg1_canonical, by decide, exec_after _ _, exec_after _ _, by decide⟩

/-- An unwritable ICCM page. -/
theorem witness_PokeCompletes :
    Canonical cfg1 ∧ Gated cfg1 .mapped .w 0x10000 ∧ MmrRespected cfg1 .w 0x10000 :=
  ⟨cfg1_canonical, gated_cfg1.2.2.2.2.2.2.2.1, mmr_cfg1.2.2.2.2⟩

/-- A plain page and an MMR page. -/
theorem witness_ReadAfterWriteReturnsIt :
    Canonical cfg1 ∧
    (exec (.writeH 1 0x2FFF 0xBEEF#64) cfg1 = .next (after (.writeH 1 0x2FFF 0xBEEF#64) cfg1) ∧
      Succeeded (after (.writeH 1 0x2FFF 0xBEEF#64) cfg1) ∧
      Answers (.readH 0x2FFF) (after (.writeH 1 0x2FFF 0xBEEF#64) cfg1)
        (after (.readH 0x2FFF) (after (.writeH 1 0x2FFF 0xBEEF#64) cfg1)) ⟨0xBEEF, 0, 0⟩ ∧
      (pmaOf cfg1 0x2FFF).mmr = false) ∧
    (exec (.writeW 0 0x1000 0xAAAABBBB#64) cfg1 = .next (after (.writeW 0 0x1000 0xAAAABBBB#64) cfg1) ∧
      Succeeded (after (.writeW 0 0x1000 0xAAAABBBB#64) cfg1) ∧
      Answers (.readW 0x1000) (after (.writeW 0 0x1000 0xAAAABBBB#64) cfg1)
        (after (.readW 0x1000) (after (.writeW 0 0x1000 0xAAAABBBB#64) cfg1)) ⟨0xBBBB, 0, 0⟩ ∧
      (pmaOf cfg1 0x1000).mmr = true) :=
  ⟨cfg1_canonical, ⟨exec_after _ _, ⟨_, rfl⟩, ⟨exec_after _ _, by decide⟩, by decide⟩,
    exec_after _ _, ⟨_, rfl⟩, ⟨exec_after _ _, by decide⟩, by decide⟩

/-- S4: a poke into the ICCM; and a write to a plain page. -/
theorem witness_FetchSeesThePokedBytes :
    Canonical cfg1 ∧ (pmaOf cfg1 0x10000).mmr = false ∧
    (exec (.pokeW 0x10000 0x13#64) cfg1 = .next (after (.pokeW 0x10000 0x13#64) cfg1) ∧
      Succeeded (after (.pokeW 0x10000 0x13#64) cfg1) ∧
      Answers (.readInstWord 0x10000) (after (.pokeW 0x10000 0x13#64) cfg1)
        (after (.readInstWord 0x10000) (after (.pokeW 0x10000 0x13#64) cfg1)) ⟨0x13, 0, 0⟩) ∧
    (exec (.writeW 1 0x200 0x13#64) cfg1 = .next (after (.writeW 1 0x200 0x13#64) cfg1) ∧
      Succeeded (after (.writeW 1 0x200 0x13#64) cfg1)) :=
  ⟨cfg1_canonical, by decide, ⟨exec_after _ _, ⟨_, rfl⟩, exec_after _ _, by decide⟩, exec_after _ _, _, rfl⟩

theorem witness_LastWriteShowsTheWrite :
    Canonical cfg1Loaded ∧ exec (.writeH 1 0x201 0xABCD#64) cfg1Loaded = .next (after (.writeH 1 0x201 0xABCD#64) cfg1Loaded) ∧
    Succeeded (after (.writeH 1 0x201 0xABCD#64) cfg1Loaded) ∧ (pmaOf cfg1Loaded 0x201).mmr = false ∧
    Answers (.readH 0x201) cfg1Loaded (after (.readH 0x201) cfg1Loaded) ⟨0xADBE, 0, 0⟩ :=
  ⟨loaded_canonical, exec_after _ _, ⟨_, rfl⟩, by decide, exec_after _ _, by decide⟩

theorem witness_GetPmaCompletes : spaceSize cfg1.cfg ≤ 0x100000 ∧ 0xFFFFF < spaceSize cfg1.cfg := by decide

/-- The smallest and the largest count, and the three refusals. -/
theorem witness_SetHartCountCompletes :
    State.reset.isSealed = false ∧ 1 ≤ (1#64).toNat ∧ (0x1000000#64).toNat ≤ 2 ^ 24 ∧ 1 ≤ (0x1000000#64).toNat ∧
    cfg1.isSealed = true ∧ (0#64).toNat = 0 ∧ (0x1000001#64).toNat > 2 ^ 24 := by decide

/-- The last page of the space (V-CFG23). -/
theorem witness_DefineAreaCompletes :
    Canonical State.reset ∧ State.reset.isSealed = false ∧ 0xFF000 % 2 ^ State.reset.cfg.pageShift = 0 ∧
    (0x1000#64).toNat % 2 ^ State.reset.cfg.pageShift = 0 ∧ (0x1000#64).toNat ≠ 0 ∧
    0xFF000 + (0x1000#64).toNat ≤ spaceSize State.reset.cfg ∧
    ∀ b, 0xFF000 ≤ b → b < 0xFF000 + (0x1000#64).toNat → (pmaOf State.reset b).claimed = false := by
  refine ⟨⟨by decide, by decide, by decide, by decide, by decide⟩, rfl, by decide, by decide, by decide, by decide,
    fun b _ _ => ?_⟩
  unfold pmaOf
  split <;> rfl

/-- V-CFG8 to V-CFG11 and V-CFG14: address, size, empty, beyond the space, overlap. -/
theorem witness_BadAreaRefusedWhole :
    0x10800 % 2 ^ cfg1.cfg.pageShift ≠ 0 ∧ (0x100#64).toNat % 2 ^ cfg1.cfg.pageShift ≠ 0 ∧ (0#64).toNat = 0 ∧
    0xFF000 + (0x2000#64).toNat > spaceSize cfg1.cfg ∧
    (0xF000 ≤ 0x10000 ∧ 0x10000 < 0xF000 + (0x2000#64).toNat ∧ (pmaOf cfg1 0x10000).claimed = true) := by decide

theorem witness_DefineMmrMaskCompletes :
    ({ cfg1 with isSealed := false } : State).isSealed = false ∧ (0x1FFC % 4 = 0 ∧ (pmaOf cfg1 0x1FFC).mmr = true) ∧
    0x1002 % 4 ≠ 0 ∧ (pmaOf cfg1 0x2000).mmr = false := by decide

theorem witness_FinishConfigCompletes :
    Canonical { cfg1 with isSealed := false } ∧ ValidConfig { cfg1 with isSealed := false } ∧
    ({ cfg1 with isSealed := false } : State).isSealed = false := by
  refine ⟨⟨by decide, by decide, by decide, by decide, by decide⟩, ?_, rfl⟩
  have h := cfg1_valid
  intro p
  exact h p

theorem witness_LastWriteCommandsComplete : Canonical cfg1 ∧ 1 < cfg1.hartCount := ⟨cfg1_canonical, by decide⟩

theorem witness_MakeLrCompletes : Canonical cfg1 ∧ 1 < cfg1.hartCount := ⟨cfg1_canonical, by decide⟩

theorem witness_HasLrCompletes :
    1 < cfg1Reserved.hartCount ∧ ((reservation cfg1Reserved 1).valid = true ∧ (reservation cfg1Reserved 1).address = 0x200) ∧
    cfg1Reserved.hartCount ≤ 2 := by decide

theorem witness_InvalidateLrCompletes :
    Canonical cfg1Reserved ∧ 1 < cfg1Reserved.hartCount ∧ (reservation cfg1Reserved 1).valid = true ∧
    (Instr.invalidateLr 1).hart? = some 1 ∧
    exec (.invalidateLr 1) cfg1Reserved = .next (after (.invalidateLr 1) cfg1Reserved) ∧
    (reservation (after (.invalidateLr 1) cfg1Reserved) 1).valid = false ∧ cfg1Reserved.hartCount ≤ 2 :=
  ⟨reserved_canonical, by decide, by decide, rfl, exec_after _ _, by decide, by decide⟩

theorem witness_InvalidationByRangeCompletes : Canonical cfg1Reserved ∧ 1 < cfg1Reserved.hartCount :=
  ⟨reserved_canonical, by decide⟩

theorem witness_LockCommandsComplete :
    1 < cfg1.hartCount ∧ cfg1.lock.held = false ∧ ({ cfg1 with lock := ⟨true, 1⟩ } : State).lock.held = true ∧
    ({ cfg1 with lock := ⟨true, 1⟩ } : State).lock = ⟨true, 1⟩ ∧
    ({ cfg1 with lock := ⟨true, 0⟩ } : State).lock.owner ≠ 1 := by decide

/-- A command that breaks the reservation and one that does not. -/
theorem witness_ReservationBrokenExactlyByTheEvents :
    Canonical cfg1Reserved ∧ (reservation cfg1Reserved 0).valid = true ∧
    (exec (.writeB 1 0x203 0#64) cfg1Reserved = .next (after (.writeB 1 0x203 0#64) cfg1Reserved) ∧
      (reservation (after (.writeB 1 0x203 0#64) cfg1Reserved) 0).valid = false) ∧
    (exec (.writeB 1 0x204 0#64) cfg1Reserved = .next (after (.writeB 1 0x204 0#64) cfg1Reserved) ∧
      (reservation (after (.writeB 1 0x204 0#64) cfg1Reserved) 0).valid = true ∧
      (Instr.writeB 1 0x204 0#64).remakes 0 = false) :=
  ⟨reserved_canonical, by decide, ⟨exec_after _ _, by decide⟩, exec_after _ _, by decide, by decide⟩

/-- S6: the hart's own store between its MAKE_LR and its HAS_LR, and a neighbouring poke. -/
theorem witness_UndisturbedReservationIsFound :
    Canonical cfg1 ∧ 0 < cfg1.hartCount ∧ exec (.makeLrW 0 0x200) cfg1 = .next (after (.makeLrW 0 0x200) cfg1) ∧
    Undisturbed 0 [.writeW 0 0x200 1#64, .pokeB 0x204 1#64] (after (.makeLrW 0 0x200) cfg1) := by
  refine ⟨cfg1_canonical, by decide, exec_after _ _, fun _ => ?_, by decide, fun _ => ?_, by decide, trivial⟩ <;> decide

/-- Hart 0 inside its bracket, hart 1 asking for the lock. -/
def twoAtomics : System :=
  ⟨{ cfg1 with lock := ⟨true, 0⟩ }, [⟨0, ⟨false, false⟩, .amo .add .w 0x200 5#64, .test⟩, ⟨1, ⟨true, true⟩, .lr .w 0x200, .start⟩]⟩

theorem witness_AtomicBodiesExcludeEachOther :
    LockOwned twoAtomics ∧ DistinctHarts twoAtomics ∧
    Disciplined [.executor 0, .other (.writeB 1 0x200 0#64), .executor 1] := by
  refine ⟨?_, ?_, ?_⟩
  · unfold LockOwned
    decide
  · unfold DistinctHarts
    decide
  · intro i hi
    simp at hi
    rw [hi]
    rfl

/-- Hart 0 at the end of its drain, hart 1 about to store. -/
def drainingAndStoring : System :=
  ⟨{ cfg1 with lw := [(0, ⟨some .w, 0x200, 6, 1⟩)] },
    [⟨0, ⟨true, false⟩, .amo .add .w 0x200 5#64, .drainClear (.value 1)⟩, ⟨1, ⟨false, false⟩, .store .w 0x200 7#64, .start⟩]⟩

theorem witness_EveryMoveKeepsTheSlotsDrained :
    SlotsDrained drainingAndStoring ∧ (∀ i, Move.executor 0 = .other i → ∀ e ∈ drainingAndStoring.execs,
      i.writesSlot e.hart = false) ∧
    ∀ i, Move.other (.pokeB 0x200 0#64) = .other i → ∀ e ∈ drainingAndStoring.execs, i.writesSlot e.hart = false := by
  refine ⟨⟨⟨by decide, by decide, by decide, by decide, by decide⟩, ?_, by decide, by decide⟩, ?_, ?_⟩
  · unfold DistinctHarts
    decide
  · intro i hi
    cases hi
  · intro i hi
    cases hi
    decide

/-- P3, steps 1 to 6, 11, 12 (H0 alone): the AMO fills the slot, the drain after its LOCK_REL reads and empties it. -/
theorem test_p3_amo_drains :
    let y : System := ⟨{ cfg1 with mem := [(0x200, 1)] }, [⟨0, ⟨false, false⟩, .amo .add .w 0x200 5#64, .start⟩]⟩
    (y.run (List.replicate 5 (.executor 0))).block.resp = some (.ok ⟨0x6, 0x200, 4⟩) ∧
    (y.run (List.replicate 6 (.executor 0))).block.lw = [] ∧
    (y.run (List.replicate 6 (.executor 0))).execs =
      [⟨0, ⟨false, false⟩, .amo .add .w 0x200 5#64, .done (.value 1)⟩] := by decide

/-- P4, steps 1 to 5 (hart 0): a misaligned store and its drain with the old value; a store that fails is not drained. -/
theorem test_p4_store_drains :
    (System.run ⟨cfg1, [⟨0, ⟨true, false⟩, .store .d 0x2FFC 0x1122334455667788#64, .start⟩]⟩
      (List.replicate 3 (.executor 0))).block.resp = some (.ok ⟨0, 0x2FFC, 8⟩) ∧
    (System.run ⟨cfg1, [⟨0, ⟨true, false⟩, .store .d 0x2FFC 0x1122334455667788#64, .start⟩]⟩
      (List.replicate 4 (.executor 0))).block.lw = [] ∧
    (System.run ⟨cfg1, [⟨0, ⟨true, true⟩, .store .d 0x1FFFC 0x1122334455667788#64, .start⟩]⟩ [.executor 0]).execs =
      [⟨0, ⟨true, true⟩, .store .d 0x1FFFC 0x1122334455667788#64, .done (.writeFailed .straddle)⟩] := by decide

theorem witness_LoadReservedSequence :
    Canonical cfg1 ∧ 1 < cfg1.hartCount ∧ cfg1.lock = ⟨false, 0⟩ ∧ Gated cfg1 .read (AtomicWidth.width .w) 0x200 ∧
    MmrRespected cfg1 (AtomicWidth.width .w) 0x200 := ⟨cfg1_canonical, by decide, rfl, gated_cfg1.2.1, mmr_cfg1.1⟩

/-- With the reservation; with it on an ICCM word, not writable (V-SQ7), and beyond the space; without it. -/
theorem witness_StoreConditionalSequence :
    (Canonical cfg1Reserved ∧ 1 < cfg1Reserved.hartCount ∧ cfg1Reserved.lock = ⟨false, 0⟩ ∧
      (reservation cfg1Reserved 1).valid = true ∧ (reservation cfg1Reserved 1).address = 0x200 ∧
      Gated cfg1Reserved .write (AtomicWidth.width .w) 0x200 ∧ MmrRespected cfg1Reserved (AtomicWidth.width .w) 0x200) ∧
    (reservation (cfg1Held 0x10000) 1 = ⟨0x10000, .w, true⟩ ∧
      FailsWith (.writeW 1 0x10000 9#64) (cfg1Held 0x10000) .permissionDenied) ∧
    (reservation (cfg1Held 0x100000) 1 = ⟨0x100000, .w, true⟩ ∧
      FailsWith (.writeW 1 0x100000 9#64) (cfg1Held 0x100000) .outOfBounds) ∧
    ¬((reservation cfg1 1).valid = true ∧ (reservation cfg1 1).address = 0x200) := by
  refine ⟨⟨reserved_canonical, by decide, rfl, by decide, by decide, ⟨by decide, by decide, by decide⟩, ?_⟩,
    ⟨by decide, rfl⟩, ⟨by decide, rfl⟩, by decide⟩
  unfold MmrRespected
  decide

theorem witness_AtomicMemoryOperationSequence :
    Canonical cfg1 ∧ 1 < cfg1.hartCount ∧ cfg1.lock = ⟨false, 0⟩ ∧ Gated cfg1 .read (AtomicWidth.width .w) 0x1000 ∧
    Gated cfg1 .write (AtomicWidth.width .w) 0x1000 ∧ MmrRespected cfg1 (AtomicWidth.width .w) 0x1000 :=
  ⟨cfg1_canonical, by decide, rfl, gated_cfg1.2.2.2.2.2.1, gated_cfg1.2.2.2.2.1, mmr_cfg1.2.2.1⟩

/-- Hart 1's SC first, hart 0's LOCK_ACQ falling inside it and answering `Busy`. -/
def scMoves : List Move :=
  [.executor 1, .executor 0, .executor 1, .other (.readW 0x200), .executor 1, .executor 1, .executor 1] ++
  [.executor 0, .executor 0, .executor 0, .executor 0, .executor 1, .executor 1]

theorem witness_ExactlyOneStoreConditionalSucceeds :
    Canonical cfg1Reserved ∧ 0 < cfg1Reserved.hartCount ∧ 1 < cfg1Reserved.hartCount ∧ cfg1Reserved.lock = ⟨false, 0⟩ ∧
    Gated cfg1Reserved .write (AtomicWidth.width .w) 0x200 ∧ MmrRespected cfg1Reserved (AtomicWidth.width .w) 0x200 ∧
    reservation cfg1Reserved 0 = ⟨0x200, .w, true⟩ ∧ reservation cfg1Reserved 1 = ⟨0x200, .w, true⟩ ∧
    (∀ i, Move.other i ∈ scMoves → i.readOnly = true) ∧
    (System.run ⟨cfg1Reserved, [⟨0, ⟨false, false⟩, .sc .w 0x200 1#64, .start⟩,
        ⟨1, ⟨false, false⟩, .sc .w 0x200 2#64, .start⟩]⟩ scMoves).execs =
      [⟨0, ⟨false, false⟩, .sc .w 0x200 1#64, .done .notReserved⟩,
        ⟨1, ⟨false, false⟩, .sc .w 0x200 2#64, .done .stored⟩] := by
  refine ⟨reserved_canonical, by decide, by decide, rfl, ⟨by decide, by decide, by decide⟩, ?_, by decide, by decide, ?_,
    by decide⟩
  · unfold MmrRespected
    decide
  · intro i hi
    simp [scMoves] at hi
    rw [hi]
    rfl

end Sys2Proof.Tests
end

