-- ==== Sys2Proof/Proofs/Step.lean ====
section
/-! What a step is in each of its cases, read from the configuration and from what `takeRequest` answers; and the
obligations about a step that runs a command and about one with nothing to run (R4, R90, R101, R230). -/

namespace Sys2Proof.Machine

theorem takeRequest_of_port_nil {s : State} (hport : s.port = []) : takeRequest s = none := by
  simp [takeRequest, hport]

theorem takeRequest_of_port_cons {s : State} {r : Request} {rest : List Request} (hport : s.port = r :: rest) :
    takeRequest s = some (r, { s with port := rest }) := by
  simp [takeRequest, hport]

theorem step_of_invalidConfig {s : State} (hcfg : validConfig s.cfg = false) : step s = .fault .noBlock := by
  simp [step, hcfg]

theorem step_of_takeRequest_none {s : State} (hcfg : validConfig s.cfg = true) (htake : takeRequest s = none) :
    step s = .next s := by
  simp [step, hcfg, htake]

theorem step_of_takeRequest_command {s t : State} {r : Request} {i : Instr} (hcfg : validConfig s.cfg = true)
    (htake : takeRequest s = some (r, t)) (hdecode : decode t.cfg r = .command i) : step s = exec i t := by
  simp [step, hcfg, htake, hdecode]

/-- Settles O7: taking the head request off the port leaves the parameters `decode` reads as they were. -/
theorem stepRunsTheDecodedCommand : Obligations.StepRunsTheDecodedCommand := by
  intro s r rest i hcfg hport hdecode
  exact step_of_takeRequest_command hcfg (takeRequest_of_port_cons hport) hdecode

/-- Settles O9, by the two cases of a step that runs nothing. -/
theorem stepWithNothingToRun : Obligations.StepWithNothingToRun := by
  intro s
  constructor
  · intro hcfg hport
    exact step_of_takeRequest_none hcfg (takeRequest_of_port_nil hport)
  · exact step_of_invalidConfig

end Sys2Proof.Machine
end

