-- ==== Sys2Proof/Proofs/Families.lean ====
section
/-! The 44 commands by family: one case for the commands that change nothing, one for each sized family at every width,
one for the three area definitions, one for each other command. Proofs about all commands split along these cases. -/

namespace Sys2Proof

/-- The areas that a configuration command can define (R123 to R125). -/
inductive AreaKind where
  | iccm
  | dccm
  | mmr

/-- The value DEFINE_ICCM, DEFINE_DCCM, DEFINE_MMR_AREA give a page. -/
def AreaKind.page : AreaKind → Machine.Pma
  | .iccm => .iccmPage
  | .dccm => .dccmPage
  | .mmr => .mmrPage

/-- The command that defines an area of each kind. -/
def Instr.defineAreaOf : AreaKind → Nat → DataWord → Instr
  | .iccm, a, d => .defineIccm a d
  | .dccm, a, d => .defineDccm a d
  | .mmr, a, d => .defineMmrArea a d

/-- Every command belongs to one of the families. -/
theorem Instr.familyCases {motive : Instr → Prop}
    (readOnly : ∀ i, i.readOnly = true → motive i)
    (write : ∀ n h a d, motive (.writeOf n h a d))
    (poke : ∀ n a d, motive (.pokeOf n a d))
    (makeLr : ∀ n h a, motive (.makeLrOf n h a))
    (invalidateLr : ∀ h, motive (.invalidateLr h))
    (invalidateOther : ∀ n h a, motive (.invalidateOtherHartLrOf n h a))
    (invalidateLrs : ∀ n a, motive (.invalidateLrsOf n a))
    (lockAcq : ∀ h, motive (.lockAcq h))
    (lockRel : ∀ h, motive (.lockRel h))
    (clearLastWrite : ∀ h, motive (.clearLastWrite h))
    (setHartCount : ∀ d, motive (.setHartCount d))
    (defineArea : ∀ k a d, motive (.defineAreaOf k a d))
    (defineMmrMask : ∀ a d, motive (.defineMmrMask a d))
    (finishConfig : ∀ d, motive (.finishConfig d)) :
    ∀ i, motive i
  | .readB _ | .readH _ | .readW _ | .readD _ | .readInstHalf _ | .readInstWord _ => readOnly _ rfl
  | .checkWriteB _ _ | .checkWriteH _ _ | .checkWriteW _ _ | .checkWriteD _ _ => readOnly _ rfl
  | .getPma _ | .hasLr _ _ | .getLastWriteNew _ | .getLastWriteOld _ => readOnly _ rfl
  | .writeB h a d => write .b h a d
  | .writeH h a d => write .h h a d
  | .writeW h a d => write .w h a d
  | .writeD h a d => write .d h a d
  | .pokeB a d => poke .b a d
  | .pokeH a d => poke .h a d
  | .pokeW a d => poke .w a d
  | .pokeD a d => poke .d a d
  | .makeLrB h a => makeLr .b h a
  | .makeLrH h a => makeLr .h h a
  | .makeLrW h a => makeLr .w h a
  | .makeLrD h a => makeLr .d h a
  | .invalidateLr h => invalidateLr h
  | .invalidateOtherHartLrB h a => invalidateOther .b h a
  | .invalidateOtherHartLrH h a => invalidateOther .h h a
  | .invalidateOtherHartLrW h a => invalidateOther .w h a
  | .invalidateOtherHartLrD h a => invalidateOther .d h a
  | .invalidateLrsB a => invalidateLrs .b a
  | .invalidateLrsH a => invalidateLrs .h a
  | .invalidateLrsW a => invalidateLrs .w a
  | .invalidateLrsD a => invalidateLrs .d a
  | .lockAcq h => lockAcq h
  | .lockRel h => lockRel h
  | .clearLastWrite h => clearLastWrite h
  | .setHartCount d => setHartCount d
  | .defineIccm a d => defineArea .iccm a d
  | .defineDccm a d => defineArea .dccm a d
  | .defineMmrArea a d => defineArea .mmr a d
  | .defineMmrMask a d => defineMmrMask a d
  | .finishConfig d => finishConfig d

/-! ## What a family's members have in common -/

@[simp] theorem addr?_writeOf (n : Width) (h a : Nat) (d : DataWord) : (Instr.writeOf n h a d).addr? = some a := by
  cases n <;> rfl

@[simp] theorem addr?_makeLrOf (n : Width) (h a : Nat) : (Instr.makeLrOf n h a).addr? = some a := by
  cases n <;> rfl

@[simp] theorem storesTo_writeOf (b : Nat) (n : Width) (h a : Nat) (d : DataWord) :
    (Instr.writeOf n h a d).storesTo b = (decide (a ≤ b) && decide (b < a + n.bytes)) := by
  cases n <;> rfl

@[simp] theorem storesTo_pokeOf (b : Nat) (n : Width) (a : Nat) (d : DataWord) :
    (Instr.pokeOf n a d).storesTo b = (decide (a ≤ b) && decide (b < a + n.bytes)) := by
  cases n <;> rfl

@[simp] theorem writesSlot_writeOf (j : Nat) (n : Width) (h a : Nat) (d : DataWord) :
    (Instr.writeOf n h a d).writesSlot j = (h == j) := by
  cases n <;> rfl

@[simp] theorem configures_defineAreaOf (k : AreaKind) (a : Nat) (d : DataWord) :
    (Instr.defineAreaOf k a d).configures = true := by
  cases k <;> rfl

end Sys2Proof

namespace Sys2Proof.Machine

/-- The commands of R34's first row have no effect (R65). -/
theorem effect_of_readOnly {i : Instr} (hi : i.readOnly = true) (s : State) : effect s i = s := by
  cases i <;> first | rfl | cases hi

@[simp] theorem firstError_defineAreaOf (s : State) (k : AreaKind) (a : Nat) (d : DataWord) :
    firstError s (.defineAreaOf k a d) = areaError s a d.toNat := by
  cases k <;> rfl

@[simp] theorem effect_defineAreaOf (s : State) (k : AreaKind) (a : Nat) (d : DataWord) :
    effect s (.defineAreaOf k a d) = claimPages s a d.toNat k.page := by
  cases k <;> rfl

/-! ## The seal test of the configuration commands (R29, R122) -/

/-- A sealed block refuses every configuration command, before any other test (D12). -/
theorem firstError_of_configures {i : Instr} {s : State} (hs : s.isSealed = true) (hi : i.configures = true) :
    firstError s i = some .configError := by
  cases i
  case setHartCount d => exact if_pos hs
  case defineIccm a d => exact if_pos hs
  case defineDccm a d => exact if_pos hs
  case defineMmrArea a d => exact if_pos hs
  case defineMmrMask a d => exact if_pos hs
  case finishConfig d => exact if_pos hs
  all_goals cases hi

/-- A configuration command that passes its tests finds the block not sealed. -/
theorem unsealed_of_configures {i : Instr} {s : State} (hi : i.configures = true) (he : firstError s i = none) :
    s.isSealed = false := by
  by_contra hs
  rw [firstError_of_configures (by simpa using hs) hi] at he
  cases he

end Sys2Proof.Machine
end

