-- ==== Sys2Proof/Proofs/Invariant.lean ====
section
/-! The invariant of the block is kept: one lemma per operation on the state, then per command, then per step; and
R23's invariants, which need the page attributes alone. -/

namespace Sys2Proof.Machine

/-! ## Page attributes (R22, R23) -/

theorem valid_plain (ro : Bool) : Pma.plain.valid ro := by
  simp [Pma.valid, Pma.plain]

theorem valid_areaPage (k : AreaKind) (ro : Bool) : k.page.valid ro := by
  cases k <;> simp [AreaKind.page, Pma.valid, Pma.iccmPage, Pma.dccmPage, Pma.mmrPage]

theorem reachable_areaPage (k : AreaKind) : k.page.reachable := by
  cases k <;> simp [AreaKind.page, Pma.reachable, Pma.bits, Pma.iccmPage, Pma.dccmPage, Pma.mmrPage]

@[simp] theorem sealPage_plain (iccmRw dccmRo : Bool) : sealPage iccmRw dccmRo Pma.plain = Pma.plain := by
  simp [sealPage, Pma.plain]

@[simp] theorem sealPage_mmr (iccmRw dccmRo : Bool) (q : Pma) : (sealPage iccmRw dccmRo q).mmr = q.mmr := by
  dsimp only [sealPage]
  split <;> split <;> rfl

/-- Sealing a page keeps R23, the DCCM policy being in force from then on (R127). -/
theorem valid_sealPage {q : Pma} (hq : q.valid false) (iccmRw dccmRo : Bool) :
    (sealPage iccmRw dccmRo q).valid dccmRo := by
  obtain ⟨r, w, e, m, i, d⟩ := q
  revert r w e m i d iccmRw dccmRo
  unfold Pma.valid
  decide

/-- Sealing a page keeps its value among those of U20. -/
theorem reachable_sealPage {q : Pma} (hq : q.reachable) (iccmRw dccmRo : Bool) :
    (sealPage iccmRw dccmRo q).reachable := by
  obtain ⟨r, w, e, m, i, d⟩ := q
  revert r w e m i d iccmRw dccmRo
  unfold Pma.reachable
  decide

@[simp] theorem sealEffect_cfg (iccmRw : Bool) (s : State) : (sealEffect iccmRw s).cfg = s.cfg := rfl

theorem pmaPage_sealEffect {s : State} (hp : TableRising s.pma) (iccmRw : Bool) (p : Nat) :
    pmaPage (sealEffect iccmRw s) p = sealPage iccmRw s.cfg.dccmRo (pmaPage s p) :=
  tableGet_map hp (fun _ => sealPage_plain iccmRw s.cfg.dccmRo) p

theorem mmr_pmaOf_sealEffect {s : State} (hp : TableRising s.pma) (iccmRw : Bool) (a : Nat) :
    (pmaOf (sealEffect iccmRw s) a).mmr = (pmaOf s a).mmr := by
  unfold pmaOf
  simp only [sealEffect_cfg, pmaPage_sealEffect hp]
  split
  · exact sealPage_mmr _ _ _
  · rfl

theorem validConfig_sealEffect {s : State} (hp : TableRising s.pma) (hs : s.isSealed = false) (hv : ValidConfig s)
    (iccmRw : Bool) : ValidConfig (sealEffect iccmRw s) := by
  intro p
  rw [pmaPage_sealEffect hp]
  have hpage := hv p
  rw [hs, Bool.false_and] at hpage
  exact valid_sealPage hpage iccmRw s.cfg.dccmRo

theorem validConfig_claimPages {s : State} (hp : TableWf Pma.plain s.pma) (hv : ValidConfig s) (a size : Nat)
    (k : AreaKind) : ValidConfig (claimPages s a size k.page) := by
  intro p
  rw [pmaPage_claimPages hp]
  split
  · exact valid_areaPage k _
  · exact hv p

theorem validConfig_construct (c : Config) (image : Memory) : ValidConfig (State.construct c image) :=
  fun _ => valid_plain _

theorem validConfig_effect {i : Instr} {s : State} (hp : TableWf Pma.plain s.pma) (hv : ValidConfig s)
    (he : firstError s i = none) : ValidConfig (effect s i) := by
  cases i using Instr.familyCases with
  | readOnly i hi => rwa [effect_of_readOnly hi]
  | write n h a d => rw [effect_writeOf]; exact hv
  | poke n a d => rw [effect_pokeOf]; exact hv
  | makeLr n h a => rw [effect_makeLrOf]; exact hv
  | invalidateOther n h a => rw [effect_invalidateOtherHartLrOf]; exact hv
  | invalidateLrs n a => rw [effect_invalidateLrsOf]; exact hv
  | defineArea k a d =>
    rw [effect_defineAreaOf]
    exact validConfig_claimPages hp hv a d.toNat k
  | finishConfig d => exact validConfig_sealEffect hp.1 (unsealed_of_configures rfl he) hv (d.getLsbD 0)
  | invalidateLr | lockAcq | lockRel | clearLastWrite | setHartCount | defineMmrMask => exact hv

/-- Settles O13: area pages are valid whatever the policy, and only FINISH_CONFIG, once, brings it into force. -/
theorem commandsKeepValidConfig : Obligations.CommandsKeepValidConfig := by
  refine ⟨validConfig_construct, fun i s t hp hv h => ?_⟩
  obtain ⟨k, -, rfl⟩ | ⟨he, rfl⟩ := exec_cases h
  · exact hv
  · exact validConfig_effect hp hv he

/-! ## What the area test says of the pages and of the masked words (R122) -/

/-- The pages of an area that passes its tests exist. -/
theorem lt_pageCount_of_mem_area {s : State} {a z p : Nat} (he : areaError s a z = none) (hlo : areaFirst s a ≤ p)
    (hhi : p < areaFirst s a + areaPages s a z) : p < pageCount s.cfg := by
  obtain ⟨-, ha, hz, -, hbound, -⟩ := areaError_none he
  have hpage : pageIndex s.cfg (p * pageSize s.cfg) = p := by
    rw [pageIndex_eq]
    exact Nat.mul_div_cancel p (Nat.two_pow_pos _)
  have hmem : a ≤ p * pageSize s.cfg ∧ p * pageSize s.cfg < a + z :=
    (page_mem_area ha hz).mp (by rw [hpage]; exact ⟨hlo, hhi⟩)
  have hlt := pageIndex_lt (show p * pageSize s.cfg < spaceSize s.cfg by omega)
  rwa [hpage] at hlt

theorem lt_spaceSize_of_mmr {s : State} {b : Nat} (hb : (pmaOf s b).mmr = true) : b < spaceSize s.cfg := by
  by_contra hout
  rw [pmaOf, if_neg hout] at hb
  exact absurd hb (by decide)

/-- An area that passes its tests holds no MMR page, so the attributes at an address of one stay. -/
theorem pmaOf_claimPages_of_mmr {s : State} (hp : TableWf Pma.plain s.pma) {a z b : Nat} (he : areaError s a z = none)
    (hb : (pmaOf s b).mmr = true) (q : Pma) : pmaOf (claimPages s a z q) b = pmaOf s b := by
  obtain ⟨-, -, -, -, -, hfree⟩ := areaError_none he
  have hlt := lt_spaceSize_of_mmr hb
  have hpage : pmaOf s b = pmaPage s (pageIndex s.cfg b) := if_pos hlt
  rw [hpage] at hb ⊢
  rw [pmaOf, claimPages_cfg, if_pos hlt, pmaPage_claimPages hp, if_neg]
  rintro ⟨hlo, hhi⟩
  have hclaimed := hfree _ hlo hhi
  simp [Pma.claimed, hb] at hclaimed

/-! ## The operations on the state keep the invariant -/

theorem inv_resp {s : State} (hs : Inv s) (r : Option Response) : Inv { s with resp := r } := { hs with }

theorem inv_port {s : State} (hs : Inv s) (p : List Request) : Inv { s with port := p } := { hs with }

theorem inv_storeBytes {s : State} (hs : Inv s) {n : Width} {a : Nat} (hbound : a + n.bytes ≤ spaceSize s.cfg)
    (v : DataWord) : Inv (storeBytes s n a v) :=
  { hs with
    memWf := wf_memWrite hs.memWf a n v
    memIn := fun kv hkv => by
      obtain h | h := mem_memWrite hkv
      · exact Nat.lt_of_lt_of_le h.2 hbound
      · exact hs.memIn kv h }

theorem inv_setLastWrite {s : State} (hs : Inv s) {h : Nat} {x : LastWrite}
    (hx : x ≠ LastWrite.empty → h < s.hartCount ∧ x.Sound s.cfg) : Inv (setLastWrite s h x) :=
  { hs with
    lwWf := wf_put hs.lwWf h x
    lwIn := fun kv hkv => by
      obtain ⟨rfl, hne⟩ | hold := mem_put hkv
      · exact hx hne
      · exact hs.lwIn kv hold }

theorem inv_setReservation {s : State} (hs : Inv s) {h : Nat} {r : Reservation} (hh : h < s.hartCount)
    (hr : r.address < 2 ^ s.cfg.addrW) : Inv (setReservation s h r) :=
  { hs with
    resWf := wf_put hs.resWf h r
    resIn := fun kv hkv => by
      obtain rfl | hold := mem_setReservation hkv
      · exact ⟨hh, hr⟩
      · exact hs.resIn kv hold }

theorem inv_sweep {s : State} (hs : Inv s) (doomed : Nat → Reservation → Bool) : Inv (sweep s doomed) :=
  { hs with
    resWf := wf_map hs.resWf
    resIn := fun kv hkv => by
      obtain ⟨v, hv, haddr⟩ := mem_sweep hkv
      rw [haddr]
      exact hs.resIn (kv.1, v) hv }

theorem inv_lock {s : State} (hs : Inv s) {l : Lock} (howner : l.owner < s.hartCount)
    (hfree : l.held = false → l.owner = 0) : Inv { s with lock := l } :=
  { hs with lockOk := ⟨howner, hfree⟩ }

/-- SET_HART_COUNT re-creates the per-hart tables empty, so only the new count is to be checked (R121). -/
theorem inv_recreateHarts {s : State} (hs : Inv s) {n : Nat} (hpos : 1 ≤ n) (hmax : n ≤ maxHarts) :
    Inv { s with hartCount := n, lw := [], res := [], lock := Lock.free } :=
  { hs with
    lwWf := wf_nil _
    lwIn := fun _ hkv => by cases hkv
    resWf := wf_nil _
    resIn := fun _ hkv => by cases hkv
    harts := ⟨hpos, hmax⟩
    lockOk := ⟨hpos, fun _ => rfl⟩ }

theorem inv_insertMask {s : State} (hs : Inv s) {a : Nat} (hal : a % 4 = 0) (hmmr : (pmaOf s a).mmr = true)
    (x : Word32) : Inv { s with mask := tableInsert s.mask a x } :=
  { hs with
    maskWf := rising_insert hs.maskWf a x
    maskIn := fun kv hkv => by
      obtain rfl | hold := keys_insert hkv
      · exact ⟨hal, hmmr⟩
      · exact hs.maskIn kv hold }

theorem inv_claimPages {s : State} (hs : Inv s) {a size : Nat} (he : areaError s a size = none) (k : AreaKind) :
    Inv (claimPages s a size k.page) :=
  { hs with
    pmaWf := wf_fill hs.pmaWf _ _ _
    pmaIn := fun kv hkv => by
      obtain ⟨hlo, hhi, hval⟩ | hold := mem_fill hkv
      · rw [hval]
        exact ⟨lt_pageCount_of_mem_area (s := s) he hlo hhi, reachable_areaPage k⟩
      · exact hs.pmaIn kv hold
    pmaValid := validConfig_claimPages hs.pmaWf hs.pmaValid a size k
    maskIn := fun kv hkv => by
      obtain ⟨hal, hmmr⟩ := hs.maskIn kv hkv
      rw [pmaOf_claimPages_of_mmr hs.pmaWf he hmmr]
      exact ⟨hal, hmmr⟩ }

theorem inv_sealEffect {s : State} (hs : Inv s) (hopen : s.isSealed = false) (iccmRw : Bool) :
    Inv (sealEffect iccmRw s) :=
  { hs with
    pmaWf := wf_map hs.pmaWf
    pmaIn := fun kv hkv => by
      obtain ⟨-, q, hq, hval⟩ := mem_tableMap hkv
      obtain ⟨hpage, hreach⟩ := hs.pmaIn _ hq
      exact ⟨hpage, hval ▸ reachable_sealPage hreach iccmRw s.cfg.dccmRo⟩
    pmaValid := validConfig_sealEffect hs.pmaWf.1 hopen hs.pmaValid iccmRw
    maskIn := fun kv hkv => by
      rw [mmr_pmaOf_sealEffect hs.pmaWf.1]
      exact hs.maskIn kv hkv }

/-! ## The commands keep the invariant -/

/-- The record of a write that passes its tests: in bounds, and both values fit the width (R26). -/
theorem sound_writeRecord {s : State} {n : Width} {a : Nat} (hbound : a + n.bytes ≤ spaceSize s.cfg)
    (haddr : a < 2 ^ s.cfg.addrW) (d : DataWord) : (writeRecord s n a d).Sound s.cfg where
  sized := ⟨n, rfl, hbound, storedValue_lt s n a d, memRead_lt s.mem a n⟩
  addr := haddr

theorem inv_writeEffect {s : State} (hs : Inv s) {n : Width} {h a : Nat} (hh : h < s.hartCount)
    (hbound : a + n.bytes ≤ spaceSize s.cfg) (haddr : a < 2 ^ s.cfg.addrW) (d : DataWord) :
    Inv (writeEffect n h a d s) := by
  have hstore : Inv (storeBytes s n a (storedValue s n a d)) := inv_storeBytes hs hbound _
  exact inv_sweep (inv_setLastWrite hstore fun _ => ⟨hh, sound_writeRecord hbound haddr d⟩) _

theorem inv_pokeEffect {s : State} (hs : Inv s) {n : Width} {a : Nat} (hbound : a + n.bytes ≤ spaceSize s.cfg)
    (d : DataWord) : Inv (pokeEffect n a d s) :=
  inv_sweep (inv_storeBytes hs hbound _) _

theorem address_reservation_lt {s : State} (hs : Inv s) (h : Nat) :
    (reservation s h).address < 2 ^ s.cfg.addrW := by
  obtain hempty | hmem := tableGet_mem_or Reservation.empty s.res h
  · rw [reservation, hempty]
    exact Nat.two_pow_pos _
  · exact (hs.resIn _ hmem).2

theorem bound_of_accessError {s : State} {need : Need} {n : Width} {a : Nat} (he : accessError s need n a = none) :
    a + n.bytes ≤ spaceSize s.cfg :=
  (gated_of_accessError he).1.inBounds

theorem hartCountError_none {s : State} {n : Nat} (he : hartCountError s n = none) : 1 ≤ n ∧ n ≤ maxHarts := by
  simp only [hartCountError] at he
  split_ifs at he with hsealed hrange
  have hboth : n ≠ 0 ∧ n ≤ maxHarts := by simpa using hrange
  omega

theorem maskError_none {s : State} {a : Nat} (he : maskError s a = none) : a % 4 = 0 ∧ (pmaOf s a).mmr = true := by
  simp only [maskError] at he
  split_ifs at he with hsealed hal hmmr
  simpa using And.intro hal hmmr

theorem inv_effect {i : Instr} {s : State} (hs : Inv s) (hwf : i.wf s.cfg = true) (he : firstError s i = none) :
    Inv (effect s i) := by
  obtain ⟨-, haddr⟩ := wf_iff.mp hwf
  cases i using Instr.familyCases with
  | readOnly i hi => rwa [effect_of_readOnly hi]
  | write n h a d =>
    rw [firstError_writeOf, or_none, hartError_none] at he
    rw [effect_writeOf]
    exact inv_writeEffect hs he.1 (bound_of_accessError he.2) (haddr a (addr?_writeOf n h a d)) d
  | poke n a d =>
    rw [firstError_pokeOf] at he
    rw [effect_pokeOf]
    exact inv_pokeEffect hs (bound_of_accessError he) d
  | makeLr n h a =>
    rw [firstError_makeLrOf, hartError_none] at he
    rw [effect_makeLrOf]
    exact inv_setReservation hs he (haddr a (addr?_makeLrOf n h a))
  | invalidateLr h => exact inv_setReservation hs (hartError_none.mp he) (address_reservation_lt hs h)
  | invalidateOther n h a => rw [effect_invalidateOtherHartLrOf]; exact inv_sweep hs _
  | invalidateLrs n a => rw [effect_invalidateLrsOf]; exact inv_sweep hs _
  | lockAcq h => exact inv_lock hs (hartError_none.mp (or_none.mp he).1) (fun hheld => by cases hheld)
  | lockRel h => exact inv_lock hs hs.harts.1 (fun _ => rfl)
  | clearLastWrite h => exact inv_setLastWrite hs (fun hne => absurd rfl hne)
  | setHartCount d =>
    obtain ⟨hpos, hmax⟩ := hartCountError_none he
    exact inv_recreateHarts hs hpos hmax
  | defineArea k a d =>
    rw [firstError_defineAreaOf] at he
    rw [effect_defineAreaOf]
    exact inv_claimPages hs he k
  | defineMmrMask a d =>
    obtain ⟨hal, hmmr⟩ := maskError_none he
    exact inv_insertMask hs hal hmmr _
  | finishConfig d => exact inv_sealEffect hs (unsealed_of_configures rfl he) (d.getLsbD 0)

theorem inv_exec {i : Instr} {s t : State} (hs : Inv s) (hwf : i.wf s.cfg = true) (h : exec i s = .next t) : Inv t := by
  obtain ⟨k, -, rfl⟩ | ⟨he, rfl⟩ := exec_cases h
  · exact inv_resp hs _
  · exact inv_resp (inv_effect hs hwf he) _

/-- Settles O12: what the decoder answers is within the port's ranges, and such a command keeps the invariant. -/
theorem stepKeepsTheInvariant : Obligations.StepKeepsTheInvariant := by
  intro s t hs h
  obtain ⟨-, ⟨-, rfl⟩ | ⟨r, rest, why, -, -, rfl⟩ | ⟨r, rest, i, -, hdecode, hexec⟩⟩ := step_cases h
  · exact hs
  · exact inv_resp (inv_port hs rest) _
  · exact inv_exec (inv_port hs rest) (decode_wf hdecode) hexec

end Sys2Proof.Machine
end

