-- ==== Sys2Proof/Proofs/Frames.lean ====
section
/-! Which commands change which element of the state (R34): for each element, the commands outside its row leave it
as it was. -/

namespace Sys2Proof.Machine

/-! ## Memory (R21) -/

theorem byte_effect_of_not_storesTo {i : Instr} {s : State} (hm : s.mem.wf) {b : Nat} (hi : i.storesTo b = false) :
    (effect s i).mem.byte b = s.mem.byte b := by
  have houtside : ∀ {a : Nat} {n : Width}, (decide (a ≤ b) && decide (b < a + n.bytes)) = false →
      b < a ∨ a + n.bytes ≤ b := by
    intro a n h
    rw [Bool.and_eq_false_iff, decide_eq_false_iff_not, decide_eq_false_iff_not] at h
    omega
  cases i using Instr.familyCases with
  | readOnly i hi => rw [effect_of_readOnly hi]
  | write n h a d =>
    rw [storesTo_writeOf] at hi
    rw [effect_writeOf, writeEffect_mem, byte_memWrite_outside hm _ (houtside hi)]
  | poke n a d =>
    rw [storesTo_pokeOf] at hi
    rw [effect_pokeOf, pokeEffect_mem, byte_memWrite_outside hm _ (houtside hi)]
  | makeLr n h a => rw [effect_makeLrOf, setReservation_mem]
  | invalidateOther n h a => rw [effect_invalidateOtherHartLrOf, invalidateOthers_mem]
  | invalidateLrs n a => rw [effect_invalidateLrsOf, invalidateAll_mem]
  | defineArea k a d => rw [effect_defineAreaOf, claimPages_mem]
  | invalidateLr | lockAcq | lockRel | clearLastWrite | setHartCount | defineMmrMask | finishConfig => rfl

/-- Settles O18: a failure stores nothing, and neither does a success outside the bytes of a WRITE or POKE. -/
theorem memoryChangesOnlyByStores : Obligations.MemoryChangesOnlyByStores := by
  intro i s t b hs h hne
  obtain ⟨k, -, rfl⟩ | ⟨-, rfl⟩ := exec_cases h
  · exact absurd rfl hne
  · refine ⟨?_, _, rfl⟩
    by_contra hi
    exact hne (byte_effect_of_not_storesTo hs.mem (by simpa using hi))

/-! ## Attributes, masks, hart count, seal (R22, R25, R28, R29) -/

theorem config_effect_of_not_configures {i : Instr} (hi : i.configures = false) (s : State) :
    (effect s i).pma = s.pma ∧ (effect s i).mask = s.mask ∧ (effect s i).hartCount = s.hartCount ∧
      (effect s i).isSealed = s.isSealed := by
  cases i using Instr.familyCases with
  | readOnly i hi => simp [effect_of_readOnly hi]
  | write n h a d => simp
  | poke n a d => simp
  | makeLr n h a => simp
  | invalidateOther n h a => simp
  | invalidateLrs n a => simp
  | defineArea k a d => simp at hi
  | invalidateLr | lockAcq | lockRel | clearLastWrite => exact ⟨rfl, rfl, rfl, rfl⟩
  | setHartCount | defineMmrMask | finishConfig => cases hi

/-- Settles O19: a failure changes the response only, and a success of a command outside the row takes its effect. -/
theorem configurationChangesOnlyByConfiguring : Obligations.ConfigurationChangesOnlyByConfiguring := by
  intro i s t hi h
  obtain ⟨k, -, rfl⟩ | ⟨-, rfl⟩ := exec_cases h
  · exact ⟨rfl, rfl, rfl, rfl⟩
  · exact config_effect_of_not_configures hi s

/-- In a sealed block no command changes the configuration: one that would is refused. -/
theorem config_exec_of_sealed {i : Instr} {s t : State} (hs : s.isSealed = true) (h : exec i s = .next t) :
    t.pma = s.pma ∧ t.mask = s.mask ∧ t.hartCount = s.hartCount ∧ t.isSealed = s.isSealed := by
  cases hi : i.configures with
  | false => exact configurationChangesOnlyByConfiguring i s t hi h
  | true =>
    rw [exec_of_error (firstError_of_configures hs hi)] at h
    cases h
    exact ⟨rfl, rfl, rfl, rfl⟩

/-- Settles O20: the seal test stands before all others of a configuration command, and no other command unseals. -/
theorem sealIsPermanent : Obligations.SealIsPermanent := by
  refine ⟨fun i s hs hi => failsWith_of_error (firstError_of_configures hs hi), fun s t hs h => ?_⟩
  obtain ⟨-, ⟨-, rfl⟩ | ⟨r, rest, why, -, -, rfl⟩ | ⟨r, rest, i, -, -, hexec⟩⟩ := step_cases h
  · exact ⟨hs, rfl, rfl, rfl⟩
  · exact ⟨hs, rfl, rfl, rfl⟩
  · obtain ⟨hpma, hmask, hcount, hseal⟩ := config_exec_of_sealed (s := { s with port := rest }) hs hexec
    exact ⟨hseal.trans hs, hpma, hmask, hcount⟩

/-! ## Last-write slots and reservation records (R26, R27, R35) -/

theorem lastWrite_effect_of_not_writesSlot {i : Instr} {s : State} (hl : TableRising s.lw) {j : Nat}
    (hi : i.writesSlot j = false) : lastWrite (effect s i) j = lastWrite s j := by
  have hother : ∀ {h : Nat}, (h == j) = false → j ≠ h := by
    rintro h hne rfl
    simp at hne
  cases i using Instr.familyCases with
  | readOnly i hi => rw [effect_of_readOnly hi]
  | write n h a d =>
    rw [writesSlot_writeOf] at hi
    rw [effect_writeOf, lastWrite_writeEffect hl, if_neg (hother hi)]
  | clearLastWrite h => rw [effect, lastWrite_setLastWrite hl, if_neg (hother hi)]
  | setHartCount d => cases hi
  | poke n a d => rw [effect_pokeOf]; rfl
  | makeLr n h a => rw [effect_makeLrOf]; rfl
  | invalidateOther n h a => rw [effect_invalidateOtherHartLrOf]; rfl
  | invalidateLrs n a => rw [effect_invalidateLrsOf]; rfl
  | defineArea k a d => rw [effect_defineAreaOf]; rfl
  | invalidateLr | lockAcq | lockRel | defineMmrMask | finishConfig => rfl

/-- A command that writes a hart's slot carries the hart's id, SET_HART_COUNT apart. -/
theorem hart?_of_writesSlot {i : Instr} {j : Nat} (hi : i.writesSlot j = true) :
    i.hart? = some j ∨ ∃ d, i = .setHartCount d := by
  cases i <;> simp_all [Instr.writesSlot, Instr.hart?]

/-- A command that remakes a hart's record carries the hart's id. -/
theorem hart?_of_remakes {i : Instr} {j : Nat} (hi : i.remakes j = true) : i.hart? = some j := by
  cases i <;> simp_all [Instr.remakes, Instr.hart?]

/-- Settles O23: a failure writes no slot, and neither does a success of a command outside the row. -/
theorem lastWriteSlotWriters : Obligations.LastWriteSlotWriters := by
  intro i s t j hs h hne
  obtain ⟨k, -, rfl⟩ | ⟨-, rfl⟩ := exec_cases h
  · exact absurd rfl hne
  · refine ⟨?_, _, rfl⟩
    by_contra hi
    exact hne (lastWrite_effect_of_not_writesSlot hs.lw.1 (by simpa using hi))

/-- Settles O21: a command without hart `j`'s id neither writes the slot nor remakes the record, so by R191 it leaves
the record or clears it. -/
theorem otherHartsOnlyLoseReservations : Obligations.OtherHartsOnlyLoseReservations := by
  intro i s t j hs hhart hcount h
  obtain ⟨k, -, rfl⟩ | ⟨-, rfl⟩ := exec_cases h
  · exact ⟨rfl, Or.inl rfl⟩
  have hslot : i.writesSlot j = false := by
    by_contra hi
    obtain hj | ⟨d, hd⟩ := hart?_of_writesSlot (by simpa using hi)
    · exact hhart hj
    · exact hcount d hd
  have hremake : i.remakes j = false := by
    by_contra hi
    exact hhart (hart?_of_remakes (by simpa using hi))
  have hrecord := reservation_effect hs i j hremake
  rw [if_neg (not_exists.mpr hcount)] at hrecord
  refine ⟨lastWrite_effect_of_not_writesSlot hs.lw.1 hslot, ?_⟩
  by_cases hclear : i.clears j (reservation s j) = true
  · exact Or.inr (hrecord.trans (if_pos hclear))
  · exact Or.inl (hrecord.trans (if_neg hclear))

/-! ## The lock (R30, R189, R190) -/

theorem eq_of_not_leavesLock {i : Instr} (hi : i.leavesLock = false) :
    (∃ h, i = .lockAcq h) ∨ (∃ h, i = .lockRel h) ∨ ∃ d, i = .setHartCount d := by
  cases i <;> simp_all [Instr.leavesLock]

theorem lockAcqError_none {s : State} {h : Nat} (he : lockAcqError s h = none) : s.lock.held = false := by
  obtain ⟨-, hbusy⟩ := or_none.mp he
  simpa using hbusy

theorem lockRelError_none {s : State} {h : Nat} (he : lockRelError s h = none) :
    s.lock.held = true ∧ s.lock.owner = h := by
  obtain ⟨-, hholder⟩ := or_none.mp he
  simpa using hholder

/-- Settles O24: one of the three commands that do not leave the lock alone has passed its tests. -/
theorem lockChangesOnlyByItsCommands : Obligations.LockChangesOnlyByItsCommands := by
  intro i s t h hne
  have hi : i.leavesLock = false := by
    by_contra hl
    exact hne (lock_of_leavesLock (by simpa using hl) h)
  obtain ⟨k, -, rfl⟩ | ⟨he, rfl⟩ := exec_cases h
  · exact absurd rfl hne
  obtain ⟨j, rfl⟩ | ⟨j, rfl⟩ | ⟨d, rfl⟩ := eq_of_not_leavesLock hi
  · exact Or.inl ⟨j, rfl, lockAcqError_none he, rfl⟩
  · obtain ⟨hheld, rfl⟩ := lockRelError_none he
    exact Or.inr (Or.inl ⟨rfl, hheld, rfl⟩)
  · exact Or.inr (Or.inr ⟨d, rfl, unsealed_of_configures rfl he, rfl⟩)

end Sys2Proof.Machine
end

