-- ==== Sys2Proof/Proofs/Accesses.lean ====
section
/-! Accesses to memory: what a command that succeeds or fails says of its access, the attributes and masks an access
looks up, and the values that stores leave for the reads and fetches after them (R51 to R70). -/

namespace Sys2Proof.Machine

/-! ## Commands that change nothing (R65) -/

/-- Settles O17: a failure changes the response only, and so does a success of a command without effect. -/
theorem readOnlyCommandsChangeNothing : Obligations.ReadOnlyCommandsChangeNothing := by
  intro i s t hi h
  obtain ⟨k, -, rfl⟩ | ⟨-, rfl⟩ := exec_cases h
  · rfl
  · rw [effect_of_readOnly hi]

/-! ## Lookups (R55, R60) -/

theorem pmaOf_of_lt {s : State} {a : Nat} (ha : a < spaceSize s.cfg) : pmaOf s a = pmaPage s (pageIndex s.cfg a) :=
  if_pos ha

theorem pmaOf_of_le {s : State} {a : Nat} (ha : spaceSize s.cfg ≤ a) : pmaOf s a = Pma.unmapped :=
  if_neg (Nat.not_lt.mpr ha)

theorem maskOf_of_mem {s : State} {a : Nat} {m : Word32} (hs : TableRising s.mask) (hm : (a, m) ∈ s.mask) :
    maskOf s a = m := by
  rw [maskOf, tableFind_of_mem hs hm, Option.getD_some]

theorem maskOf_of_not_mem {s : State} {a : Nat} (hs : ∀ kv ∈ s.mask, kv.1 ≠ a) : maskOf s a = 0xFFFFFFFF#32 := by
  cases h : tableFind s.mask a with
  | none => rw [maskOf, h, Option.getD_none]
  | some m => exact absurd rfl (hs _ (mem_of_tableFind h))

/-- Settles O26: the lookups' cases, the page index being the quotient by the page size. -/
theorem lookupsAreTotal : Obligations.LookupsAreTotal := by
  intro s a
  refine ⟨fun ha => ?_, fun ha => ?_, fun m hm hs => maskOf_of_mem hs hm, maskOf_of_not_mem⟩
  · rw [pmaOf_of_lt ha, pageIndex_eq, pageSize]
  · rw [pmaOf_of_le ha]
    rfl

/-! ## The first failing test of an access (R61, R213) -/

/-- A command whose tests are those of an access fails with the first of them that fails. -/
theorem refusesInOrder_of_accessError {i : Instr} {s : State} {need : Need} {n : Width} {a : Nat}
    (hi : firstError s i = accessError s need n a) :
    RefusesInOrder i s need n a ∧ (Gated s need n a → ¬MmrRespected s n a → FailsWith i s .badMmrAccess) := by
  constructor
  · exact refusesInOrder_of fun k hk => hi.trans (accessError_of_gateError hk)
  · exact fun hg hm => failsWith_of_error (hi.trans (accessError_mmr hg hm))

theorem firstError_writeOf_of_hart {s : State} {h : Nat} (hh : h < s.hartCount) (n : Width) (a : Nat) (d : DataWord) :
    firstError s (.writeOf n h a d) = accessError s .write n a := by
  rw [firstError_writeOf, hartError_none.mpr hh, Option.none_or]

/-- Settles O29: the tests of a WRITE by a hart that exists, and of a POKE, are those of an access. -/
theorem writeAndPokeFailWithTheFirstFailingTest : Obligations.WriteAndPokeFailWithTheFirstFailingTest := by
  intro n h a d s hh q hq
  obtain rfl | rfl : q = _ ∨ q = _ := by simpa using hq
  · exact refusesInOrder_of_accessError (firstError_writeOf_of_hart hh n a d)
  · exact refusesInOrder_of_accessError (firstError_pokeOf s n a d)

/-- In bounds, permitted and outside MMR pages, the straddle test is the only one that can fail. -/
theorem accessError_of_plain {s : State} {need : Need} {n : Width} {a : Nat} (hbound : a + n.bytes ≤ spaceSize s.cfg)
    (hperm : need.holds (pmaOf s a) = true) (hmmr : (pmaOf s a).mmr = false) :
    accessError s need n a =
      if a % n.bytes ≠ 0 → pmaOf s a = pmaOf s (a + n.bytes - 1) then none else some .straddle := by
  split
  case isTrue hsame => exact accessError_none.mpr ⟨⟨hbound, hperm, hsame⟩, by simp [hmmr]⟩
  case isFalse hdiffer =>
    obtain ⟨hal, hne⟩ := Classical.not_imp.mp hdiffer
    exact accessError_of_gateError (gateError_straddle hbound hperm hal hne)

/-- The straddle test looks at the first and the last byte only, yet says the same of all bytes: each lies in the page
of one of the two (R57). -/
theorem pmaOf_bytes_alike_iff {s : State} (hc : validConfig s.cfg = true) {n : Width} {a : Nat}
    (hbound : a + n.bytes ≤ spaceSize s.cfg) :
    (∀ b, a ≤ b → b < a + n.bytes → pmaOf s b = pmaOf s a) ↔
      (a % n.bytes ≠ 0 → pmaOf s a = pmaOf s (a + n.bytes - 1)) := by
  have hn := width_bytes_pos n
  constructor
  · exact fun halike _ => (halike (a + n.bytes - 1) (by omega) (by omega)).symm
  · exact fun hsame b => pmaOf_bytes_alike hc hbound hsame

/-- Settles O33: such a read can fail by the straddle test only, and passes it exactly if all its bytes are alike. -/
theorem misalignedReadRejectedIffAttributesDiffer : Obligations.MisalignedReadRejectedIffAttributesDiffer := by
  intro n a s t hc hbound hread hmmr he
  have herror := (firstError_readOf s n a).trans (accessError_of_plain (need := .read) hbound hread hmmr)
  rw [succeeded_iff he, pmaOf_bytes_alike_iff hc hbound]
  split at herror
  case isTrue hsame => exact ⟨iff_of_true herror hsame, absurd herror⟩
  case isFalse hdiffer =>
    refine ⟨iff_of_false (by simp [herror]) hdiffer, fun _ => ?_⟩
    rw [exec_of_error herror] at he
    cases he
    rfl

/-! ## What a command that succeeds answers -/

theorem resp_of_succeeded {i : Instr} {s t : State} (he : exec i s = .next t) (ht : Succeeded t) :
    t.resp = some (.ok (result s i)) := by
  obtain ⟨-, rfl⟩ := exec_succeeded he ht
  rfl

theorem answer_eq_result {i : Instr} {s t : State} {ans : Answer} (h : Answers i s t ans) : ans = result s i := by
  obtain ⟨he, hresp⟩ := h
  have hok := resp_of_succeeded he ⟨ans, hresp⟩
  rw [hresp] at hok
  cases hok
  rfl

/-! ## The tests an access that succeeds has passed (R56, R59) -/

theorem bound_of_gateError {s : State} {need : Need} {n : Width} {a : Nat} (he : gateError s need n a = none) :
    a + n.bytes ≤ spaceSize s.cfg :=
  (gateError_none.mp he).1

theorem accessError_of_write {n : Width} {h a : Nat} {d : DataWord} {s t : State}
    (he : exec (.writeOf n h a d) s = .next t) (ht : Succeeded t) : accessError s .write n a = none := by
  have hpass := (succeeded_iff he).mp ht
  rw [firstError_writeOf] at hpass
  exact (or_none.mp hpass).2

theorem accessError_of_poke {n : Width} {a : Nat} {d : DataWord} {s t : State}
    (he : exec (.pokeOf n a d) s = .next t) (ht : Succeeded t) : accessError s .mapped n a = none := by
  rw [← firstError_pokeOf s n a d]
  exact (succeeded_iff he).mp ht

/-- A WRITE to an MMR page that succeeds is one of a word (R59). -/
theorem word_of_write_mmr {n : Width} {h a : Nat} {d : DataWord} {s t : State}
    (he : exec (.writeOf n h a d) s = .next t) (ht : Succeeded t) (hmmr : (pmaOf s a).mmr = true) : n = .w := by
  obtain ⟨-, hrespect⟩ := gated_of_accessError (accessError_of_write he ht)
  exact (hrespect hmmr).1

/-! ## Little-endian accesses (R51) -/

theorem memRead_byte (m : Memory) (a : Nat) {n : Width} {i : Nat} (hi : i < n.bytes) :
    (memRead m a n).toNat / 256 ^ i % 256 = (m.byte (a + i)).toNat := by
  rw [memRead_toNat, readBytes_byte m a n.bytes i hi]

theorem byte_memWrite_inside {m : Memory} (hm : m.wf) (a : Nat) {n : Width} (v : DataWord) {i : Nat}
    (hi : i < n.bytes) : ((memWrite m a n v).byte (a + i)).toNat = v.toNat / 256 ^ i % 256 := by
  rw [byte_memWrite hm, if_pos (by omega), Nat.add_sub_cancel_left, BitVec.toNat_ofNat]

/-- The old value a WRITE records is what memory held before it, on MMR pages too (R150; D15). -/
theorem prevValue_of_write {n : Width} {h a : Nat} {d : DataWord} {s t : State} (hs : Canonical s)
    (he : exec (.writeOf n h a d) s = .next t) (ht : Succeeded t) :
    (lastWrite t h).prevValue = memRead s.mem a n := by
  obtain ⟨-, rfl⟩ := exec_succeeded he ht
  have hslot : lastWrite (writeEffect n h a d s) h = writeRecord s n a d :=
    (lastWrite_writeEffect hs.lw.1 n h a d h).trans (if_pos rfl)
  rw [effect_writeOf]
  exact congrArg LastWrite.prevValue hslot

/-- Settles O25: the two wide accesses byte by byte, and which of them each command makes. -/
theorem littleEndianAccesses : Obligations.LittleEndianAccesses := by
  refine ⟨fun m a n v hm => ⟨fun i => memRead_byte m a, ?_, fun i => byte_memWrite_inside hm a v,
    fun b => byte_memWrite_outside hm v, wf_memWrite hm a n v⟩, ?_, ?_⟩
  · rw [pow_bytes]
    exact memRead_lt m a n
  · intro s t n a ht q hq he
    have hpass := (succeeded_iff he).mp ht
    rw [resp_of_succeeded he ht]
    obtain rfl | rfl | rfl : q = _ ∨ q = _ ∨ q = _ := by simpa using hq
    · rw [firstError_readOf] at hpass
      exact ⟨bound_of_accessError hpass, by rw [result_readOf]⟩
    · exact ⟨bound_of_gateError hpass, rfl⟩
    · exact ⟨bound_of_gateError hpass, rfl⟩
  · intro s t n h a d hs ht
    refine ⟨?_, fun he => prevValue_of_write hs he ht⟩
    rintro (he | he)
    · exact ⟨bound_of_accessError (accessError_of_write he ht), write_mem he ht⟩
    · exact ⟨bound_of_accessError (accessError_of_poke he ht), poke_mem he ht⟩

/-! ## Reading what was stored (R66, R70) -/

theorem storedValue_of_plain {s : State} {a : Nat} (hmmr : (pmaOf s a).mmr = false) (n : Width) (d : DataWord) :
    storedValue s n a d = dataOf n d := by
  simp [storedValue, hmmr]

theorem dataOf_word (d : DataWord) : dataOf .w d = (d.setWidth 32).setWidth 64 := by
  apply BitVec.eq_of_toNat_eq
  rw [dataOf_toNat, dataNat, BitVec.toNat_setWidth_of_le (by decide), BitVec.toNat_setWidth]
  rfl

theorem storedValue_word_of_mmr {s : State} {a : Nat} (hmmr : (pmaOf s a).mmr = true) (d : DataWord) :
    storedValue s .w a d = (d.setWidth 32 &&& maskOf s a).setWidth 64 := by
  rw [storedValue, if_pos hmmr, dataOf_word, BitVec.setWidth_and]

theorem memRead_of_stored {s t : State} (hs : Canonical s) {n : Width} {a : Nat} {d : DataWord}
    (ht : t.mem = memWrite s.mem a n (storedValue s n a d)) : memRead t.mem a n = storedValue s n a d := by
  rw [ht, memRead_memWrite hs.mem, dataOf_storedValue]

/-- Settles O38: the read answers the value stored, which is the low bytes or, of a word on an MMR page, the masked
word. -/
theorem readAfterWriteReturnsIt : Obligations.ReadAfterWriteReturnsIt := by
  intro n h a d s t u ans hs he ht hread
  have hans : ans.r = storedValue s n a d := by
    rw [answer_eq_result hread, result_readOf]
    exact memRead_of_stored hs (write_mem he ht)
  rw [hans]
  constructor
  · intro hplain
    rw [storedValue_of_plain hplain, dataOf_toNat, dataNat]
  · intro hmmr
    obtain rfl := word_of_write_mmr he ht hmmr
    exact storedValue_word_of_mmr hmmr d

/-- Settles O39: the fetch reads the same bytes of memory as a READ does. -/
theorem fetchSeesThePokedBytes : Obligations.FetchSeesThePokedBytes := by
  intro a d s t u ans hs hplain he ht hfetch
  have hmem : t.mem = memWrite s.mem a .w (storedValue s .w a d) := by
    obtain he | ⟨h, he⟩ := he
    · exact poke_mem (n := .w) he ht
    · exact write_mem (n := .w) he ht
  rw [answer_eq_result hfetch]
  calc memRead t.mem a .w = storedValue s .w a d := memRead_of_stored hs hmem
    _ = dataOf .w d := storedValue_of_plain hplain .w d
    _ = (d.setWidth 32).setWidth 64 := dataOf_word d

end Sys2Proof.Machine
end

