-- ==== Sys2Proof/Proofs/Encoding.lean ====
section
/-! The decoder as a relation between a command and the fields of its request: a request decodes to a command exactly if
its fields carry the command. The obligations about the encoder and the decoder are read from it (R91 to R96, R101). -/

namespace Sys2Proof

/-! ## The low byte of a header -/

/-- `CH[7:0]` of a command: the opcode table lists its rows in the order of the constructors of `Instr` (R94). -/
def Instr.lowByte (i : Instr) : Nat := tableLowBytes.getD i.ctorIdx 0

theorem lowByte_mem_table (i : Instr) : i.lowByte ∈ tableLowBytes :=
  List.mem_of_getElem? (i := i.ctorIdx) (by cases i <;> rfl)

/-- No row of the table has `z = 1` (R95). -/
theorem lt_of_mem_table {b : Nat} (hb : b ∈ tableLowBytes) : b < 128 :=
  (by decide : ∀ b ∈ tableLowBytes, b < 128) b hb

theorem header_toNat_mod {op sz h : Nat} (ho : op < 32) (hs : sz < 4) : (header op sz h).toNat % 256 = sz * 32 + op := by
  rw [header, BitVec.toNat_ofNat]
  omega

theorem sz_op_of_zField {ch : Word32} (hz : zField ch = 0) : szField ch * 32 + opField ch = ch.toNat % 256 := by
  unfold zField at hz
  unfold szField opField
  omega

/-! ## The command that a request's fields carry -/

/-- `i` is the command with low header byte `b`, and each of the operands `h`, `a`, `d` that `i` has is its own. -/
structure Instr.CarriedBy (i : Instr) (b h a : Nat) (d : DataWord) : Prop where
  lowByte : i.lowByte = b
  hart : i.hart?.getD h = h
  addr : i.addr?.getD a = a
  data : i.data?.getD d = d

/-- The rows of the table at every operand. -/
theorem decodeFields_lowByte (i : Instr) (h a : Nat) (d : DataWord) :
    decodeFields (i.lowByte % 32) (i.lowByte / 32) (i.hart?.getD h) (i.addr?.getD a) (i.data?.getD d) = .command i := by
  cases i <;> with_unfolding_all rfl

theorem carriedBy_of_decodeFields {op sz h a : Nat} {d : DataWord} {i : Instr} (hs : sz < 4)
    (hd : decodeFields op sz h a d = .command i) : i.CarriedBy (sz * 32 + op) h a d := by
  unfold decodeFields at hd
  split at hd
  case h_2 => split at hd <;> cases hd <;> exact ⟨rfl, rfl, rfl, rfl⟩
  case h_23 => cases hd
  case h_1 | h_3 | h_4 | h_5 | h_7 | h_10 | h_11 =>
    cases hd
    interval_cases sz <;> exact ⟨rfl, rfl, rfl, rfl⟩
  all_goals
    obtain ⟨rfl, rfl⟩ := unsized_command hd
    exact ⟨rfl, rfl, rfl, rfl⟩

/-- A header with `z = 0` is decoded from its low byte and its hart field. -/
theorem decode_of_lowByte_lt {c : Config} {r : Request} (hb : r.ch.toNat % 256 < 128) :
    decode c r =
      decodeFields (r.ch.toNat % 256 % 32) (r.ch.toNat % 256 / 32) (hartField r.ch) (addrOperand c r.a) r.d := by
  have hz : zField r.ch = 0 := by unfold zField; omega
  have hop : opField r.ch = r.ch.toNat % 256 % 32 := by unfold opField; omega
  have hsz : szField r.ch = r.ch.toNat % 256 / 32 := by unfold szField; omega
  rw [decode, if_pos hz, hop, hsz]

/-- What the decoder answers, in both directions. -/
theorem decode_eq_command_iff {c : Config} {r : Request} {i : Instr} :
    decode c r = .command i ↔ i.CarriedBy (r.ch.toNat % 256) (hartField r.ch) (addrOperand c r.a) r.d := by
  constructor
  · intro hd
    unfold decode at hd
    split at hd
    case isTrue hz => exact sz_op_of_zField hz ▸ carriedBy_of_decodeFields (szField_lt r.ch) hd
    case isFalse => cases hd
  · rintro ⟨hbyte, hhart, haddr, hdata⟩
    rw [decode_of_lowByte_lt (hbyte ▸ lt_of_mem_table (lowByte_mem_table i)), ← hbyte]
    have hrow := decodeFields_lowByte i (hartField r.ch) (addrOperand c r.a) r.d
    rwa [hhart, haddr, hdata] at hrow

/-- Every row of the table is a command, whatever its operands. -/
theorem decodeFields_of_mem_table {b : Nat} (hb : b ∈ tableLowBytes) (h a : Nat) (d : DataWord) :
    ∃ i, decodeFields (b % 32) (b / 32) h a d = .command i := by
  simp only [tableLowBytes, List.cons_append, List.nil_append, List.mem_cons, List.not_mem_nil, or_false] at hb
  repeat' obtain rfl | hb := hb
  all_goals exact ⟨_, rfl⟩

/-! ## The encoder -/

/-- The encoder puts the row's low byte and the command's operands in their fields, and 0 where it has none (log
entry 10). -/
theorem encode_eq (i : Instr) :
    encode i = ⟨header (i.lowByte % 32) (i.lowByte / 32) (i.hart?.getD 0), i.addr?.getD 0, i.data?.getD 0⟩ := by
  cases i <;> with_unfolding_all rfl

theorem encode_ch_mod (i : Instr) : (encode i).ch.toNat % 256 = i.lowByte := by
  have hb := lt_of_mem_table (lowByte_mem_table i)
  rw [encode_eq, header_toNat_mod (by omega) (by omega)]
  omega

theorem getD_zero_lt {o : Option Nat} {n : Nat} (ho : ∀ x, o = some x → x < 2 ^ n) : o.getD 0 < 2 ^ n := by
  cases o with
  | none => exact Nat.two_pow_pos n
  | some x => exact ho x rfl

/-! ## The obligations -/

/-- Settles O1: a well-formed command's operands fit their fields, so the decoder finds the row and the operands the
encoder put there. -/
theorem decodeOfEncodeIsTheCommand : Obligations.DecodeOfEncodeIsTheCommand := by
  intro c i hwf
  obtain ⟨hhart, haddr⟩ := wf_iff.mp hwf
  have hb := lt_of_mem_table (lowByte_mem_table i)
  rw [encode_eq, decode_header _ (by omega) (by omega) (getD_zero_lt hhart), addrOperand_of_lt (getD_zero_lt haddr)]
  exact decodeFields_lowByte i 0 0 0

/-- Settles O2: what is decoded has a row's low byte, and every row decodes. -/
theorem headerIsCommandIffInTable : Obligations.HeaderIsCommandIffInTable := by
  intro c r
  constructor
  · rintro ⟨i, hd⟩
    exact (decode_eq_command_iff.mp hd).lowByte ▸ lowByte_mem_table i
  · intro hb
    rw [decode_of_lowByte_lt (lt_of_mem_table hb)]
    exact decodeFields_of_mem_table hb _ _ _

/-- Settles O3: the fields that carry a command, one by one. -/
theorem decodedCommandCarriesTheFields : Obligations.DecodedCommandCarriesTheFields := by
  intro c r i hd
  obtain ⟨hbyte, hhart, haddr, hdata⟩ := decode_eq_command_iff.mp hd
  refine ⟨decode_wf hd, (encode_ch_mod i).trans hbyte, fun h hi => ?_, fun a hi => ?_, fun d hi => ?_⟩
  · rwa [hi] at hhart
  · rwa [hi] at haddr
  · rwa [hi] at hdata

/-- Settles O4: a command without a hart id is carried by any hart field. -/
theorem hartFieldIgnoredWhereUnused : Obligations.HartFieldIgnoredWhereUnused := by
  intro c r i ch hd hhart hch
  obtain ⟨hbyte, -, haddr, hdata⟩ := decode_eq_command_iff.mp hd
  exact decode_eq_command_iff.mpr ⟨hbyte.trans hch.symm, by rw [hhart, Option.getD_none], haddr, hdata⟩

/-- Settles O5: four headers carry their commands, and opcode 0 has no row. -/
theorem sampleHeadersDecode : Obligations.SampleHeadersDecode := by
  refine ⟨?_, ?_, ?_, ?_, rfl⟩ <;> exact decode_eq_command_iff.mpr ⟨rfl, rfl, rfl, rfl⟩

end Sys2Proof
end

