-- ==== Sys2Proof/Proofs/Requests.lean ====
section
/-! What the block makes of a request's fields: a reserved header (R95), a hart id out of range (R93), bits of `D` a
command does not use (R96), and the response that every command ends in (R90). -/

namespace Sys2Proof.Machine

/-! ## Responses (R90, R95) -/

theorem decode_of_not_mem_table {r : Request} (hr : r.ch.toNat % 256 ∉ tableLowBytes) (c : Config) :
    ∃ why, decode c r = .reserved why := by
  cases hd : decode c r with
  | command i => exact absurd ((headerIsCommandIffInTable c r).mp ⟨i, hd⟩) hr
  | reserved why => exact ⟨why, rfl⟩

theorem step_of_takeRequest_reserved {s t : State} {r : Request} {why : ReservedWhy} (hcfg : validConfig s.cfg = true)
    (htake : takeRequest s = some (r, t)) (hdecode : decode t.cfg r = .reserved why) : step s = raise t .badCommand := by
  simp [step, hcfg, htake, hdecode]

/-- Settles O8: a low byte outside the table is reserved, and the step raises the failure with the request taken. -/
theorem reservedHeaderAnswersBadCommand : Obligations.ReservedHeaderAnswersBadCommand := by
  intro s r rest hcfg hport hr
  obtain ⟨why, hdecode⟩ := decode_of_not_mem_table hr s.cfg
  exact step_of_takeRequest_reserved hcfg (takeRequest_of_port_cons hport) hdecode

/-- Settles O14: a command that fails and one that takes its effect both leave a response, and no effect touches the
parameters or the port. -/
theorem everyCommandAnswers : Obligations.EveryCommandAnswers := by
  intro i s
  cases he : firstError s i with
  | some k => exact ⟨_, _, exec_of_error he, rfl, rfl, rfl⟩
  | none => exact ⟨_, _, exec_of_none he, rfl, effect_cfg i s, effect_port i s⟩

/-! ## The hart-id test (R93, R213) -/

/-- The hart-id test comes first in every command that carries a hart id. -/
theorem firstError_of_hartError {i : Instr} {s : State} {h : Nat} {k : ErrKind} (hi : i.hart? = some h)
    (he : hartError s h = some k) : firstError s i = some k := by
  have hor (e : Option ErrKind) : (hartError s h).or e = some k := by rw [he, Option.some_or]
  cases i
  case writeB | writeH | writeW | writeD | lockAcq | lockRel => cases hi; exact hor _
  all_goals cases hi <;> exact he

/-- Settles O22: the hart-id test fails, before any other. -/
theorem hartIdOutOfRangeRefused : Obligations.HartIdOutOfRangeRefused := by
  intro i s h hi hle
  exact failsWith_of_error (firstError_of_hartError hi (hartError_some.mpr ⟨Nat.not_lt.mpr hle, rfl⟩))

/-! ## The bits of `D` that a command uses (R96) -/

theorem exec_congr {i j : Instr} {s : State} (herror : firstError s i = firstError s j)
    (heffect : effect s i = effect s j) (hresult : result s i = result s j) : exec i s = exec j s := by
  rw [exec_eq, exec_eq, herror, heffect, hresult]

theorem storedValue_congr {n : Width} {d e : DataWord} (hde : dataNat n d = dataNat n e) (s : State) (a : Nat) :
    storedValue s n a d = storedValue s n a e := by
  unfold storedValue dataOf
  rw [hde]

/-- Settles O6: `D` reaches a store or a check through the value stored, which the low bytes give; DEFINE_MMR_MASK keeps
`D[31:0]`, and FINISH_CONFIG looks at `D[0]`. -/
theorem unusedDataBitsIgnored : Obligations.UnusedDataBitsIgnored := by
  refine ⟨fun n h a d e s hde => ?_, fun a d e s hde => ?_, fun d e s hde => ?_⟩
  · have hstored := storedValue_congr hde s a
    refine ⟨?write, ?check, ?poke⟩
    case write => exact exec_congr (by simp) (by simp [writeEffect, writeRecord, hstored]) (by simp)
    case check => exact exec_congr (by simp) (by simp) (by simp [hstored])
    case poke => exact exec_congr (by simp) (by simp [pokeEffect, hstored]) (by simp)
  · exact exec_congr rfl (by simp only [effect, hde]) rfl
  · exact exec_congr rfl (by simp only [effect, hde]) rfl

end Sys2Proof.Machine
end

