-- ==== Sys2Proof/Proofs/PmaConfig.lean ====
section
/-! The PMA decoder and the configuration commands: when each command's tests pass, what its effect leaves of the
attributes and masks, and the obligations of GET_PMA and of the commands that configure the block (R120 to R127). -/

namespace Sys2Proof.Machine

/-! ## Refusals (R121, R122, R126, R127) -/

theorem hartCountError_some {s : State} {n : Nat} {k : ErrKind} (h : hartCountError s n = some k) :
    k = .configError := by
  unfold hartCountError at h
  split_ifs at h <;> cases h
  all_goals rfl

theorem areaError_some {s : State} {a z : Nat} {k : ErrKind} (h : areaError s a z = some k) : k = .configError := by
  unfold areaError at h
  split_ifs at h <;> cases h
  all_goals rfl

theorem maskError_some {s : State} {a : Nat} {k : ErrKind} (h : maskError s a = some k) : k = .configError := by
  unfold maskError at h
  split_ifs at h <;> cases h
  all_goals rfl

theorem firstError_some_of_configures {i : Instr} {s : State} {k : ErrKind} (hi : i.configures = true)
    (h : firstError s i = some k) : k = .configError := by
  cases i
  case setHartCount d => exact hartCountError_some h
  case defineIccm a d => exact areaError_some h
  case defineDccm a d => exact areaError_some h
  case defineMmrArea a d => exact areaError_some h
  case defineMmrMask a d => exact maskError_some h
  case finishConfig d =>
    rw [firstError] at h
    split_ifs at h
    cases h
    rfl
  all_goals cases hi

/-- A configuration command whose tests do not all pass fails with `ConfigError`, whichever test it is. -/
theorem failsWith_configError {i : Instr} {s : State} (hi : i.configures = true) (he : firstError s i ≠ none) :
    FailsWith i s .configError := by
  obtain ⟨k, hk⟩ := Option.ne_none_iff_exists'.mp he
  rw [← firstError_some_of_configures hi hk]
  exact failsWith_of_error hk

/-! ## Areas (R122 to R125) -/

/-- The tests of R122 steps 2 to 5 on an area at `a` of `z` bytes, read address by address. -/
structure LegalArea (s : State) (a z : Nat) : Prop where
  addrAligned : a % pageSize s.cfg = 0
  sizeAligned : z % pageSize s.cfg = 0
  nonempty : z ≠ 0
  inSpace : a + z ≤ spaceSize s.cfg
  unclaimed : ∀ b, a ≤ b → b < a + z → (pmaOf s b).claimed = false

/-- Every page of a page-aligned area is the page of an address of the area. -/
theorem exists_address_of_area_page {s : State} {a z p : Nat} (ha : a % pageSize s.cfg = 0)
    (hz : z % pageSize s.cfg = 0) (hlo : areaFirst s a ≤ p) (hhi : p < areaFirst s a + areaPages s a z) :
    ∃ b, pageIndex s.cfg b = p ∧ a ≤ b ∧ b < a + z := by
  have hpage : pageIndex s.cfg (p * pageSize s.cfg) = p := by
    rw [pageIndex_eq]
    exact Nat.mul_div_cancel p (Nat.two_pow_pos _)
  exact ⟨p * pageSize s.cfg, hpage, (page_mem_area ha hz).mp (by rw [hpage]; exact ⟨hlo, hhi⟩)⟩

theorem legalArea_of_areaError {s : State} {a z : Nat} (he : areaError s a z = none) : LegalArea s a z := by
  obtain ⟨-, ha, hz, hne, hbound, hfree⟩ := areaError_none he
  refine ⟨ha, hz, hne, hbound, fun b hlo hhi => ?_⟩
  rw [pmaOf_of_lt (by omega)]
  obtain ⟨hpageLo, hpageHi⟩ := (page_mem_area ha hz).mpr ⟨hlo, hhi⟩
  exact hfree _ hpageLo hpageHi

theorem LegalArea.page_unclaimed {s : State} {a z p : Nat} (h : LegalArea s a z) (hlo : areaFirst s a ≤ p)
    (hhi : p < areaFirst s a + areaPages s a z) : (pmaPage s p).claimed = false := by
  obtain ⟨b, rfl, hab, hbz⟩ := exists_address_of_area_page h.addrAligned h.sizeAligned hlo hhi
  have hbound := h.inSpace
  rw [← pmaOf_of_lt (by omega)]
  exact h.unclaimed b hab hbz

theorem LegalArea.areaError_eq_none {s : State} {a z : Nat} (h : LegalArea s a z) (hopen : s.isSealed = false) :
    areaError s a z = none := by
  have hpages : ((List.range' (areaFirst s a) (areaPages s a z)).any fun p => (pmaPage s p).claimed) = false := by
    rw [List.any_eq_false]
    intro p hp
    obtain ⟨hlo, hhi⟩ := List.mem_range'_1.mp hp
    simp [h.page_unclaimed hlo hhi]
  simp [areaError, hopen, h.addrAligned, h.sizeAligned, h.nonempty, h.inSpace, hpages]

/-- Claiming the pages of a legal area replaces the attributes at its addresses and at no other. -/
theorem LegalArea.pmaOf_claimPages {s : State} {a z : Nat} (h : LegalArea s a z) (hp : TableWf Pma.plain s.pma)
    (q : Pma) (b : Nat) : pmaOf (claimPages s a z q) b = if a ≤ b ∧ b < a + z then q else pmaOf s b := by
  by_cases hb : b < spaceSize s.cfg
  · rw [pmaOf_of_lt (s := claimPages s a z q) hb, claimPages_cfg, pmaPage_claimPages hp, pmaOf_of_lt hb]
    exact if_congr (page_mem_area h.addrAligned h.sizeAligned) rfl rfl
  · have hout : ¬(a ≤ b ∧ b < a + z) := fun hin => hb (Nat.lt_of_lt_of_le hin.2 h.inSpace)
    rw [if_neg hout, pmaOf_of_le (by simpa using hb), pmaOf_of_le (by simpa using hb)]

@[simp] theorem result_defineAreaOf (s : State) (k : AreaKind) (a : Nat) (d : DataWord) :
    result s (.defineAreaOf k a d) = ⟨0, 0, 0⟩ := by
  cases k <;> rfl

theorem LegalArea.answers_defineAreaOf {s : State} {a : Nat} {d : DataWord} (h : LegalArea s a d.toNat)
    (hopen : s.isSealed = false) (k : AreaKind) :
    Answers (.defineAreaOf k a d) s { claimPages s a d.toNat k.page with resp := some (.ok ⟨0, 0, 0⟩) } ⟨0, 0, 0⟩ := by
  have hnone : firstError s (.defineAreaOf k a d) = none := by
    rw [firstError_defineAreaOf]
    exact h.areaError_eq_none hopen
  simpa only [effect_defineAreaOf, result_defineAreaOf] using answers_of_none hnone

/-- A list written kind by kind holds one item for each kind of area. -/
theorem exists_areaKind_of_mem {α : Type} {f : AreaKind → α} {x : α} (hx : x ∈ [f .iccm, f .dccm, f .mmr]) :
    ∃ k, x = f k := by
  simp only [List.mem_cons, List.not_mem_nil, or_false] at hx
  obtain rfl | rfl | rfl := hx
  · exact ⟨.iccm, rfl⟩
  · exact ⟨.dccm, rfl⟩
  · exact ⟨.mmr, rfl⟩

/-- Settles O43: the area is legal, so its pages are claimed, and the pages are those of its addresses. -/
theorem defineAreaCompletes : Obligations.DefineAreaCompletes := by
  intro a d s hs hopen ha hz hne hbound hfree q hq
  obtain ⟨k, rfl⟩ : ∃ k, q = (.defineAreaOf k a d, k.page.bits) := exists_areaKind_of_mem hq
  have harea : LegalArea s a d.toNat := ⟨ha, hz, hne, hbound, hfree⟩
  refine ⟨_, harea.answers_defineAreaOf hopen k, fun b hlo hhi => ?inside, fun b hb => ?outside,
    rfl, rfl, rfl, rfl, rfl, rfl, rfl, rfl, rfl⟩
  case inside => rw [pmaOf_resp, harea.pmaOf_claimPages hs.pma, if_pos ⟨hlo, hhi⟩]
  case outside => rw [pmaOf_resp, harea.pmaOf_claimPages hs.pma, if_neg (by omega)]

/-- Settles O44: an area that passes the tests is legal, and each clause says that it is not. -/
theorem badAreaRefusedWhole : Obligations.BadAreaRefusedWhole := by
  intro a d s hbad i hi
  obtain ⟨k, rfl⟩ : ∃ k, i = .defineAreaOf k a d := exists_areaKind_of_mem hi
  refine failsWith_configError (configures_defineAreaOf k a d) fun he => ?_
  rw [firstError_defineAreaOf] at he
  have harea := legalArea_of_areaError he
  obtain haddr | hsize | hempty | hbeyond | ⟨b, hlo, hhi, hclaimed⟩ := hbad
  · exact haddr harea.addrAligned
  · exact hsize harea.sizeAligned
  · exact harea.nonempty hempty
  · exact Nat.not_lt.mpr harea.inSpace hbeyond
  · simp [harea.unclaimed b hlo hhi] at hclaimed

/-! ## FINISH_CONFIG (R127) -/

/-- Sealing settles `write` alone: the `iccm_rw` flag is for ICCM pages, the DCCM policy for DCCM pages, and no page is
both (R23). -/
theorem sealPage_eq {q : Pma} (hq : ¬(q.iccm = true ∧ q.dccm = true)) (iccmRw dccmRo : Bool) :
    sealPage iccmRw dccmRo q =
      { q with
        write :=
          if q.iccm = true ∧ iccmRw = true then true
          else if q.dccm = true ∧ dccmRo = true then false
          else q.write } := by
  obtain ⟨r, w, e, m, iccm, dccm⟩ := q
  cases iccm with
  | true =>
    obtain rfl : dccm = false := by simpa using hq
    cases iccmRw <;> simp [sealPage]
  | false => cases dccm <;> cases dccmRo <;> simp [sealPage]

/-- Settles O46: before the seal the command makes its effect, page by page that of `sealPage`. -/
theorem finishConfigCompletes : Obligations.FinishConfigCompletes := by
  intro d s hs hv hopen
  have hnone : firstError s (.finishConfig d) = none := by simp [firstError, hopen]
  refine ⟨_, answers_of_none hnone, rfl, fun p => ?_, rfl⟩
  obtain ⟨-, -, -, hkinds, -⟩ := hv p
  exact (pmaPage_sealEffect hs.pma.1 (d.getLsbD 0) p).trans (sealPage_eq hkinds (d.getLsbD 0) s.cfg.dccmRo)

/-! ## GET_PMA (R120) -/

/-- The bit order of R22. -/
theorem getLsbD_setWidth_bits (q : Pma) :
    (q.bits.setWidth 64).getLsbD 0 = q.read ∧ (q.bits.setWidth 64).getLsbD 1 = q.write ∧
    (q.bits.setWidth 64).getLsbD 2 = q.exec ∧ (q.bits.setWidth 64).getLsbD 3 = q.mmr ∧
    (q.bits.setWidth 64).getLsbD 4 = q.iccm ∧ (q.bits.setWidth 64).getLsbD 5 = q.dccm := by
  obtain ⟨r, w, e, m, i, d⟩ := q
  revert r w e m i d
  decide

theorem toNat_setWidth_bits_lt (q : Pma) : (q.bits.setWidth 64).toNat < 64 := by
  rw [BitVec.toNat_setWidth]
  exact Nat.lt_of_le_of_lt (Nat.mod_le _ _) q.bits.isLt

/-- Settles O41: the command has no test; it answers the bits of the page, or of the unmapped value at and above `N`. -/
theorem getPmaCompletes : Obligations.GetPmaCompletes := by
  intro a s
  refine ⟨result s (.getPma a), exec_of_none rfl, rfl, rfl, fun ha => ?beyond, fun ha => ?within⟩
  case beyond =>
    rw [result, pmaOf_of_le ha]
    rfl
  case within =>
    rw [result, pmaOf_of_lt ha, pageIndex_eq]
    obtain ⟨hread, hwrite, hexec, hmmr, hiccm, hdccm⟩ := getLsbD_setWidth_bits (pmaPage s (a / pageSize s.cfg))
    exact ⟨hread, hwrite, hexec, hmmr, hiccm, hdccm, toNat_setWidth_bits_lt _⟩

/-! ## SET_HART_COUNT (R121) -/

theorem hartCountError_of_legal {s : State} {n : Nat} (hopen : s.isSealed = false) (hpos : 1 ≤ n)
    (hmax : n ≤ maxHarts) : hartCountError s n = none := by
  simp [hartCountError, hopen, Nat.ne_of_gt hpos, hmax]

/-- Settles O42: the tests pass for a legal count before the seal, and the tables the effect leaves are empty; each
clause of a refusal contradicts what the tests say when they pass. -/
theorem setHartCountCompletes : Obligations.SetHartCountCompletes := by
  intro d s
  refine ⟨fun hopen hpos hmax => ?accepted, fun hbad => failsWith_configError rfl fun he => ?refused⟩
  case accepted =>
    have hnone : firstError s (.setHartCount d) = none := hartCountError_of_legal hopen hpos hmax
    exact ⟨_, answers_of_none hnone, rfl, fun h => ⟨rfl, rfl⟩, rfl, rfl, rfl, rfl, rfl, rfl, rfl⟩
  case refused =>
    obtain ⟨hpos, hmax⟩ := hartCountError_none he
    obtain hsealed | hzero | hlarge := hbad
    · simp [unsealed_of_configures rfl he] at hsealed
    · omega
    · exact Nat.not_lt.mpr hmax hlarge

/-! ## DEFINE_MMR_MASK (R126) -/

theorem maskError_of_legal {s : State} {a : Nat} (hopen : s.isSealed = false) (hal : a % 4 = 0)
    (hmmr : (pmaOf s a).mmr = true) : maskError s a = none := by
  simp [maskError, hopen, hal, hmmr]

theorem maskOf_insertMask (s : State) (a b : Nat) (x : Word32) :
    maskOf { s with mask := tableInsert s.mask a x } b = if b = a then x else maskOf s b := by
  unfold maskOf
  rw [tableFind_insert]
  split <;> rfl

theorem maskOf_resp (s : State) (r : Option Response) (b : Nat) : maskOf { s with resp := r } b = maskOf s b := rfl

/-- Settles O45: the effect is one entry of the mask table, and each clause of a refusal contradicts what the tests say
when they pass. -/
theorem defineMmrMaskCompletes : Obligations.DefineMmrMaskCompletes := by
  intro a d s hopen
  refine ⟨fun hal hmmr => ?accepted, fun hbad => failsWith_configError rfl fun he => ?refused⟩
  case accepted =>
    have hnone : firstError s (.defineMmrMask a d) = none := maskError_of_legal hopen hal hmmr
    refine ⟨_, answers_of_none hnone, ?_, fun b hb => ?_, rfl⟩
    · rw [maskOf_resp, effect, maskOf_insertMask, if_pos rfl]
    · rw [maskOf_resp, effect, maskOf_insertMask, if_neg hb]
  case refused =>
    obtain ⟨hal, hmmr⟩ := maskError_none he
    obtain hoff | hplain := hbad
    · exact hoff hal
    · simp [hmmr] at hplain

end Sys2Proof.Machine
end

