-- ==== Sys2Proof/Proofs/ReadFetch.lean ====
section
/-! Data reads and instruction fetch: what a command without effect answers when its tests pass, what the gate says of
every byte of an access, and the obligations of READ and READ_INST (R140 to R147). -/

namespace Sys2Proof.Machine

/-! ## Commands that change nothing (R65) -/

@[simp] theorem readOnly_readOf (n : Width) (a : Nat) : (Instr.readOf n a).readOnly = true := by
  cases n <;> rfl

/-- A command without effect that passes its tests answers its result and leaves the state as it was. -/
theorem exec_readOnly_of_none {i : Instr} {s : State} (hi : i.readOnly = true) (h : firstError s i = none) :
    exec i s = .next { s with resp := some (.ok (result s i)) } := by
  rw [exec_of_none h, effect_of_readOnly hi]

/-! ## The gate (R61) -/

theorem gateError_none_iff_gated {s : State} {need : Need} {n : Width} {a : Nat} :
    gateError s need n a = none ↔ Gated s need n a := by
  rw [gateError_none]
  exact ⟨fun ⟨hbound, hperm, hsame⟩ => ⟨hbound, hperm, hsame⟩,
    fun ⟨hbound, hperm, hsame⟩ => ⟨hbound, hperm, hsame⟩⟩

/-- The gate looks at the first and the last byte, yet every byte of an access that passes it is in bounds and has the
attribute (R56, R57). -/
theorem Gated.inBounds_and_holds_byte {s : State} {need : Need} {n : Width} {a b : Nat} (hg : Gated s need n a)
    (hc : validConfig s.cfg = true) (hlo : a ≤ b) (hhi : b < a + n.bytes) :
    b < spaceSize s.cfg ∧ need.holds (pmaOf s b) = true := by
  refine ⟨Nat.lt_of_lt_of_le hhi hg.inBounds, ?_⟩
  rw [pmaOf_bytes_alike hc hg.inBounds hg.noStraddle hlo hhi]
  exact hg.permitted

/-! ## Data reads (R140 to R144) -/

theorem lowByte_readOf (n : Width) (a : Nat) : (Instr.readOf n a).lowByte = n.sz * 32 + 0x01 := by
  cases n <;> rfl

/-- Settles O30: a READ has no effect and makes the tests of an access. -/
theorem readCompletes : Obligations.ReadCompletes := by
  intro n a s
  have herror : firstError s (.readOf n a) = accessError s .read n a := firstError_readOf s n a
  obtain ⟨hrefuses, hmmr⟩ := refusesInOrder_of_accessError herror
  refine ⟨fun hg hm => ?passes, hrefuses, hmmr, ?lowByte⟩
  case passes =>
    have hnone : firstError s (.readOf n a) = none := herror.trans (accessError_of_gated hg hm)
    rw [exec_readOnly_of_none (readOnly_readOf n a) hnone, result_readOf]
  case lowByte => rw [encode_ch_mod, lowByte_readOf]

/-! ## Instruction fetch (R145 to R147) -/

/-- Settles O31: a fetch has no effect and makes the gate's tests and no other. -/
theorem fetchCompletes : Obligations.FetchCompletes := by
  intro a s
  refine ⟨fun hg => ?half, fun hg => ?word, refusesInOrder_of fun _ => id, refusesInOrder_of fun _ => id,
    encode_ch_mod _, encode_ch_mod _⟩
  case half => exact exec_readOnly_of_none (i := .readInstHalf a) rfl (gateError_none_iff_gated.mpr hg)
  case word => exact exec_readOnly_of_none (i := .readInstWord a) rfl (gateError_none_iff_gated.mpr hg)

/-- Settles O32: a fetch that succeeds has passed the gate for `exec`, which speaks for each of its bytes. -/
theorem fetchedBytesAreExecutable : Obligations.FetchedBytesAreExecutable := by
  intro a b s t hc ht q hq he hlo hhi
  have hpass : firstError s q.2 = none := (succeeded_iff he).mp ht
  have hg : Gated s .exec q.1 a := by
    obtain rfl | rfl : q = (.h, .readInstHalf a) ∨ q = (.w, .readInstWord a) := by simpa using hq
    all_goals exact gateError_none_iff_gated.mp hpass
  exact hg.inBounds_and_holds_byte hc hlo hhi

end Sys2Proof.Machine
end

