-- ==== Sys2Proof/Proofs/WritePoke.lean ====
section
/-! Data writes, the dry-run check and the poke: how each completes when its tests pass, what a store leaves of the rest
of the state, and the obligations of WRITE, CHECK_WRITE and POKE (R150 to R164). -/

namespace Sys2Proof.Machine

/-! ## The answer when the tests pass (R150, R155, R160) -/

theorem answers_writeOf_of_gated {s : State} {n : Width} {h a : Nat} (hh : h < s.hartCount) (hg : Gated s .write n a)
    (hm : MmrRespected s n a) (d : DataWord) :
    Answers (.writeOf n h a d) s { writeEffect n h a d s with resp := some (.ok ⟨0, 0, 0⟩) } ⟨0, 0, 0⟩ := by
  have hpass : firstError s (.writeOf n h a d) = none :=
    (firstError_writeOf_of_hart hh n a d).trans (accessError_of_gated hg hm)
  simpa using answers_of_none hpass

theorem answers_pokeOf_of_gated {s : State} {n : Width} {a : Nat} (hg : Gated s .mapped n a) (hm : MmrRespected s n a)
    (d : DataWord) :
    Answers (.pokeOf n a d) s { pokeEffect n a d s with resp := some (.ok ⟨0, 0, 0⟩) } ⟨0, 0, 0⟩ := by
  have hpass : firstError s (.pokeOf n a d) = none := (firstError_pokeOf s n a d).trans (accessError_of_gated hg hm)
  simpa using answers_of_none hpass

/-! ## What a store leaves of the rest (R34) -/

theorem sameControl_resp {s t : State} (hst : SameControl s t) (r : Option Response) :
    SameControl s { t with resp := r } :=
  ⟨hst.cfg, hst.pma, hst.mask, hst.hartCount, hst.isSealed, hst.lock, hst.port⟩

theorem sameControl_writeEffect (n : Width) (h a : Nat) (d : DataWord) (s : State) :
    SameControl s (writeEffect n h a d s) := by
  constructor <;> simp

theorem sameControl_pokeEffect (n : Width) (a : Nat) (d : DataWord) (s : State) :
    SameControl s (pokeEffect n a d s) := by
  constructor <;> simp

/-- The sweep of a WRITE passes over the writer's own record (R171). -/
theorem reservation_writeEffect_self {s : State} (hr : TableRising s.res) (n : Width) (h a : Nat) (d : DataWord) :
    reservation (writeEffect n h a d s) h = reservation s h := by
  rw [reservation_writeEffect hr, if_neg (fun hother => hother.1 rfl)]

theorem reservation_writeEffect_other {s : State} (hr : TableRising s.res) (n : Width) {h j : Nat} (hj : j ≠ h)
    (a : Nat) (d : DataWord) :
    reservation (writeEffect n h a d s) j =
      if overlap a n.bytes (reservation s j) = true then (reservation s j).cleared else reservation s j := by
  simp only [reservation_writeEffect hr, ne_eq, hj, not_false_eq_true, true_and]

/-! ## WRITE and POKE (R150 to R154, R160 to R164) -/

/-- Settles O34: the write takes its effect, element by element of the state. -/
theorem writeCompletes : Obligations.WriteCompletes := by
  intro n h a d s hs hh hg hm
  refine ⟨_, answers_writeOf_of_gated hh hg hm d, sameControl_resp (sameControl_writeEffect n h a d s) _,
    fun i hi => ?inside, fun b hb => ?outside, ?slot, fun j hj => ?otherSlots, ?ownRecord, fun j hj => ?otherRecords⟩
  case inside => exact byte_memWrite_inside hs.mem a (storedValue s n a d) hi
  case outside => exact byte_memWrite_outside hs.mem (storedValue s n a d) hb
  case slot => exact (lastWrite_writeEffect hs.lw.1 n h a d h).trans (if_pos rfl)
  case otherSlots => exact (lastWrite_writeEffect hs.lw.1 n h a d j).trans (if_neg hj)
  case ownRecord => exact reservation_writeEffect_self hs.res.1 n h a d
  case otherRecords => exact reservation_writeEffect_other hs.res.1 n hj a d

/-- Settles O37: the poke takes its effect, element by element of the state. -/
theorem pokeCompletes : Obligations.PokeCompletes := by
  intro n a d s hs hg hm
  refine ⟨_, answers_pokeOf_of_gated hg hm d, sameControl_resp (sameControl_pokeEffect n a d s) _,
    pokeEffect_lw n a d s, fun i hi => ?inside, fun b hb => ?outside, fun j => ?records⟩
  case inside => exact byte_memWrite_inside hs.mem a (storedValue s n a d) hi
  case outside => exact byte_memWrite_outside hs.mem (storedValue s n a d) hb
  case records => exact reservation_pokeEffect hs.res.1 n a d j

/-! ## CHECK_WRITE (R155 to R159) -/

@[simp] theorem readOnly_checkWriteOf (n : Width) (a : Nat) (d : DataWord) :
    (Instr.checkWriteOf n a d).readOnly = true := by
  cases n <;> rfl

theorem lowByte_checkWriteOf (n : Width) (a : Nat) (d : DataWord) :
    (Instr.checkWriteOf n a d).lowByte = n.sz * 32 + 0x04 := by
  cases n <;> rfl

/-- Settles O35: a CHECK_WRITE has no effect and makes the tests of a WRITE but for the hart id. -/
theorem checkWriteCompletes : Obligations.CheckWriteCompletes := by
  intro n a d s
  have herror : firstError s (.checkWriteOf n a d) = accessError s .write n a := firstError_checkWriteOf s n a d
  obtain ⟨hrefuses, hmmr⟩ := refusesInOrder_of_accessError herror
  refine ⟨fun hg hm => ?passes, hrefuses, hmmr, ?lowByte⟩
  case passes =>
    have hnone : firstError s (.checkWriteOf n a d) = none := herror.trans (accessError_of_gated hg hm)
    rw [exec_readOnly_of_none (readOnly_checkWriteOf n a d) hnone, result_checkWriteOf, storedValue]
  case lowByte => rw [encode_ch_mod, lowByte_checkWriteOf]

/-- Settles O36: the two commands make the same tests of an existing hart's access, and the word the check answers is
the one the write stores. -/
theorem checkWriteForetellsWrite : Obligations.CheckWriteForetellsWrite := by
  intro n h a d s t u hs hh hcheck hwrite
  have hsame : Succeeded t ↔ Succeeded u := by
    rw [succeeded_iff hcheck, succeeded_iff hwrite, firstError_checkWriteOf, firstError_writeOf_of_hart hh]
  refine ⟨hsame, fun ans hresp => ?_⟩
  have hu : Succeeded u := hsame.mp ⟨ans, hresp⟩
  calc memRead u.mem a n = storedValue s n a d := memRead_of_stored hs (write_mem hwrite hu)
    _ = ans.r := by rw [answer_eq_result ⟨hcheck, hresp⟩, result_checkWriteOf]

end Sys2Proof.Machine
end

