-- ==== Sys2Proof/Proofs/LastWrite.lean ====
section
/-! The last-write recorder: what its three commands answer for a hart that exists, the slot a WRITE leaves, and the
obligations of GET_LAST_WRITE_NEW, GET_LAST_WRITE_OLD and CLEAR_LAST_WRITE (R165 to R167). -/

namespace Sys2Proof.Machine

/-! ## The commands of a hart that exists (R165 to R167) -/

theorem exec_getLastWriteNew {s : State} {h : Nat} (hh : h < s.hartCount) :
    exec (.getLastWriteNew h) s = .next { s with
      resp := some (.ok ⟨(lastWrite s h).newValue, (lastWrite s h).address, sizeCode (lastWrite s h).size⟩) } :=
  exec_readOnly_of_none (i := .getLastWriteNew h) rfl (hartError_none.mpr hh)

theorem exec_getLastWriteOld {s : State} {h : Nat} (hh : h < s.hartCount) :
    exec (.getLastWriteOld h) s = .next { s with
      resp := some (.ok ⟨(lastWrite s h).prevValue, (lastWrite s h).address, sizeCode (lastWrite s h).size⟩) } :=
  exec_readOnly_of_none (i := .getLastWriteOld h) rfl (hartError_none.mpr hh)

theorem exec_clearLastWrite {s : State} {h : Nat} (hh : h < s.hartCount) :
    exec (.clearLastWrite h) s = .next { setLastWrite s h LastWrite.empty with resp := some (.ok ⟨0, 0, 0⟩) } :=
  exec_of_none (i := .clearLastWrite h) (hartError_none.mpr hh)

/-- The response is no part of a slot. -/
theorem lastWrite_resp (s : State) (r : Option Response) (j : Nat) : lastWrite { s with resp := r } j = lastWrite s j :=
  rfl

/-- Settles O47: the hart test passes, and CLEAR_LAST_WRITE puts the empty record in the one slot. -/
theorem lastWriteCommandsComplete : Obligations.LastWriteCommandsComplete := by
  intro h s hs hh
  refine ⟨exec_getLastWriteNew hh, exec_getLastWriteOld hh, _, ⟨exec_clearLastWrite hh, rfl⟩, ?own, fun j hj => ?others,
    rfl⟩
  case own => exact (lastWrite_setLastWrite hs.lw.1 h h LastWrite.empty).trans (if_pos rfl)
  case others => exact (lastWrite_setLastWrite hs.lw.1 h j LastWrite.empty).trans (if_neg hj)

/-! ## The slot after a WRITE (R150) -/

theorem lastWrite_of_write {n : Width} {h a : Nat} {d : DataWord} {s t : State} (hs : Canonical s)
    (he : exec (.writeOf n h a d) s = .next t) (ht : Succeeded t) : lastWrite t h = writeRecord s n a d := by
  obtain ⟨-, rfl⟩ := exec_succeeded he ht
  rw [lastWrite_resp, effect_writeOf, lastWrite_writeEffect hs.lw.1, if_pos rfl]

/-- A WRITE that succeeds is one of a hart that exists, and does not change the hart count (R93). -/
theorem hart_lt_of_write {n : Width} {h a : Nat} {d : DataWord} {s t : State}
    (he : exec (.writeOf n h a d) s = .next t) (ht : Succeeded t) : h < t.hartCount := by
  obtain ⟨hpass, rfl⟩ := exec_succeeded he ht
  rw [firstError_writeOf] at hpass
  have hh : h < s.hartCount := hartError_none.mp (or_none.mp hpass).1
  simpa using hh

/-- Settles O40: the getters answer the record of the WRITE, whose new value is the one stored. -/
theorem lastWriteShowsTheWrite : Obligations.LastWriteShowsTheWrite := by
  intro n h a d s t hs he ht
  have hslot : lastWrite t h = writeRecord s n a d := lastWrite_of_write hs he ht
  have hh : h < t.hartCount := hart_lt_of_write he ht
  refine ⟨storedValue s n a d, memRead s.mem a n, ?new, ?old, ?stored, fun hplain => storedValue_of_plain hplain n d, rfl,
    fun u ans hread => ?before⟩
  case new =>
    rw [exec_getLastWriteNew hh, hslot]
    rfl
  case old =>
    rw [exec_getLastWriteOld hh, hslot]
    rfl
  case stored => exact (memRead_of_stored hs (write_mem he ht)).symm
  case before => rw [answer_eq_result hread, result_readOf]

end Sys2Proof.Machine
end

