-- ==== Sys2Proof/Proofs/SlotDrain.lean ====
section
/-! The executors' drain of the last-write slots: what a move of a system can be, what each command of an executor is to
the slot and to the record it has pending, and the obligation that every move keeps the slots drained (R168, R233). -/

namespace Sys2Proof.Machine

/-! ## What a move can be (R217) -/

theorem move_other_cases (y : System) (i : Instr) :
    ∃ t, exec i y.block = .next t ∧ y.move (.other i) = { y with block := t } := by
  obtain ⟨t, r, hexec, -, hrun⟩ := runCommand_cases y.block i
  exact ⟨t, hexec, by simp only [System.move, hrun]⟩

/-- A move of an executor's place changes nothing, or the executor there issues its command and takes the response. -/
theorem move_executor_cases (y : System) (k : Nat) :
    y.move (.executor k) = y ∨
    ∃ e i t r, y.execs[k]? = some e ∧ e.command = some i ∧ exec i y.block = .next t ∧ t.resp = some r ∧
      y.move (.executor k) = ⟨t, y.execs.set k (e.advance r)⟩ := by
  cases he : y.execs[k]? with
  | none => exact Or.inl (by simp only [System.move, he])
  | some e =>
    cases hi : e.command with
    | none => exact Or.inl (by simp only [System.move, he, hi])
    | some i =>
      obtain ⟨t, r, hexec, hresp, hrun⟩ := runCommand_cases y.block i
      exact Or.inr ⟨e, i, t, r, rfl, hi, hexec, hresp, by simp only [System.move, he, hi, hrun]⟩

@[simp] theorem hart_advance (e : Executor) (r : Response) : (e.advance r).hart = e.hart := rfl

/-- The executors' hart ids are the same after one of them has taken a response. -/
theorem harts_set_advance {es : List Executor} {k : Nat} {e : Executor} (he : es[k]? = some e) (r : Response) :
    (es.set k (e.advance r)).map Executor.hart = es.map Executor.hart := by
  obtain ⟨hk, rfl⟩ := List.getElem?_eq_some_iff.mp he
  rw [List.map_set, hart_advance, ← List.getElem_map Executor.hart (h := by simpa using hk), List.set_getElem_self]

/-! ## Commands that write no slot (R26, R34) -/

theorem lastWrite_exec_of_not_writesSlot {i : Instr} {s t : State} {j : Nat} (hs : Canonical s)
    (h : exec i s = .next t) (hi : i.writesSlot j = false) : lastWrite t j = lastWrite s j := by
  by_contra hne
  obtain ⟨hwrites, -⟩ := lastWriteSlotWriters i s t j hs h hne
  rw [hi] at hwrites
  cases hwrites

/-- SET_HART_COUNT, the one command that changes the hart count, writes every slot. -/
theorem hartCount_exec_of_not_writesSlot {i : Instr} {s t : State} {j : Nat} (h : exec i s = .next t)
    (hi : i.writesSlot j = false) : t.hartCount = s.hartCount := by
  obtain ⟨k, -, rfl⟩ | ⟨-, rfl⟩ := exec_cases h
  · rfl
  · cases i
    case setHartCount d => cases hi
    all_goals rfl

@[simp] theorem writesSlot_readOf (j : Nat) (n : Width) (a : Nat) : (Instr.readOf n a).writesSlot j = false := by
  cases n <;> rfl

@[simp] theorem writesSlot_makeLrOf (j : Nat) (n : Width) (h a : Nat) :
    (Instr.makeLrOf n h a).writesSlot j = false := by
  cases n <;> rfl

/-! ## What an executor's command is to its slot (R168) -/

/-- What a command is to the slot of the executor that issues it. -/
inductive Executor.SlotRole (e : Executor) : Instr → Prop where
  /-- The end of its drain. -/
  | endsDrain : SlotRole e (.clearLastWrite e.hart)
  /-- The WRITE of its instruction: no record is pending before it, and one is after it exactly if it succeeds. -/
  | writes (n : Width) (a : Nat) (d : DataWord) (before : e.recordPending = false)
      (after : ∀ r, (e.advance r).recordPending = r.okBit) : SlotRole e (.writeOf n e.hart a d)
  /-- It leaves every slot alone, and a record is pending after it exactly if one was before. -/
  | leaves {i : Instr} (slots : ∀ j, i.writesSlot j = false)
      (pending : ∀ r, (e.advance r).recordPending = e.recordPending) : SlotRole e i

/-- The phase `retire` leads to has a record pending exactly if the instruction made a WRITE. -/
theorem recordPending_of_nextPhase_retire {e : Executor} {resp : Response} {r : ExecResult}
    (h : e.nextPhase resp = e.retire r) : (e.advance resp).recordPending = e.op.wrote r := by
  rw [Executor.recordPending, Executor.advance, h]
  exact retire_outcome e r

/-- The role of each command of R196 to R198, R200 and of the drain, phase by phase. -/
theorem slotRole_of_command {e : Executor} {i : Instr} (hi : e.command = some i) : e.SlotRole i := by
  obtain ⟨h, tr, op, phase⟩ := e
  cases phase with
  | start =>
    cases op with
    | load n a =>
      cases hi
      refine .leaves (fun j => writesSlot_readOf j n a) fun r => ?_
      cases r with
      | ok ans => exact recordPending_of_nextPhase_retire (r := .value ans.r) rfl
      | failed k => rfl
    | store n a v =>
      cases hi
      refine .writes n a v rfl fun r => ?_
      cases r with
      | ok ans => exact recordPending_of_nextPhase_retire (r := .stored) rfl
      | failed k => rfl
    | fetchHalf | fetchWord | lr | sc | amo =>
      cases hi
      exact .leaves (fun _ => rfl) fun r => by cases r <;> rfl
  | test =>
    cases op with
    | lr n a | amo f n a b =>
      cases hi
      exact .leaves (fun j => writesSlot_readOf j n.width a) fun r => by cases r <;> rfl
    | sc n a v =>
      cases hi
      refine .leaves (fun _ => rfl) fun r => ?_
      cases r with
      | ok ans =>
        dsimp only [Executor.recordPending, Executor.advance, Executor.nextPhase]
        split <;> rfl
      | failed k => rfl
    | load | store | fetchHalf | fetchWord => cases hi
  | reserve old =>
    cases op with
    | lr n a =>
      cases hi
      exact .leaves (fun j => writesSlot_makeLrOf j n.width h a) fun _ => rfl
    | load | store | fetchHalf | fetchWord | sc | amo => cases hi
  | write old =>
    cases op with
    | sc n a v | amo f n a b =>
      cases hi
      exact .writes n.width a _ rfl fun r => by cases r <;> rfl
    | load | store | fetchHalf | fetchWord | lr => cases hi
  | release r =>
    cases hi
    exact .leaves (fun _ => rfl) fun _ => recordPending_of_nextPhase_retire (r := r) rfl
  | drainGet r =>
    cases hi
    refine .leaves (fun _ => rfl) fun _ => ?_
    dsimp only [Executor.recordPending, Executor.advance, Executor.nextPhase]
    split <;> rfl
  | drop r | drainOld r =>
    cases hi
    exact .leaves (fun _ => rfl) fun _ => rfl
  | drainClear r =>
    cases hi
    exact .endsDrain
  | done r => cases hi

/-- An executor's command writes no slot but its own. -/
theorem not_writesSlot_of_command {e : Executor} {i : Instr} {j : Nat} (hi : e.command = some i) (hj : j ≠ e.hart) :
    i.writesSlot j = false := by
  cases slotRole_of_command hi with
  | endsDrain => exact beq_false_of_ne hj.symm
  | writes n a d =>
    rw [writesSlot_writeOf]
    exact beq_false_of_ne hj.symm
  | leaves hslots => exact hslots j

/-- An executor's command is no SET_HART_COUNT, since it writes no other hart's slot. -/
theorem hartCount_of_command {e : Executor} {i : Instr} {s t : State} (hi : e.command = some i)
    (h : exec i s = .next t) : t.hartCount = s.hartCount :=
  hartCount_exec_of_not_writesSlot h (not_writesSlot_of_command hi (Nat.succ_ne_self e.hart))

/-- The slot of the executor that moves is drained after its command, if it was before. -/
theorem drained_advance {e : Executor} {i : Instr} {s t : State} {r : Response} (hs : Canonical s)
    (hexists : e.hart < s.hartCount) (hi : e.command = some i) (h : exec i s = .next t) (hr : t.resp = some r)
    (hbefore : e.recordPending = false → lastWrite s e.hart = LastWrite.empty)
    (hafter : (e.advance r).recordPending = false) : lastWrite t e.hart = LastWrite.empty := by
  cases slotRole_of_command hi with
  | endsDrain =>
    rw [exec_clearLastWrite hexists] at h
    cases h
    exact (lastWrite_setLastWrite hs.lw.1 e.hart e.hart LastWrite.empty).trans (if_pos rfl)
  | writes n a d hnone hok =>
    have hfailed : r.okBit = false := (hok r).symm.trans hafter
    rw [← hbefore hnone]
    by_contra hne
    obtain ⟨-, ans, hans⟩ := lastWriteSlotWriters _ s t e.hart hs h hne
    cases hr.symm.trans hans
    cases hfailed
  | leaves hslots hpending =>
    rw [lastWrite_exec_of_not_writesSlot hs h (hslots e.hart)]
    exact hbefore ((hpending r).symm.trans hafter)

/-! ## The moves (R168, R233) -/

theorem slotsDrained_other {y : System} {i : Instr} {t : State} (hy : SlotsDrained y) (h : exec i y.block = .next t)
    (hi : ∀ e ∈ y.execs, i.writesSlot e.hart = false) : SlotsDrained { y with block := t } where
  tables := canonical_exec hy.tables h
  harts := hy.harts
  exist e he := by
    rw [hartCount_exec_of_not_writesSlot h (hi e he)]
    exact hy.exist e he
  drained e he hpending := by
    rw [lastWrite_exec_of_not_writesSlot hy.tables h (hi e he)]
    exact hy.drained e he hpending

theorem slotsDrained_executor {y : System} {k : Nat} {e : Executor} {i : Instr} {t : State} {r : Response}
    (hy : SlotsDrained y) (he : y.execs[k]? = some e) (hi : e.command = some i) (h : exec i y.block = .next t)
    (hr : t.resp = some r) : SlotsDrained ⟨t, y.execs.set k (e.advance r)⟩ := by
  have hmem : e ∈ y.execs := List.mem_of_getElem? he
  have hnew : e.advance r ∈ y.execs.set k (e.advance r) := by
    obtain ⟨hk, -⟩ := List.getElem?_eq_some_iff.mp he
    exact List.mem_set hk _
  have hharts : DistinctHarts ⟨t, y.execs.set k (e.advance r)⟩ := by
    rw [DistinctHarts, harts_set_advance he]
    exact hy.harts
  refine ⟨canonical_exec hy.tables h, hharts, fun f hf => ?exist, fun f hf hpending => ?drained⟩
  case exist =>
    rw [hartCount_of_command hi h]
    obtain hf | rfl := List.mem_or_eq_of_mem_set hf
    · exact hy.exist f hf
    · exact hy.exist e hmem
  case drained =>
    by_cases hhart : f.hart = e.hart
    · obtain rfl : f = e.advance r := List.inj_on_of_nodup_map hharts hf hnew hhart
      exact drained_advance (e := e) hy.tables (hy.exist e hmem) hi h hr (hy.drained e hmem) hpending
    · obtain hf | rfl := List.mem_or_eq_of_mem_set hf
      · rw [lastWrite_exec_of_not_writesSlot hy.tables h (not_writesSlot_of_command hi hhart)]
        exact hy.drained f hf hpending
      · exact absurd rfl hhart

/-- Settles O56: an executor's command is the end of its drain, its WRITE, or leaves the slots alone; the other agents'
commands write no slot of an executor's. -/
theorem everyMoveKeepsTheSlotsDrained : Obligations.EveryMoveKeepsTheSlotsDrained := by
  intro y m hy hothers
  cases m with
  | other i =>
    obtain ⟨t, hexec, hmove⟩ := move_other_cases y i
    rw [hmove]
    exact slotsDrained_other hy hexec (hothers i rfl)
  | executor k =>
    obtain hmove | ⟨e, i, t, r, he, hi, hexec, hr, hmove⟩ := move_executor_cases y k
    · rwa [hmove]
    · rw [hmove]
      exact slotsDrained_executor hy he hi hexec hr

end Sys2Proof.Machine
end

