-- ==== Sys2Proof/Proofs/Reservation.lean ====
section
/-! The reservation table and the lock: what the overlap test and the two sweeps do, how the reservation and lock
commands complete, and what breaks a reservation, after one command and after a run of them (R170 to R192). -/

namespace Sys2Proof

/-! ## Which commands clear or remake a record (R191) -/

theorem eq_makeLrOf_of_remakes {i : Instr} {h : Nat} (hi : i.remakes h = true) : ∃ n a, i = .makeLrOf n h a := by
  cases i
  case makeLrB j a => obtain rfl := eq_of_beq hi; exact ⟨.b, a, rfl⟩
  case makeLrH j a => obtain rfl := eq_of_beq hi; exact ⟨.h, a, rfl⟩
  case makeLrW j a => obtain rfl := eq_of_beq hi; exact ⟨.w, a, rfl⟩
  case makeLrD j a => obtain rfl := eq_of_beq hi; exact ⟨.d, a, rfl⟩
  all_goals cases hi

@[simp] theorem clears_makeLrOf (h : Nat) (r : Machine.Reservation) (n : Width) (j a : Nat) :
    (Instr.makeLrOf n j a).clears h r = false := by
  cases n <;> rfl

/-- The sweeps of a hart's own WRITE and INVALIDATE_OTHER_HART_LR pass over its record: only INVALIDATE_LR is left. -/
theorem eq_invalidateLr_of_clears {i : Instr} {h : Nat} {r : Machine.Reservation} (hhart : i.hart? = some h)
    (hi : i.clears h r = true) : i = .invalidateLr h := by
  cases i <;> simp_all [Instr.clears, Instr.hart?]

end Sys2Proof

namespace Sys2Proof.Machine

/-! ## The overlap test (R170) -/

/-- Settles O27: the test's two clauses, and the byte they share, the start of the one range that lies in the other. -/
theorem overlapIsASharedByte : Obligations.OverlapIsASharedByte := by
  intro a n r
  exact ⟨by simp [overlap], overlap_iff (width_bytes_pos n)⟩

/-! ## The records after a command that succeeds (R171) -/

/-- The response is no part of a record. -/
theorem reservation_resp (s : State) (r : Option Response) (j : Nat) :
    reservation { s with resp := r } j = reservation s j :=
  rfl

theorem reservation_of_succeeded {i : Instr} {s t : State} (he : exec i s = .next t) (ht : Succeeded t) (j : Nat) :
    reservation t j = reservation (effect s i) j := by
  obtain ⟨-, rfl⟩ := exec_succeeded he ht
  rw [reservation_resp]

/-- Settles O28: each sweep record by record, and the effect of each command that makes it. -/
theorem sweepsClearExactlyTheOverlapping : Obligations.SweepsClearExactlyTheOverlapping := by
  intro s h a j n hs
  have hr : TableRising s.res := hs.res.1
  refine ⟨reservation_invalidateOthers hr h a n.bytes j, reservation_invalidateAll hr a n.bytes j,
    fun t d ht => ⟨?others, ?all⟩⟩
  case others =>
    rintro (he | he) <;> rw [reservation_of_succeeded he ht]
    · rw [effect_writeOf]
      exact reservation_writeEffect hr n h a d j
    · rw [effect_invalidateOtherHartLrOf]
      exact reservation_invalidateOthers hr h a n.bytes j
  case all =>
    rintro (he | he) <;> rw [reservation_of_succeeded he ht]
    · rw [effect_pokeOf]
      exact reservation_pokeEffect hr n a d j
    · rw [effect_invalidateLrsOf]
      exact reservation_invalidateAll hr a n.bytes j

/-! ## The commands of the reservation table (R172 to R188) -/

/-- A command that passes its tests, its effect and result being known. -/
theorem answers_of_effect {i : Instr} {s t : State} {ans : Answer} (herror : firstError s i = none)
    (heffect : effect s i = t) (hresult : result s i = ans) : Answers i s { t with resp := some (.ok ans) } ans := by
  subst heffect hresult
  exact answers_of_none herror

theorem answers_makeLrOf {s : State} {h : Nat} (hh : h < s.hartCount) (n : Width) (a : Nat) :
    Answers (.makeLrOf n h a) s { setReservation s h ⟨a, n, true⟩ with resp := some (.ok ⟨0, 0, 0⟩) } ⟨0, 0, 0⟩ :=
  answers_of_effect ((firstError_makeLrOf s n h a).trans (hartError_none.mpr hh)) (effect_makeLrOf s n h a)
    (result_makeLrOf s n h a)

/-- Settles O48: the hart test is the only one, and the record put in the table is read back for the one hart. -/
theorem makeLrCompletes : Obligations.MakeLrCompletes := by
  intro n h a s hs hh
  refine ⟨_, answers_makeLrOf hh n a, ?own, fun j hj => ?others, rfl⟩
  case own => exact (reservation_setReservation hs.res.1 h h _).trans (if_pos rfl)
  case others => exact (reservation_setReservation hs.res.1 h j _).trans (if_neg hj)

theorem holdsAt_iff {r : Reservation} {a : Nat} : r.holdsAt a = true ↔ r.valid = true ∧ r.address = a := by
  simp [Reservation.holdsAt]

theorem exec_hasLr {s : State} {h : Nat} (hh : h < s.hartCount) (a : Nat) :
    exec (.hasLr h a) s = .next { s with
      resp := some (.ok ⟨if (reservation s h).valid = true ∧ (reservation s h).address = a then 1 else 0, 0, 0⟩) } := by
  rw [exec_readOnly_of_none (i := .hasLr h a) rfl (hartError_none.mpr hh)]
  simp only [result, holdsAt_iff]

/-- Settles O49: a command without effect, whose one test is that of the hart id. -/
theorem hasLrCompletes : Obligations.HasLrCompletes := by
  intro h a s
  exact ⟨fun hh => exec_hasLr hh a, hartIdOutOfRangeRefused _ s h rfl, encode_ch_mod _⟩

theorem answers_invalidateLr {s : State} {h : Nat} (hh : h < s.hartCount) :
    Answers (.invalidateLr h) s
      { setReservation s h (reservation s h).cleared with resp := some (.ok ⟨0, 0, 0⟩) } ⟨0, 0, 0⟩ :=
  answers_of_none (i := .invalidateLr h) (hartError_none.mpr hh)

theorem answers_invalidateOtherHartLrOf {s : State} {h : Nat} (hh : h < s.hartCount) (n : Width) (a : Nat) :
    Answers (.invalidateOtherHartLrOf n h a) s
      { invalidateOthers s h a n.bytes with resp := some (.ok ⟨0, 0, 0⟩) } ⟨0, 0, 0⟩ :=
  answers_of_effect ((firstError_invalidateOtherHartLrOf s n h a).trans (hartError_none.mpr hh))
    (effect_invalidateOtherHartLrOf s n h a) (result_invalidateOtherHartLrOf s n h a)

theorem answers_invalidateLrsOf (s : State) (n : Width) (a : Nat) :
    Answers (.invalidateLrsOf n a) s { invalidateAll s a n.bytes with resp := some (.ok ⟨0, 0, 0⟩) } ⟨0, 0, 0⟩ :=
  answers_of_effect (firstError_invalidateLrsOf s n a) (effect_invalidateLrsOf s n a) (result_invalidateLrsOf s n a)

/-- Settles O51: the two commands make the two sweeps and touch the records only. -/
theorem invalidationByRangeCompletes : Obligations.InvalidationByRangeCompletes := by
  intro n h a s hs
  have hr : TableRising s.res := hs.res.1
  constructor
  · intro hh
    exact ⟨_, answers_invalidateOtherHartLrOf hh n a, reservation_invalidateOthers hr h a n.bytes, rfl⟩
  · exact ⟨_, answers_invalidateLrsOf s n a, reservation_invalidateAll hr a n.bytes, rfl⟩

/-! ## What breaks a reservation (R191) -/

/-- A valid record is valid after a command that succeeds unless the command is an event (1) to (6) of R191; a MAKE_LR,
which is none of them, leaves a valid record too. -/
theorem valid_reservation_effect {i : Instr} {s : State} {h : Nat} (hs : Canonical s)
    (hvalid : (reservation s h).valid = true) :
    (reservation (effect s i) h).valid = !i.clears h (reservation s h) := by
  cases hremake : i.remakes h with
  | true =>
    obtain ⟨n, a, rfl⟩ := eq_makeLrOf_of_remakes hremake
    rw [effect_makeLrOf, reservation_setReservation hs.res.1, if_pos rfl, clears_makeLrOf, Bool.not_false]
  | false =>
    rw [reservation_effect hs i h hremake]
    cases i.clears h (reservation s h) with
    | true =>
      rw [if_pos rfl]
      split <;> rfl
    | false => exact hvalid

theorem valid_reservation_exec {i : Instr} {s t : State} {h : Nat} (hs : Canonical s)
    (hvalid : (reservation s h).valid = true) (he : exec i s = .next t) :
    (reservation t h).valid = false ↔ Succeeded t ∧ i.clears h (reservation s h) = true := by
  rw [succeeded_iff he]
  obtain ⟨k, herror, rfl⟩ | ⟨herror, rfl⟩ := exec_cases he
  · simp [reservation_resp, hvalid, herror]
  · rw [reservation_resp, valid_reservation_effect hs hvalid]
    simp [herror]

/-- A command that is neither an event (1) to (6) of R191 nor a MAKE_LR of the hart leaves the hart's record alone. -/
theorem reservation_exec_of_undisturbed {i : Instr} {s t : State} {h : Nat} (hs : Canonical s)
    (he : exec i s = .next t) (hclear : Succeeded t → i.clears h (reservation s h) = false)
    (hremake : i.remakes h = false) : reservation t h = reservation s h := by
  obtain ⟨k, -, rfl⟩ | ⟨-, rfl⟩ := exec_cases he
  · rfl
  · rw [reservation_resp, reservation_effect hs i h hremake, hclear ⟨_, rfl⟩, if_neg Bool.false_ne_true]

/-- Settles O53: a record still valid shows that no event (1) to (6) happened. -/
theorem reservationBrokenExactlyByTheEvents : Obligations.ReservationBrokenExactlyByTheEvents := by
  intro i s t h hs hvalid he
  have hbroken := valid_reservation_exec hs hvalid he
  refine ⟨hbroken, fun hstill hremake => reservation_exec_of_undisturbed hs he (fun ht => ?_) hremake⟩
  by_contra hclear
  have hinvalid := hbroken.mpr ⟨ht, by simpa using hclear⟩
  rw [hstill] at hinvalid
  cases hinvalid

/-- Settles O50: the hart's record is put back cleared, and of the events of R191 INVALIDATE_LR is the only one that
carries the hart's own id. -/
theorem invalidateLrCompletes : Obligations.InvalidateLrCompletes := by
  intro h s hs
  refine ⟨fun hh => ?completes, fun i t hhart he hvalid hinvalid => ?onlyCommand,
    hartIdOutOfRangeRefused _ s h rfl, encode_ch_mod _⟩
  case completes =>
    refine ⟨_, answers_invalidateLr hh, ?own, fun j hj => ?others, rfl⟩
    case own => exact (reservation_setReservation hs.res.1 h h _).trans (if_pos rfl)
    case others => exact (reservation_setReservation hs.res.1 h j _).trans (if_neg hj)
  case onlyCommand =>
    obtain ⟨-, hclear⟩ := (valid_reservation_exec hs hvalid he).mp hinvalid
    exact eq_invalidateLr_of_clears hhart hclear

/-! ## Runs without a breaking event (R192) -/

/-- SET_HART_COUNT, the one command that changes the hart count, is event (6) for every record. -/
theorem hartCount_exec_of_not_clears {i : Instr} {s t : State} {h : Nat} {r : Reservation} (he : exec i s = .next t)
    (hclear : Succeeded t → i.clears h r = false) : t.hartCount = s.hartCount := by
  obtain ⟨k, -, rfl⟩ | ⟨-, rfl⟩ := exec_cases he
  · rfl
  · have hi : i.clears h r = false := hclear ⟨_, rfl⟩
    cases i
    case setHartCount d => cases hi
    all_goals rfl

theorem reservation_runCommands_of_undisturbed {h : Nat} {cmds : List Instr} {s : State} (hs : Canonical s)
    (hrun : Undisturbed h cmds s) :
    reservation (runCommands cmds s) h = reservation s h ∧ (runCommands cmds s).hartCount = s.hartCount := by
  induction cmds generalizing s with
  | nil => exact ⟨rfl, rfl⟩
  | cons i rest ih =>
    obtain ⟨t, r, he, -, hcommand⟩ := runCommand_cases s i
    simp only [Undisturbed, hcommand] at hrun
    obtain ⟨hclear, hremake, hrest⟩ := hrun
    obtain ⟨hrecord, hcount⟩ := ih (canonical_exec hs he) hrest
    simp only [runCommands, hcommand]
    exact ⟨hrecord.trans (reservation_exec_of_undisturbed hs he hclear hremake),
      hcount.trans (hartCount_exec_of_not_clears he hclear)⟩

/-- Settles O54: the run keeps the record MAKE_LR made and the hart count, by induction on its commands. -/
theorem undisturbedReservationIsFound : Obligations.UndisturbedReservationIsFound := by
  intro n h a s t cmds hs hh he hrun
  obtain ⟨u, ⟨hmake, -⟩, hown, -, hframe⟩ := makeLrCompletes n h a s hs hh
  rw [hmake] at he
  cases he
  obtain ⟨hrecord, hcount⟩ := reservation_runCommands_of_undisturbed (canonical_exec hs hmake) hrun
  have hexists : h < (runCommands cmds t).hartCount := by
    rw [hcount, hframe]
    exact hh
  refine ⟨_, exec_hasLr hexists a, ?_⟩
  simp [hrecord, hown]

/-! ## The lock (R189, R190) -/

theorem firstError_lockAcq_of_hart {s : State} {h : Nat} (hh : h < s.hartCount) :
    firstError s (.lockAcq h) = if s.lock.held = true then some .busy else none := by
  rw [firstError, lockAcqError, hartError_none.mpr hh, Option.none_or]

theorem firstError_lockRel_of_hart {s : State} {h : Nat} (hh : h < s.hartCount) :
    firstError s (.lockRel h) =
      if s.lock.held = false ∨ s.lock.owner ≠ h then some .badCommand else none := by
  rw [firstError, lockRelError, hartError_none.mpr hh, Option.none_or]
  simp

/-- Settles O52: after the hart test each command makes one test, of the lock. -/
theorem lockCommandsComplete : Obligations.LockCommandsComplete := by
  intro h s hh
  have hacq := firstError_lockAcq_of_hart hh
  have hrel := firstError_lockRel_of_hart hh
  refine ⟨fun hfree => ?takes, fun hheld => ?busy, fun howned => ?frees, fun hother => ?refused⟩
  case takes => exact exec_of_none (i := .lockAcq h) (hacq.trans (if_neg (by simp [hfree])))
  case busy => exact failsWith_of_error (hacq.trans (if_pos hheld))
  case frees => exact exec_of_none (i := .lockRel h) (hrel.trans (if_neg (by simp [howned])))
  case refused => exact failsWith_of_error (hrel.trans (if_pos hother))

end Sys2Proof.Machine
end

