-- ==== Sys2Proof/Proofs/AtomicBodies.lean ====
section
/-! The bracket of R195: what each command of an executor is to the lock, and the obligation that executors inside their
bodies hold the lock, and so exclude each other, under every disciplined schedule (R189, R190; D17). -/

namespace Sys2Proof.Machine

/-! ## What an executor's command is to the lock (R195) -/

@[simp] theorem leavesLock_readOf (n : Width) (a : Nat) : (Instr.readOf n a).leavesLock = true := by
  cases n <;> rfl

@[simp] theorem leavesLock_writeOf (n : Width) (h a : Nat) (d : DataWord) :
    (Instr.writeOf n h a d).leavesLock = true := by
  cases n <;> rfl

@[simp] theorem leavesLock_makeLrOf (n : Width) (h a : Nat) : (Instr.makeLrOf n h a).leavesLock = true := by
  cases n <;> rfl

/-- What a command is to the bracket of the executor that issues it. -/
inductive Executor.LockRole (e : Executor) : Instr → Prop where
  /-- A try to enter: the executor is inside after it exactly if it succeeds. -/
  | enters (after : ∀ r, (e.advance r).inBody = r.okBit) : LockRole e (.lockAcq e.hart)
  /-- The end of the bracket: the executor was inside, and is not after it. -/
  | exits (before : e.inBody = true) (after : ∀ r, (e.advance r).inBody = false) : LockRole e (.lockRel e.hart)
  /-- It leaves the lock alone, and the executor is inside after it exactly if it was before. -/
  | leaves {i : Instr} (lock : i.leavesLock = true) (body : ∀ r, (e.advance r).inBody = e.inBody) : LockRole e i

theorem inBody_of_nextPhase_retire {e : Executor} {resp : Response} {r : ExecResult}
    (h : e.nextPhase resp = e.retire r) : (e.advance resp).inBody = false := by
  rw [Executor.inBody, Executor.advance, h]
  exact retire_inBody e r

/-- The role of each command of R196 to R198, R200 and of the drain, phase by phase. -/
theorem lockRole_of_command {e : Executor} {i : Instr} (hi : e.command = some i) : e.LockRole i := by
  obtain ⟨h, tr, op, phase⟩ := e
  cases phase with
  | start =>
    cases op with
    | load n a =>
      cases hi
      refine .leaves (leavesLock_readOf n a) fun r => ?_
      cases r with
      | ok ans => exact inBody_of_nextPhase_retire (r := .value ans.r) rfl
      | failed k => rfl
    | store n a v =>
      cases hi
      refine .leaves (leavesLock_writeOf n h a v) fun r => ?_
      cases r with
      | ok ans => exact inBody_of_nextPhase_retire (r := .stored) rfl
      | failed k => rfl
    | fetchHalf | fetchWord =>
      cases hi
      exact .leaves rfl fun r => by cases r <;> rfl
    | lr | sc | amo =>
      cases hi
      exact .enters fun r => by cases r <;> rfl
  | test =>
    cases op with
    | lr n a | amo f n a b =>
      cases hi
      exact .leaves (leavesLock_readOf n.width a) fun r => by cases r <;> rfl
    | sc n a v =>
      cases hi
      refine .leaves rfl fun r => ?_
      cases r with
      | ok ans =>
        dsimp only [Executor.inBody, Executor.advance, Executor.nextPhase]
        split <;> rfl
      | failed k => rfl
    | load | store | fetchHalf | fetchWord => cases hi
  | reserve old =>
    cases op with
    | lr n a =>
      cases hi
      exact .leaves (leavesLock_makeLrOf n.width h a) fun _ => rfl
    | load | store | fetchHalf | fetchWord | sc | amo => cases hi
  | write old =>
    cases op with
    | sc n a v | amo f n a b =>
      cases hi
      exact .leaves (leavesLock_writeOf n.width h a _) fun r => by cases r <;> rfl
    | load | store | fetchHalf | fetchWord | lr => cases hi
  | release r =>
    cases hi
    exact .exits rfl fun _ => inBody_of_nextPhase_retire (r := r) rfl
  | drainGet r =>
    cases hi
    refine .leaves rfl fun _ => ?_
    dsimp only [Executor.inBody, Executor.advance, Executor.nextPhase]
    split <;> rfl
  | drop r | drainOld r | drainClear r =>
    cases hi
    exact .leaves rfl fun _ => rfl
  | done r => cases hi

/-! ## The moves -/

/-- An executor of the system after a move is the one that moved, or another one, as it was, of another hart. -/
theorem mem_set_advance {es : List Executor} {k : Nat} {e f : Executor} {r : Response}
    (hd : (es.map Executor.hart).Nodup) (he : es[k]? = some e) (hf : f ∈ es.set k (e.advance r)) :
    f = e.advance r ∨ f ∈ es ∧ f.hart ≠ e.hart := by
  by_cases hhart : f.hart = e.hart
  · obtain ⟨hk, -⟩ := List.getElem?_eq_some_iff.mp he
    rw [← harts_set_advance he r] at hd
    exact Or.inl (List.inj_on_of_nodup_map hd hf (List.mem_set hk _) hhart)
  · obtain hf | rfl := List.mem_or_eq_of_mem_set hf
    · exact Or.inr ⟨hf, hhart⟩
    · exact absurd rfl hhart

theorem distinctHarts_move {y : System} (hd : DistinctHarts y) (m : Move) : DistinctHarts (y.move m) := by
  cases m with
  | other i => exact hd
  | executor k =>
    obtain hmove | ⟨e, i, t, r, he, -, -, -, hmove⟩ := move_executor_cases y k
    · rwa [hmove]
    · rw [hmove, DistinctHarts, harts_set_advance he]
      exact hd

theorem lockOwned_of_lock_eq {y : System} {t : State} (hy : LockOwned y) (ht : t.lock = y.block.lock) :
    LockOwned { y with block := t } := by
  intro e he hbody
  rw [ht]
  exact hy e he hbody

/-- The executor that moves takes a free lock, frees its own, or leaves the lock; so the others inside keep it. -/
theorem lockOwned_executor {y : System} {k : Nat} {e : Executor} {i : Instr} {t : State} {r : Response}
    (hy : LockOwned y) (hd : DistinctHarts y) (he : y.execs[k]? = some e) (hi : e.command = some i)
    (h : exec i y.block = .next t) (hr : t.resp = some r) : LockOwned ⟨t, y.execs.set k (e.advance r)⟩ := by
  have hmem : e ∈ y.execs := List.mem_of_getElem? he
  intro f hf hbody
  have hcases := mem_set_advance hd he hf
  cases lockRole_of_command hi with
  | enters hafter =>
    obtain ⟨x, -, rfl⟩ | ⟨herror, rfl⟩ := exec_cases h
    · cases hr
      obtain rfl | ⟨hf, -⟩ := hcases
      · rw [hafter] at hbody
        cases hbody
      · exact hy f hf hbody
    · obtain rfl | ⟨hf, -⟩ := hcases
      · rfl
      · have hfree := lockAcqError_none herror
        rw [hy f hf hbody] at hfree
        cases hfree
  | exits hinside hafter =>
    obtain rfl | ⟨hf, hne⟩ := hcases
    · rw [hafter] at hbody
      cases hbody
    · have howners := (hy f hf hbody).symm.trans (hy e hmem hinside)
      exact absurd (congrArg Lock.owner howners) hne
  | leaves hlock hsame =>
    rw [lock_of_leavesLock hlock h]
    obtain rfl | ⟨hf, -⟩ := hcases
    · exact hy e hmem ((hsame r).symm.trans hbody)
    · exact hy f hf hbody

/-- One move of a disciplined schedule keeps the lock with the executors inside their brackets. -/
theorem lockOwned_move {y : System} {m : Move} (hy : LockOwned y) (hd : DistinctHarts y)
    (hm : ∀ i, m = .other i → i.leavesLock = true) : LockOwned (y.move m) := by
  cases m with
  | other i =>
    obtain ⟨t, hexec, hmove⟩ := move_other_cases y i
    rw [hmove]
    exact lockOwned_of_lock_eq hy (lock_of_leavesLock (hm i rfl) hexec)
  | executor k =>
    obtain hmove | ⟨e, i, t, r, he, hi, hexec, hr, hmove⟩ := move_executor_cases y k
    · rwa [hmove]
    · rw [hmove]
      exact lockOwned_executor hy hd he hi hexec hr

/-! ## Mutual exclusion -/

/-- Two executors inside their brackets own one lock, so they are of one hart, so they are one. -/
theorem index_eq_of_inBody {y : System} (hy : LockOwned y) (hd : DistinctHarts y) {j k : Nat} {e f : Executor}
    (hj : y.execs[j]? = some e) (hk : y.execs[k]? = some f) (he : e.inBody = true) (hf : f.inBody = true) : j = k := by
  have howners := (hy e (List.mem_of_getElem? hj) he).symm.trans (hy f (List.mem_of_getElem? hk) hf)
  have hhart : e.hart = f.hart := congrArg Lock.owner howners
  have hlen : j < (y.execs.map Executor.hart).length := by
    rw [List.length_map]
    exact (List.getElem?_eq_some_iff.mp hj).1
  refine (List.getElem?_inj hlen hd).mp ?_
  rw [List.getElem?_map, List.getElem?_map, hj, hk, Option.map_some, Option.map_some, hhart]

/-- Settles O55: the lock stays with the executors inside along the schedule, move by move, and excludes two of them. -/
theorem atomicBodiesExcludeEachOther : Obligations.AtomicBodiesExcludeEachOther := by
  intro y moves hy hd hmoves
  have hrun : LockOwned (y.run moves) ∧ DistinctHarts (y.run moves) := by
    refine List.foldlRecOn (motive := fun z => LockOwned z ∧ DistinctHarts z) moves System.move ⟨hy, hd⟩ ?_
    rintro z ⟨howned, hdistinct⟩ m hm
    exact ⟨lockOwned_move howned hdistinct fun i hi => hmoves i (hi ▸ hm), distinctHarts_move hdistinct m⟩
  obtain ⟨howned, hdistinct⟩ := hrun
  exact ⟨howned, fun j k e f => index_eq_of_inBody howned hdistinct⟩

end Sys2Proof.Machine
end

