-- ==== Sys2Proof/Proofs/AtomicSequences.lean ====
section
/-! LR, SC and AMO run without interruption: one lemma per move of an executor that is alone, one per stretch of moves
of each sequence, and the obligations about the three sequences with their drain (R168, R195 to R199). -/

namespace Sys2Proof.Machine

/-! ## Runs of an executor that is alone, by the number of moves -/

theorem run_replicate_succ (y : System) (m : Move) (k : Nat) :
    y.run (List.replicate (k + 1) m) = (y.move m).run (List.replicate k m) := rfl

theorem run_replicate_add (y : System) (m : Move) (j k : Nat) :
    y.run (List.replicate (j + k) m) = (y.run (List.replicate j m)).run (List.replicate k m) := by
  rw [List.replicate_add, run_append]

/-! ## The moves of the three sequences (R196 to R198) -/

section Alone

variable {b : State} {e : Executor}

/-- LOCK_ACQ on a free lock. -/
theorem move_lockAcq (hi : e.command = some (.lockAcq e.hart)) (hh : e.hart < b.hartCount)
    (hfree : b.lock.held = false) :
    System.move ⟨b, [e]⟩ (.executor 0) =
      ⟨{ b with lock := ⟨true, e.hart⟩, resp := some (.ok ⟨0, 0, 0⟩) }, [e.advance (.ok ⟨0, 0, 0⟩)]⟩ :=
  move_ok hi ((firstError_lockAcq_of_hart hh).trans (if_neg (by simp [hfree])))

/-- LOCK_REL by the owner. -/
theorem move_lockRel (hi : e.command = some (.lockRel e.hart)) (hh : e.hart < b.hartCount)
    (howned : b.lock = ⟨true, e.hart⟩) :
    System.move ⟨b, [e]⟩ (.executor 0) =
      ⟨{ b with lock := Lock.free, resp := some (.ok ⟨0, 0, 0⟩) }, [e.advance (.ok ⟨0, 0, 0⟩)]⟩ :=
  move_ok hi ((firstError_lockRel_of_hart hh).trans (if_neg (by simp [howned])))

theorem move_readOf {n : Width} {a : Nat} (hi : e.command = some (.readOf n a))
    (hread : accessError b .read n a = none) :
    System.move ⟨b, [e]⟩ (.executor 0) =
      ⟨{ b with resp := some (.ok ⟨memRead b.mem a n, 0, 0⟩) }, [e.advance (.ok ⟨memRead b.mem a n, 0, 0⟩)]⟩ := by
  rw [move_ok hi ((firstError_readOf b n a).trans hread), effect_readOf, result_readOf]

theorem move_writeOf {n : Width} {a : Nat} {d : DataWord} (hi : e.command = some (.writeOf n e.hart a d))
    (hh : e.hart < b.hartCount) (hwrite : accessError b .write n a = none) :
    System.move ⟨b, [e]⟩ (.executor 0) =
      ⟨{ writeEffect n e.hart a d b with resp := some (.ok ⟨0, 0, 0⟩) }, [e.advance (.ok ⟨0, 0, 0⟩)]⟩ := by
  rw [move_ok hi ((firstError_writeOf_of_hart hh n a d).trans hwrite), effect_writeOf, result_writeOf]

theorem move_writeOf_failed {n : Width} {a : Nat} {d : DataWord} {k : ErrKind}
    (hi : e.command = some (.writeOf n e.hart a d)) (hh : e.hart < b.hartCount)
    (hwrite : accessError b .write n a = some k) :
    System.move ⟨b, [e]⟩ (.executor 0) = ⟨{ b with resp := some (.failed k) }, [e.advance (.failed k)]⟩ :=
  move_failed hi ((firstError_writeOf_of_hart hh n a d).trans hwrite)

theorem move_makeLrOf {n : Width} {a : Nat} (hi : e.command = some (.makeLrOf n e.hart a))
    (hh : e.hart < b.hartCount) :
    System.move ⟨b, [e]⟩ (.executor 0) =
      ⟨{ setReservation b e.hart ⟨a, n, true⟩ with resp := some (.ok ⟨0, 0, 0⟩) },
        [e.advance (.ok ⟨0, 0, 0⟩)]⟩ := by
  rw [move_ok hi ((firstError_makeLrOf b n e.hart a).trans (hartError_none.mpr hh)), effect_makeLrOf,
    result_makeLrOf]

theorem move_hasLr {a : Nat} (hi : e.command = some (.hasLr e.hart a)) (hh : e.hart < b.hartCount) :
    System.move ⟨b, [e]⟩ (.executor 0) =
      ⟨{ b with resp := some (.ok ⟨if (reservation b e.hart).holdsAt a then 1 else 0, 0, 0⟩) },
        [e.advance (.ok ⟨if (reservation b e.hart).holdsAt a then 1 else 0, 0, 0⟩)]⟩ :=
  move_ok hi (hartError_none.mpr hh)

theorem move_invalidateLr (hi : e.command = some (.invalidateLr e.hart)) (hh : e.hart < b.hartCount) :
    System.move ⟨b, [e]⟩ (.executor 0) =
      ⟨{ setReservation b e.hart (reservation b e.hart).cleared with resp := some (.ok ⟨0, 0, 0⟩) },
        [e.advance (.ok ⟨0, 0, 0⟩)]⟩ :=
  move_ok hi (hartError_none.mpr hh)

end Alone

/-- An executor that is done makes no move. -/
theorem move_of_done (b : State) (h : Nat) (tr : Tracing) (op : ExecOp) (r : ExecResult) :
    System.move ⟨b, [⟨h, tr, op, .done r⟩]⟩ (.executor 0) = ⟨b, [⟨h, tr, op, .done r⟩]⟩ := rfl

/-! ## The drain (R168) -/

/-- The block after an instruction of hart `h` has retired, drained or not; the response apart. -/
def retired (b : State) (h : Nat) (drains : Bool) : State :=
  if drains then setLastWrite b h LastWrite.empty else b

@[simp] theorem retired_mem (b : State) (h : Nat) (drains : Bool) : (retired b h drains).mem = b.mem := by
  cases drains <;> rfl

theorem retired_resp (b : State) (h : Nat) (drains : Bool) (x y : Option Response) :
    { retired { b with resp := x } h drains with resp := y } = { retired b h drains with resp := y } := by
  cases drains <;> rfl

@[simp] theorem retired_lock (b : State) (h : Nat) (drains : Bool) : (retired b h drains).lock = b.lock := by
  cases drains <;> rfl

@[simp] theorem reservation_retired (b : State) (h : Nat) (drains : Bool) (j : Nat) :
    reservation (retired b h drains) j = reservation b j := by
  cases drains <;> rfl

theorem lastWrite_retired {b : State} (hl : TableRising b.lw) (h : Nat) (drains : Bool) (j : Nat) :
    lastWrite (retired b h drains) j = if j = h ∧ drains = true then LastWrite.empty else lastWrite b j := by
  cases drains with
  | false => simp [retired]
  | true => simpa [retired] using lastWrite_setLastWrite hl h j LastWrite.empty

theorem run_retire_eq_retired {b : State} {h : Nat} {tr : Tracing} {op : ExecOp} {p : Phase} {r : ExecResult}
    (hh : h < b.hartCount) :
    ∃ x, System.run ⟨b, [⟨h, tr, op, Executor.retire ⟨h, tr, op, p⟩ r⟩]⟩ (List.replicate 3 (.executor 0)) =
      ⟨{ retired b h (Executor.drainsAfter ⟨h, tr, op, p⟩ r) with resp := x }, [⟨h, tr, op, .done r⟩]⟩ :=
  run_retire hh

theorem drainsAfter_of_wrote {e : Executor} {r : ExecResult} (hw : e.op.wrote r = true) : e.drainsAfter r = true := by
  simp [Executor.drainsAfter, retires_of_wrote hw, hw]

/-- The drain of an instruction that made a WRITE. -/
theorem run_drain {b : State} {h : Nat} {tr : Tracing} {op : ExecOp} {r : ExecResult} (hw : op.wrote r = true)
    (hh : h < b.hartCount) :
    ∃ x, System.run ⟨b, [⟨h, tr, op, .drainGet r⟩]⟩ (List.replicate 3 (.executor 0)) =
      ⟨{ retired b h true with resp := x }, [⟨h, tr, op, .done r⟩]⟩ := by
  have hdrains : Executor.drainsAfter ⟨h, tr, op, .release r⟩ r = true := drainsAfter_of_wrote hw
  have hrun := run_retire_eq_retired (tr := tr) (op := op) (p := .release r) (r := r) hh
  rwa [Executor.retire, if_pos hdrains, hdrains] at hrun

/-! ## LR (R196) -/

/-- The four commands of LR. -/
theorem run_lr {s : State} {h a : Nat} {n : AtomicWidth} (tr : Tracing) (hh : h < s.hartCount)
    (hfree : s.lock.held = false) (hread : accessError s .read n.width a = none) :
    ∃ x, System.run ⟨s, [⟨h, tr, .lr n a, .start⟩]⟩ (List.replicate 4 (.executor 0)) =
      ⟨{ setReservation s h ⟨a, n.width, true⟩ with lock := Lock.free, resp := x },
        [⟨h, tr, .lr n a, Executor.retire ⟨h, tr, .lr n a, .release (.value (memRead s.mem a n.width))⟩
          (.value (memRead s.mem a n.width))⟩]⟩ := by
  rw [run_replicate_succ, move_lockAcq rfl hh hfree, run_replicate_succ, move_readOf rfl (by exact hread),
    run_replicate_succ, move_makeLrOf rfl (by exact hh), run_replicate_succ, move_lockRel rfl (by exact hh) rfl]
  exact ⟨_, rfl⟩

/-- Settles O57: after the four commands the record is the hart's, and the drain, if any, touches its slot only. -/
theorem loadReservedSequence : Obligations.LoadReservedSequence := by
  intro s h a tr n hs hh hlock hg hm z
  obtain ⟨x, hrun⟩ := run_lr tr hh (by rw [hlock]) (accessError_of_gated hg hm)
  obtain ⟨x', hz⟩ : ∃ x', z = ⟨{ retired { setReservation s h ⟨a, n.width, true⟩ with lock := Lock.free, resp := x }
      h tr.everyInstr with resp := x' }, [⟨h, tr, .lr n a, .done (.value (memRead s.mem a n.width))⟩]⟩ := by
    have hsplit : z = System.run _ (List.replicate 3 (.executor 0)) := run_replicate_add _ _ 4 3
    rw [hsplit, hrun]
    exact run_retire_eq_retired (by exact hh)
  rw [hz]
  refine ⟨rfl, ?own, fun j hj => ?others, retired_lock _ _ _, retired_mem _ _ _, fun j => ?slots⟩
  case own =>
    rw [reservation_resp, reservation_retired]
    exact (reservation_setReservation hs.res.1 h h _).trans (if_pos rfl)
  case others =>
    rw [reservation_resp, reservation_retired]
    exact (reservation_setReservation hs.res.1 h j _).trans (if_neg hj)
  case slots =>
    rw [lastWrite_resp]
    exact lastWrite_retired (by exact hs.lw.1) h tr.everyInstr j

/-! ## AMO (R198, R199) -/

/-- The four commands of an AMO. -/
theorem run_amo {s : State} {h a : Nat} {n : AtomicWidth} (tr : Tracing) (f : AmoOp) (b : DataWord)
    (hh : h < s.hartCount) (hfree : s.lock.held = false) (hread : accessError s .read n.width a = none)
    (hwrite : accessError s .write n.width a = none) :
    ∃ x, System.run ⟨s, [⟨h, tr, .amo f n a b, .start⟩]⟩ (List.replicate 4 (.executor 0)) =
      ⟨{ writeEffect n.width h a (amoValue f n (memRead s.mem a n.width) b) s with lock := Lock.free, resp := x },
        [⟨h, tr, .amo f n a b, .drainGet (.value (memRead s.mem a n.width))⟩]⟩ := by
  rw [run_replicate_succ, move_lockAcq rfl hh hfree, run_replicate_succ, move_readOf rfl (by exact hread),
    run_replicate_succ, move_writeOf rfl (by exact hh) (by exact hwrite),
    run_replicate_succ, move_lockRel rfl (by exact hh) rfl]
  exact ⟨_, rfl⟩

/-- Settles O59: the four commands take the WRITE's effect, and the drain empties the slot it filled. -/
theorem atomicMemoryOperationSequence : Obligations.AtomicMemoryOperationSequence := by
  intro s h a tr f n b hs hh hlock hgread hgwrite hm y w z old new
  obtain ⟨x, hw⟩ : ∃ x, w = ⟨{ writeEffect n.width h a (amoValue f n old b) s with lock := Lock.free, resp := x },
      [⟨h, tr, .amo f n a b, .drainGet (.value old)⟩]⟩ :=
    run_amo tr f b hh (by rw [hlock]) (accessError_of_gated hgread hm) (accessError_of_gated hgwrite hm)
  obtain ⟨x', hz⟩ : ∃ x', z = ⟨{ retired w.block h true with resp := x' },
      [⟨h, tr, .amo f n a b, .done (.value old)⟩]⟩ := by
    have hsplit : z = w.run (List.replicate 3 (.executor 0)) := run_replicate_add y _ 4 3
    rw [hsplit, hw]
    exact run_drain rfl (by exact hh)
  have hcanon : Canonical (writeEffect n.width h a (amoValue f n old b) s) := canonical_writeEffect hs _ _ _ _
  rw [hz, hw]
  refine ⟨rfl, ?record, rfl, ?drained, rfl, ?reservation, rfl⟩
  case record => exact (lastWrite_writeEffect hs.lw.1 n.width h a _ h).trans (if_pos rfl)
  case drained =>
    rw [lastWrite_resp]
    exact (lastWrite_retired (by exact hcanon.lw.1) h true h).trans (if_pos ⟨rfl, rfl⟩)
  case reservation => exact reservation_writeEffect_self hs.res.1 n.width h a _

/-! ## SC (R197) -/

/-- The SC goes on to its WRITE exactly if HAS_LR answers 1. -/
theorem advance_hasLr (h : Nat) (tr : Tracing) (n : AtomicWidth) (a : Nat) (v : DataWord) (held : Bool) :
    Executor.advance ⟨h, tr, .sc n a v, .test⟩ (.ok ⟨if held then 1 else 0, 0, 0⟩) =
      ⟨h, tr, .sc n a v, if held then .write 0 else .drop .notReserved⟩ := by
  cases held <;> rfl

/-- LOCK_ACQ and HAS_LR: the SC goes on to its WRITE exactly if the hart holds a reservation at the address. -/
theorem run_sc_test {s : State} {h : Nat} (tr : Tracing) (n : AtomicWidth) (a : Nat) (v : DataWord)
    (hh : h < s.hartCount) (hfree : s.lock.held = false) :
    ∃ x, System.run ⟨s, [⟨h, tr, .sc n a v, .start⟩]⟩ (List.replicate 2 (.executor 0)) =
      ⟨{ s with lock := ⟨true, h⟩, resp := x },
        [⟨h, tr, .sc n a v, if (reservation s h).holdsAt a then .write 0 else .drop .notReserved⟩]⟩ := by
  rw [run_replicate_succ, move_lockAcq rfl hh hfree, run_replicate_succ, move_hasLr rfl hh]
  exact ⟨_, congrArg (System.mk _ [·]) (advance_hasLr h tr n a v ((reservation s h).holdsAt a))⟩

/-- The block after the INVALIDATE_LR and LOCK_REL that end an SC of hart `h`; the response apart. -/
def dropped (b : State) (h : Nat) : State :=
  { setReservation b h (reservation b h).cleared with lock := Lock.free }

theorem valid_reservation_dropped {b : State} (hr : TableRising b.res) (h : Nat) :
    (reservation (dropped b h) h).valid = false := by
  have hrecord : reservation (dropped b h) h = (reservation b h).cleared :=
    (reservation_setReservation hr h h _).trans (if_pos rfl)
  rw [hrecord]
  rfl

theorem run_drop {b : State} {h : Nat} (tr : Tracing) (op : ExecOp) (r : ExecResult) (hh : h < b.hartCount)
    (howned : b.lock = ⟨true, h⟩) :
    ∃ x, System.run ⟨b, [⟨h, tr, op, .drop r⟩]⟩ (List.replicate 2 (.executor 0)) =
      ⟨{ dropped b h with resp := x }, [⟨h, tr, op, Executor.retire ⟨h, tr, op, .release r⟩ r⟩]⟩ := by
  rw [run_replicate_succ, move_invalidateLr rfl hh, run_replicate_succ, move_lockRel rfl hh howned]
  exact ⟨_, rfl⟩

/-- The end of an SC with its drain, from INVALIDATE_LR on. -/
theorem run_drop_retire {b : State} {h : Nat} (tr : Tracing) (op : ExecOp) (r : ExecResult) (hh : h < b.hartCount)
    (howned : b.lock = ⟨true, h⟩) :
    ∃ x, System.run ⟨b, [⟨h, tr, op, .drop r⟩]⟩ (List.replicate 5 (.executor 0)) =
      ⟨{ retired (dropped b h) h (Executor.drainsAfter ⟨h, tr, op, .release r⟩ r) with resp := x },
        [⟨h, tr, op, .done r⟩]⟩ := by
  obtain ⟨x, hdrop⟩ := run_drop tr op r hh howned
  obtain ⟨x', hretire⟩ := run_retire_eq_retired (b := { dropped b h with resp := x }) (tr := tr) (op := op)
    (p := .release r) (r := r) hh
  rw [run_replicate_add _ _ 2 3, hdrop, hretire]
  exact ⟨x', congrArg (System.mk · _) (retired_resp (dropped b h) h _ x x')⟩

section Reserved

variable {s : State} {h a : Nat} {n : AtomicWidth} (tr : Tracing) (v : DataWord)

/-- The five commands of an SC that finds its reservation and whose WRITE passes. -/
theorem run_sc_stored (hh : h < s.hartCount) (hfree : s.lock.held = false)
    (hheld : (reservation s h).holdsAt a = true) (hwrite : accessError s .write n.width a = none) :
    ∃ x, System.run ⟨s, [⟨h, tr, .sc n a v, .start⟩]⟩ (List.replicate 5 (.executor 0)) =
      ⟨{ dropped (writeEffect n.width h a v s) h with resp := x }, [⟨h, tr, .sc n a v, .drainGet .stored⟩]⟩ := by
  obtain ⟨x, htest⟩ := run_sc_test tr n a v hh hfree
  rw [run_replicate_add _ _ 2 3, htest, if_pos hheld, run_replicate_succ,
    move_writeOf rfl (by exact hh) (by exact hwrite)]
  exact run_drop tr (.sc n a v) .stored (by exact hh) rfl

/-- The five commands of an SC that finds its reservation and whose WRITE fails; there is no drain. -/
theorem run_sc_writeFailed {k : ErrKind} (hh : h < s.hartCount) (hfree : s.lock.held = false)
    (hheld : (reservation s h).holdsAt a = true) (hwrite : accessError s .write n.width a = some k) :
    ∃ x, System.run ⟨s, [⟨h, tr, .sc n a v, .start⟩]⟩ (List.replicate 8 (.executor 0)) =
      ⟨{ retired (dropped s h) h false with resp := x }, [⟨h, tr, .sc n a v, .done (.writeFailed k)⟩]⟩ := by
  obtain ⟨x, htest⟩ := run_sc_test tr n a v hh hfree
  rw [run_replicate_add _ _ 2 6, htest, if_pos hheld, run_replicate_succ,
    move_writeOf_failed rfl (by exact hh) (by exact hwrite)]
  exact run_drop_retire tr (.sc n a v) (.writeFailed k) (by exact hh) rfl

/-- The four commands of an SC that finds no reservation, and its drain, if it makes one. -/
theorem run_sc_notReserved (hh : h < s.hartCount) (hfree : s.lock.held = false)
    (hheld : ¬(reservation s h).holdsAt a = true) :
    ∃ x, System.run ⟨s, [⟨h, tr, .sc n a v, .start⟩]⟩ (List.replicate 8 (.executor 0)) =
      ⟨{ retired (dropped s h) h tr.everyInstr with resp := x }, [⟨h, tr, .sc n a v, .done .notReserved⟩]⟩ := by
  obtain ⟨x, htest⟩ := run_sc_test tr n a v hh hfree
  rw [run_replicate_add _ _ 2 6, htest, if_neg hheld, run_replicate_add _ _ 5 1]
  obtain ⟨x', hdrop⟩ := run_drop_retire (b := { s with lock := ⟨true, h⟩, resp := x }) tr (.sc n a v) .notReserved hh
    rfl
  rw [hdrop, run_replicate_succ, move_of_done]
  exact ⟨x', congrArg (System.mk · _) (retired_resp (dropped s h) h tr.everyInstr x x')⟩

end Reserved

/-- What every SC leaves, whatever its WRITE made of the block before. -/
theorem dropped_of_ended {z : System} {b : State} {h : Nat} {drains : Bool} {x : Option Response} {es : List Executor}
    (hr : TableRising b.res) (hz : z = ⟨{ retired (dropped b h) h drains with resp := x }, es⟩) :
    (reservation z.block h).valid = false ∧ z.block.lock = ⟨false, 0⟩ := by
  rw [hz]
  constructor
  · rw [reservation_resp, reservation_retired]
    exact valid_reservation_dropped hr h
  · exact retired_lock _ _ _

theorem firstError_of_failsWith {i : Instr} {s : State} {k : ErrKind} (h : FailsWith i s k) :
    firstError s i = some k := by
  obtain ⟨k', herror, hstate⟩ | ⟨-, hstate⟩ := exec_cases h
  · cases congrArg State.resp hstate
    exact herror
  · cases congrArg State.resp hstate

/-- Settles O58: the reservation is held or not, and the WRITE of an SC that holds it passes or fails. -/
theorem storeConditionalSequence : Obligations.StoreConditionalSequence := by
  intro s h a tr n v hs hh hlock y w z
  have hfree : s.lock.held = false := by rw [hlock]
  have hfails : ∀ k, FailsWith (.writeOf n.width h a v) s k → accessError s .write n.width a = some k := fun k hk =>
    (firstError_writeOf_of_hart hh n.width a v).symm.trans (firstError_of_failsWith hk)
  by_cases hheld : (reservation s h).holdsAt a = true
  · have hreserved := holdsAt_iff.mp hheld
    cases hwrite : accessError s .write n.width a with
    | none =>
      obtain ⟨x, hw⟩ : ∃ x, w = _ := run_sc_stored tr v hh hfree hheld hwrite
      obtain ⟨x', hz⟩ : ∃ x', z = ⟨{ retired (dropped (writeEffect n.width h a v s) h) h true with resp := x' },
          [⟨h, tr, .sc n a v, .done .stored⟩]⟩ := by
        have hsplit : z = w.run (List.replicate 3 (.executor 0)) := run_replicate_add y _ 5 3
        rw [hsplit, hw]
        exact run_drain rfl (by exact hh)
      have hcanon : Canonical (writeEffect n.width h a v s) := canonical_writeEffect hs _ _ _ _
      obtain ⟨hvalid, hunlocked⟩ := dropped_of_ended hcanon.res.1 hz
      refine ⟨hvalid, hunlocked, fun _ _ _ _ => ?stored, fun k _ _ hk => ?failed, fun hnot => absurd hreserved hnot⟩
      case stored =>
        rw [hz, hw]
        refine ⟨rfl, ?record, rfl, ?drained, rfl⟩
        case record => exact (lastWrite_writeEffect hs.lw.1 n.width h a v h).trans (if_pos rfl)
        case drained =>
          rw [lastWrite_resp]
          exact (lastWrite_retired (by exact hcanon.lw.1) h true h).trans (if_pos ⟨rfl, rfl⟩)
      case failed =>
        rw [hfails k hk] at hwrite
        cases hwrite
    | some k =>
      obtain ⟨x, hz⟩ : ∃ x, z = _ := run_sc_writeFailed tr v hh hfree hheld hwrite
      obtain ⟨hvalid, hunlocked⟩ := dropped_of_ended hs.res.1 hz
      refine ⟨hvalid, hunlocked, fun _ _ hg hm => ?stored, fun k' _ _ hk' => ?failed, fun hnot => absurd hreserved hnot⟩
      case stored =>
        rw [accessError_of_gated hg hm] at hwrite
        cases hwrite
      case failed =>
        cases hwrite.symm.trans (hfails k' hk')
        rw [hz]
        exact ⟨rfl, rfl, rfl⟩
  · obtain ⟨x, hz⟩ : ∃ x, z = _ := run_sc_notReserved tr v hh hfree hheld
    obtain ⟨hvalid, hunlocked⟩ := dropped_of_ended hs.res.1 hz
    have hnone : (reservation s h).valid = true → ¬(reservation s h).address = a := fun hv ha =>
      hheld (holdsAt_iff.mpr ⟨hv, ha⟩)
    refine ⟨hvalid, hunlocked, fun hv ha => absurd ha (hnone hv), fun _ hv ha => absurd ha (hnone hv), fun _ => ?_⟩
    rw [hz]
    refine ⟨rfl, retired_mem _ _ _, fun j => ?_⟩
    rw [lastWrite_resp]
    exact lastWrite_retired (by exact hs.lw.1) h tr.everyInstr j

end Sys2Proof.Machine
end

