-- ==== Sys2Proof/Proofs/ScContest.lean ====
section
/-! Two harts that both hold a reservation on one word run their SCs (R202 (a)): what each command of an SC is to the
two reservations, who has won and who is beaten after each move, and the obligation that exactly one SC stores. -/

namespace Sys2Proof.Machine

/-! ## The outcome an SC has reached -/

/-- The outcome an instruction has reached, its end included. -/
def Phase.verdict? : Phase → Option ExecResult
  | .done r => some r
  | p => p.outcome?

@[simp] theorem verdict?_retire (e : Executor) (r : ExecResult) : (e.retire r).verdict? = some r := by
  unfold Executor.retire
  split <;> rfl

/-- An outcome, once reached, stays, whatever the commands after it answer. -/
theorem verdict?_advance {e : Executor} {r : ExecResult} (h : e.phase.verdict? = some r) (resp : Response) :
    (e.advance resp).phase.verdict? = some r := by
  obtain ⟨hart, tr, op, phase⟩ := e
  cases phase with
  | start | test | reserve | write => cases h
  | drop | drainOld | drainClear | done => exact h
  | release r' =>
    cases h
    exact verdict?_retire _ r
  | drainGet r' =>
    dsimp only [Executor.advance, Executor.nextPhase]
    split <;> exact h

/-! ## What an SC's command is to the reservations (R197) -/

@[simp] theorem configures_writeOf (n : Width) (h a : Nat) (d : DataWord) :
    (Instr.writeOf n h a d).configures = false := by
  cases n <;> rfl

/-- A command that configures nothing, makes no reservation and clears none but, perhaps, that of hart `h`. -/
structure Sparing (h : Nat) (i : Instr) : Prop where
  configures : i.configures = false
  remakes : ∀ j, i.remakes j = false
  clears : ∀ j r, j ≠ h → i.clears j r = false

/-- What a command is to the SC at `a` of the executor that issues it. -/
inductive Executor.ScRole (e : Executor) (n : AtomicWidth) (a : Nat) : Instr → Prop where
  /-- A try to enter the bracket. -/
  | asks (phase : e.phase = .start)
      (after : ∀ r, (e.advance r).phase = .start ∨ (e.advance r).phase = .test) : ScRole e n a (.lockAcq e.hart)
  /-- The test of the reservation. -/
  | tests (phase : e.phase = .test)
      (after : ∀ held : Bool, (e.advance (.ok ⟨if held then 1 else 0, 0, 0⟩)).phase =
        if held then .write 0 else .drop .notReserved) : ScRole e n a (.hasLr e.hart a)
  /-- The WRITE, after a test that found the reservation. -/
  | writes (v old : DataWord) (phase : e.phase = .write old)
      (after : ∀ ans, (e.advance (.ok ans)).phase = .drop .stored) : ScRole e n a (.writeOf n.width e.hart a v)
  /-- The rest of the bracket and the drain: the outcome is reached. -/
  | ends {i : Instr} (r : ExecResult) (verdict : e.phase.verdict? = some r) (sparing : Sparing e.hart i) :
      ScRole e n a i

/-- INVALIDATE_LR clears its own hart's reservation only (R178). -/
theorem sparing_invalidateLr (h : Nat) : Sparing h (.invalidateLr h) :=
  ⟨rfl, fun _ => rfl, fun _ _ hj => beq_false_of_ne hj.symm⟩

theorem scRole_of_command {e : Executor} {n : AtomicWidth} {a : Nat} {v : DataWord} {i : Instr}
    (hop : e.op = .sc n a v) (hi : e.command = some i) : e.ScRole n a i := by
  obtain ⟨h, tr, op, phase⟩ := e
  obtain rfl : op = .sc n a v := hop
  cases phase with
  | start =>
    cases hi
    refine .asks rfl fun r => ?_
    cases r with
    | ok ans => exact Or.inr rfl
    | failed k => exact Or.inl rfl
  | test =>
    cases hi
    exact .tests rfl fun held => congrArg Executor.phase (advance_hasLr h tr n a v held)
  | reserve | done => cases hi
  | write old =>
    cases hi
    exact .writes v old rfl fun _ => rfl
  | drop r =>
    cases hi
    exact .ends r rfl (sparing_invalidateLr h)
  | release r | drainGet r | drainOld r | drainClear r =>
    cases hi
    exact .ends r rfl ⟨rfl, fun _ => rfl, fun _ _ _ => rfl⟩

theorem not_configures_of_scRole {e : Executor} {n : AtomicWidth} {a : Nat} {i : Instr} (hrole : e.ScRole n a i) :
    i.configures = false := by
  cases hrole with
  | asks | tests => rfl
  | writes v => exact configures_writeOf n.width e.hart a v
  | ends r hverdict hsparing => exact hsparing.configures

/-! ## The reservations after a command that makes none (R191) -/

theorem reservation_exec_of_sparing {i : Instr} {s t : State} {h j : Nat} (hs : Canonical s) (he : exec i s = .next t)
    (hi : Sparing h i) (hj : j ≠ h) : reservation t j = reservation s j :=
  reservation_exec_of_undisturbed hs he (fun _ => hi.clears j _ hj) (hi.remakes j)

/-- Only a MAKE_LR of the hart makes an invalid record valid. -/
theorem invalid_reservation_exec {i : Instr} {s t : State} {j : Nat} (hs : Canonical s) (he : exec i s = .next t)
    (hi : i.remakes j = false) (hinvalid : (reservation s j).valid = false) : (reservation t j).valid = false := by
  obtain ⟨k, -, rfl⟩ | ⟨-, rfl⟩ := exec_cases he
  · exact hinvalid
  · rw [reservation_resp, reservation_effect hs i j hi]
    split
    · split <;> rfl
    · exact hinvalid

/-- A store of the width of a reservation, at its address, shares its bytes. -/
theorem overlap_self (a : Nat) (n : Width) : overlap a n.bytes ⟨a, n, true⟩ = true := by
  simp [overlap, width_bytes_pos]

/-! ## The contest -/

/-- No outcome yet, and the reservation held. -/
def Untried (n : AtomicWidth) (a : Nat) (b : State) (e : Executor) : Prop :=
  e.phase.verdict? = none ∧ reservation b e.hart = ⟨a, n.width, true⟩

/-- The SC has stored. -/
def Won (e : Executor) : Prop := e.phase.verdict? = some .stored

/-- The reservation is lost, before the test or found so by it. -/
def Beaten (b : State) (e : Executor) : Prop :=
  (e.phase = .start ∨ e.phase = .test ∨ e.phase.verdict? = some .notReserved) ∧ (reservation b e.hart).valid = false

/-- Both SCs are open, or one has stored and the other has lost its reservation. -/
def Score (n : AtomicWidth) (a : Nat) (b : State) (e f : Executor) : Prop :=
  Untried n a b e ∧ Untried n a b f ∨ Won e ∧ Beaten b f ∨ Beaten b e ∧ Won f

/-- Two executors of different harts run SCs of one width at `a`, which is writable. -/
structure Contest (n : AtomicWidth) (a : Nat) (b : State) (e f : Executor) : Prop where
  tables : Canonical b
  writable : accessError b .write n.width a = none
  distinct : e.hart ≠ f.hart
  exist : e.hart < b.hartCount ∧ f.hart < b.hartCount
  ops : (∃ v, e.op = .sc n a v) ∧ ∃ v, f.op = .sc n a v
  score : Score n a b e f

section Contest

variable {n : AtomicWidth} {a : Nat} {b t : State} {e f : Executor}

theorem Score.symm (h : Score n a b e f) : Score n a b f e := by
  obtain ⟨he, hf⟩ | ⟨he, hf⟩ | ⟨he, hf⟩ := h
  · exact Or.inl ⟨hf, he⟩
  · exact Or.inr (Or.inr ⟨hf, he⟩)
  · exact Or.inr (Or.inl ⟨hf, he⟩)

theorem Contest.symm (h : Contest n a b e f) : Contest n a b f e :=
  ⟨h.tables, h.writable, h.distinct.symm, h.exist.symm, h.ops.symm, h.score.symm⟩

/-- A move of `e` that spares the reservation of `f` keeps the score if it keeps the standing of `e`. -/
theorem Score.of_spared {e' : Executor} (h : Score n a b e f) (hf : reservation t f.hart = reservation b f.hart)
    (huntried : Untried n a b e → Untried n a t e') (hwon : Won e → Won e') (hbeaten : Beaten b e → Beaten t e') :
    Score n a t e' f := by
  have hbeatenOther : Beaten b f → Beaten t f := fun ⟨hphase, hinvalid⟩ => ⟨hphase, by rwa [hf]⟩
  obtain ⟨he, hphase, hheld⟩ | ⟨he, hother⟩ | ⟨he, hother⟩ := h
  · exact Or.inl ⟨huntried he, hphase, by rwa [hf]⟩
  · exact Or.inr (Or.inl ⟨hwon he, hbeatenOther hother⟩)
  · exact Or.inr (Or.inr ⟨hbeaten he, hother⟩)

/-- An SC outside its bracket without an outcome has not begun. -/
theorem phase_eq_start_of_untried (hverdict : f.phase.verdict? = none) (hout : f.inBody = false) :
    f.phase = .start := by
  obtain ⟨h, tr, op, phase⟩ := f
  cases phase with
  | start => rfl
  | test | reserve | write => cases hout
  | drop | release | drainGet | drainOld | drainClear | done => cases hverdict

/-- LOCK_ACQ leaves both standings. -/
theorem score_of_asks {r : Response} (hs : Canonical b) (h : Score n a b e f) (hphase : e.phase = .start)
    (hafter : (e.advance r).phase = .start ∨ (e.advance r).phase = .test)
    (he : exec (.lockAcq e.hart) b = .next t) : Score n a t (e.advance r) f := by
  have hres : ∀ j, reservation t j = reservation b j := fun j =>
    reservation_exec_of_undisturbed hs he (fun _ => rfl) rfl
  refine h.of_spared (hres f.hart) ?untried ?won ?beaten
  case untried =>
    rintro ⟨-, hheld⟩
    refine ⟨?_, (hres e.hart).trans hheld⟩
    obtain hp | hp := hafter <;> rw [hp] <;> rfl
  case won =>
    intro hwon
    rw [Won, hphase] at hwon
    cases hwon
  case beaten =>
    rintro ⟨-, hinvalid⟩
    refine ⟨?_, (congrArg Reservation.valid (hres e.hart)).trans hinvalid⟩
    obtain hp | hp := hafter
    · exact Or.inl hp
    · exact Or.inr (Or.inl hp)

/-- HAS_LR finds the reservation of an open SC and not that of a beaten one. -/
theorem score_of_tests {r : Response} (h : Score n a b e f) (hexists : e.hart < b.hartCount) (hphase : e.phase = .test)
    (hafter : ∀ held : Bool, (e.advance (.ok ⟨if held then 1 else 0, 0, 0⟩)).phase =
      if held then .write 0 else .drop .notReserved)
    (he : exec (.hasLr e.hart a) b = .next t) (hr : t.resp = some r) : Score n a t (e.advance r) f := by
  rw [exec_readOnly_of_none (i := .hasLr e.hart a) rfl (hartError_none.mpr hexists)] at he
  cases he
  cases hr
  specialize hafter ((reservation b e.hart).holdsAt a)
  refine h.of_spared rfl ?untried ?won ?beaten
  case untried =>
    rintro ⟨-, hheld⟩
    refine ⟨?_, hheld⟩
    rw [result, hafter, if_pos (holdsAt_iff.mpr (by simp [hheld]))]
    rfl
  case won =>
    intro hwon
    rw [Won, hphase] at hwon
    cases hwon
  case beaten =>
    rintro ⟨-, hinvalid⟩
    refine ⟨Or.inr (Or.inr ?_), hinvalid⟩
    rw [result, hafter, if_neg (by simp [holdsAt_iff, hinvalid])]
    rfl

/-- The WRITE stores, and its sweep takes the reservation of the other SC, which has not begun (R171, R197). -/
theorem score_of_writes {r : Response} {v old : DataWord} (h : Contest n a b e f) (hout : f.inBody = false)
    (hphase : e.phase = .write old) (hafter : ∀ ans, (e.advance (.ok ans)).phase = .drop .stored)
    (he : exec (.writeOf n.width e.hart a v) b = .next t) (hr : t.resp = some r) : Score n a t (e.advance r) f := by
  obtain ⟨-, hverdict, hheld⟩ : Untried n a b e ∧ Untried n a b f := by
    obtain hopen | ⟨hwon, -⟩ | ⟨⟨hbeaten, -⟩, -⟩ := h.score
    · exact hopen
    · rw [Won, hphase] at hwon
      cases hwon
    · rw [hphase] at hbeaten
      obtain hbeaten | hbeaten | hbeaten := hbeaten <;> cases hbeaten
  have hpass : firstError b (.writeOf n.width e.hart a v) = none :=
    (firstError_writeOf_of_hart h.exist.1 _ _ _).trans h.writable
  rw [exec_of_none hpass] at he
  cases he
  cases hr
  refine Or.inr (Or.inl ⟨?won, Or.inl (phase_eq_start_of_untried hverdict hout), ?beaten⟩)
  case won =>
    rw [Won, hafter]
    rfl
  case beaten =>
    rw [reservation_resp, effect_writeOf, reservation_writeEffect_other h.tables.res.1 _ h.distinct.symm, hheld,
      if_pos (overlap_self a n.width)]
    rfl

/-- After the outcome the commands leave both standings: they make no reservation, and clear none but their own. -/
theorem score_of_ends {r : Response} {x : ExecResult} {i : Instr} (h : Contest n a b e f)
    (hverdict : e.phase.verdict? = some x) (hi : Sparing e.hart i) (he : exec i b = .next t) :
    Score n a t (e.advance r) f := by
  refine h.score.of_spared (reservation_exec_of_sparing h.tables he hi h.distinct.symm) ?untried ?won ?beaten
  case untried =>
    rintro ⟨hnone, -⟩
    rw [hverdict] at hnone
    cases hnone
  case won => exact fun hwon => verdict?_advance hwon r
  case beaten =>
    rintro ⟨hphase, hinvalid⟩
    refine ⟨Or.inr (Or.inr ?_), invalid_reservation_exec h.tables he (hi.remakes e.hart) hinvalid⟩
    obtain hphase | hphase | hphase := hphase
    · rw [hphase] at hverdict
      cases hverdict
    · rw [hphase] at hverdict
      cases hverdict
    · exact verdict?_advance hphase r

/-- A command of one of the two, the other being outside its bracket if the one is inside. -/
theorem Contest.advance {i : Instr} {r : Response} (h : Contest n a b e f)
    (hexclusive : e.inBody = true → f.inBody = false) (hi : e.command = some i) (he : exec i b = .next t)
    (hr : t.resp = some r) : Contest n a t (e.advance r) f := by
  obtain ⟨v, hop⟩ := h.ops.1
  have hrole := scRole_of_command hop hi
  obtain ⟨hpma, -, hcount, -⟩ :=
    configurationChangesOnlyByConfiguring i b t (not_configures_of_scRole hrole) he
  refine ⟨canonical_exec h.tables he, (accessError_congr (exec_cfg he) hpma _ _ _).trans h.writable, h.distinct,
    by rw [hcount]; exact h.exist, h.ops, ?score⟩
  cases hrole with
  | asks hphase hafter => exact score_of_asks h.tables h.score hphase (hafter r) he
  | tests hphase hafter => exact score_of_tests h.score h.exist.1 hphase hafter he hr
  | writes v old hphase hafter =>
    have hinside : e.inBody = true := by
      rw [Executor.inBody, hphase]
      rfl
    exact score_of_writes h (hexclusive hinside) hphase hafter he hr
  | ends x hverdict hsparing => exact score_of_ends h hverdict hsparing he

/-- The response is no part of a contest. -/
theorem Contest.resp (h : Contest n a b e f) (r : Option Response) : Contest n a { b with resp := r } e f :=
  ⟨canonical_resp h.tables r, h.writable, h.distinct, h.exist, h.ops, h.score⟩

/-! ## The run -/

/-- What every move of the schedule keeps: the bracket's discipline and the contest. -/
structure ContestRun (n : AtomicWidth) (a : Nat) (y : System) : Prop where
  owned : LockOwned y
  harts : DistinctHarts y
  contest : ∃ e f, y.execs = [e, f] ∧ Contest n a y.block e f

theorem ContestRun.exclusive {y : System} (hy : ContestRun n a y) (hexecs : y.execs = [e, f]) :
    (e.inBody = true → f.inBody = false) ∧ (f.inBody = true → e.inBody = false) := by
  have hnotBoth : ¬(e.inBody = true ∧ f.inBody = true) := fun ⟨he, hf⟩ =>
    Nat.zero_ne_one (index_eq_of_inBody hy.owned hy.harts (by rw [hexecs]; rfl) (by rw [hexecs]; rfl) he hf)
  exact ⟨fun he => eq_false_of_ne_true fun hf => hnotBoth ⟨he, hf⟩,
    fun hf => eq_false_of_ne_true fun he => hnotBoth ⟨he, hf⟩⟩

theorem contest_move {y : System} {m : Move} (hy : ContestRun n a y) (hm : ∀ i, m = .other i → i.readOnly = true) :
    ∃ e f, (y.move m).execs = [e, f] ∧ Contest n a (y.move m).block e f := by
  obtain ⟨e, f, hexecs, hcontest⟩ := hy.contest
  cases m with
  | other i =>
    obtain ⟨t, hexec, hmove⟩ := move_other_cases y i
    rw [hmove, readOnlyCommandsChangeNothing i y.block t (hm i rfl) hexec]
    exact ⟨e, f, hexecs, hcontest.resp _⟩
  | executor k =>
    obtain hmove | ⟨g, i, t, r, hg, hi, hexec, hr, hmove⟩ := move_executor_cases y k
    · rw [hmove]
      exact ⟨e, f, hexecs, hcontest⟩
    · obtain ⟨houtF, houtE⟩ := hy.exclusive hexecs
      rw [hmove]
      rw [hexecs] at hg ⊢
      match k, hg with
      | 0, hg =>
        cases hg
        exact ⟨_, f, rfl, hcontest.advance houtF hi hexec hr⟩
      | 1, hg =>
        cases hg
        exact ⟨e, _, rfl, (hcontest.symm.advance houtE hi hexec hr).symm⟩
      | k + 2, hg => cases hg

theorem leavesLock_of_readOnly {i : Instr} (hi : i.readOnly = true) : i.leavesLock = true := by
  cases i <;> first | rfl | cases hi

theorem ContestRun.move {y : System} {m : Move} (hy : ContestRun n a y) (hm : ∀ i, m = .other i → i.readOnly = true) :
    ContestRun n a (y.move m) :=
  ⟨lockOwned_move hy.owned hy.harts fun i hi => leavesLock_of_readOnly (hm i hi), distinctHarts_move hy.harts m,
    contest_move hy hm⟩

theorem ContestRun.run {y : System} (hy : ContestRun n a y) {moves : List Move}
    (hmoves : ∀ i, Move.other i ∈ moves → i.readOnly = true) : ContestRun n a (y.run moves) :=
  List.foldlRecOn (motive := ContestRun n a) moves System.move hy fun _ hz _ hm =>
    hz.move fun i hi => hmoves i (hi ▸ hm)

end Contest

/-- The outcomes of two SCs that are done, by the score. -/
theorem outcomes_of_score {n : AtomicWidth} {a : Nat} {b : State} {e f : Executor} {p q : ExecResult}
    (h : Score n a b e f) (he : e.phase = .done p) (hf : f.phase = .done q) :
    (p = .stored ∧ q = .notReserved) ∨ (p = .notReserved ∧ q = .stored) := by
  have hwon : ∀ {g : Executor} {r : ExecResult}, g.phase = .done r → Won g → r = .stored := by
    intro g r hdone hg
    rw [Won, hdone] at hg
    exact Option.some.inj hg
  have hbeaten : ∀ {g : Executor} {r : ExecResult}, g.phase = .done r → Beaten b g → r = .notReserved := by
    rintro g r hdone ⟨hphase | hphase | hphase, -⟩ <;> rw [hdone] at hphase
    · cases hphase
    · cases hphase
    · exact Option.some.inj hphase
  obtain ⟨⟨hopen, -⟩, -⟩ | ⟨hew, hfb⟩ | ⟨heb, hfw⟩ := h
  · rw [he] at hopen
    cases hopen
  · exact Or.inl ⟨hwon he hew, hbeaten hf hfb⟩
  · exact Or.inr ⟨hbeaten he heb, hwon hf hfw⟩

/-- Settles O60: the contest is kept along the schedule, and when both are done the score names the one that stored. -/
theorem exactlyOneStoreConditionalSucceeds : Obligations.ExactlyOneStoreConditionalSucceeds := by
  intro s g h a tr ur n v w moves hs hne hg hh hlock hgated hm hresg hresh hmoves p q hend
  have hstart : ContestRun n a ⟨s, [⟨g, tr, .sc n a v, .start⟩, ⟨h, ur, .sc n a w, .start⟩]⟩ := by
    refine ⟨fun e he hbody => ?owned, by simpa [DistinctHarts] using hne, _, _, rfl, ?contest⟩
    case owned => obtain rfl | rfl := List.mem_pair.mp he <;> cases hbody
    case contest =>
      exact ⟨hs, accessError_of_gated hgated hm, hne, ⟨hg, hh⟩, ⟨⟨v, rfl⟩, w, rfl⟩,
        Or.inl ⟨⟨rfl, hresg⟩, rfl, hresh⟩⟩
  obtain ⟨e, f, hexecs, hcontest⟩ := (hstart.run hmoves).contest
  cases hexecs.symm.trans hend
  exact outcomes_of_score hcontest.score rfl rfl

end Sys2Proof.Machine
end

