-- ==== Sys2Proof/Proofs/Failures.lean ====
section
/-! Failing commands: what one leaves of the state and of the response (R210), and the kinds it can fail with, read from
the tests it makes (R211, R212). -/

namespace Sys2Proof.Machine

/-! ## What a failure leaves (R210) -/

/-- A command that answered a failure raised its first failing test, and did nothing else. -/
theorem exec_failed {i : Instr} {s t : State} {k : ErrKind} (h : exec i s = .next t)
    (hk : t.resp = some (.failed k)) :
    firstError s i = some k ∧ t = { s with resp := some (.failed k) } := by
  obtain ⟨k', he, rfl⟩ | ⟨-, rfl⟩ := exec_cases h
  · cases hk
    exact ⟨he, rfl⟩
  · cases hk

/-- Code 0 stands for success (R211). -/
theorem errKind_code_ne_zero (k : ErrKind) : k.code ≠ 0 := by cases k <;> decide

/-- Settles O15: a failure is raised on the state as it was, and no kind has the code of success. -/
theorem failedCommandChangesNothing : Obligations.FailedCommandChangesNothing :=
  fun _ _ _ k h hk => ⟨(exec_failed h hk).2, rfl, errKind_code_ne_zero k⟩

/-! ## The kinds of an access (R211) -/

/-- The kinds of the gate's tests: an access that needs only `Mapped` is not refused a permission, and one of a byte
does not straddle. -/
def gateKinds (need : Need) (n : Width) : List ErrKind :=
  [.outOfBounds, .unmapped] ++ (if need = .mapped then [] else [.permissionDenied]) ++
    (if n = .b then [] else [.straddle])

/-- The kinds of the tests of a data access: the gate's, and the MMR rule's. -/
def accessKinds (need : Need) (n : Width) : List ErrKind := gateKinds need n ++ [.badMmrAccess]

theorem mem_accessKinds {s : State} {need : Need} {n : Width} {a : Nat} {k : ErrKind}
    (h : accessError s need n a = some k) : k ∈ accessKinds need n := by
  obtain ⟨hmem, hbyte, hmapped⟩ := accessError_kinds h
  cases k with
  | outOfBounds | unmapped | badMmrAccess => simp [accessKinds, gateKinds]
  | permissionDenied => simp [accessKinds, gateKinds, show need ≠ .mapped from fun hn => hmapped hn rfl]
  | straddle => simp [accessKinds, gateKinds, show n ≠ .b from fun hn => hbyte hn rfl]
  | configError | loaderError | badCommand | busy => simp at hmem

theorem mem_gateKinds {s : State} {need : Need} {n : Width} {a : Nat} {k : ErrKind}
    (h : gateError s need n a = some k) : k ∈ gateKinds need n := by
  have hne : k ≠ .badMmrAccess := by
    rintro rfl
    simpa using gateError_some h
  simpa [accessKinds, hne] using mem_accessKinds (accessError_of_gateError h)

/-! ## The kinds of each command (R212) -/

/-- A test made after that of the hart id adds its own kinds to `BadCommand`. -/
theorem eq_badCommand_or_of_hartError_or {s : State} {h : Nat} {e : Option ErrKind} {k : ErrKind}
    (he : (hartError s h).or e = some k) : k = .badCommand ∨ e = some k := by
  obtain hhart | ⟨-, he⟩ := Option.or_eq_some_iff.mp he
  · exact Or.inl (hartError_some.mp hhart).2
  · exact Or.inr he

theorem lockAcqError_some {s : State} {h : Nat} {k : ErrKind} (he : lockAcqError s h = some k) :
    k = .badCommand ∨ k = .busy := by
  refine (eq_badCommand_or_of_hartError_or he).imp_right fun hbusy => ?_
  split_ifs at hbusy
  exact (Option.some.inj hbusy).symm

theorem lockRelError_some {s : State} {h : Nat} {k : ErrKind} (he : lockRelError s h = some k) : k = .badCommand := by
  obtain rfl | hholder := eq_badCommand_or_of_hartError_or he
  · rfl
  · split_ifs at hholder
    exact (Option.some.inj hholder).symm

/-- A WRITE adds to the kinds of its access that of the hart id. -/
theorem mem_writeKinds {s : State} {h a : Nat} {n : Width} {k : ErrKind}
    (he : (hartError s h).or (accessError s .write n a) = some k) : k ∈ .badCommand :: accessKinds .write n :=
  List.mem_cons.mpr ((eq_badCommand_or_of_hartError_or he).imp_right mem_accessKinds)

theorem mem_failureKinds_of_firstError {i : Instr} {s : State} {k : ErrKind} (h : firstError s i = some k) :
    k ∈ i.failureKinds := by
  cases i
  case readB | readH | readW | readD => exact mem_accessKinds h
  case readInstHalf | readInstWord => exact mem_gateKinds h
  case writeB | writeH | writeW | writeD => exact mem_writeKinds h
  case checkWriteB | checkWriteH | checkWriteW | checkWriteD => exact mem_accessKinds h
  case pokeB | pokeH | pokeW | pokeD => exact mem_accessKinds h
  case getPma | invalidateLrsB | invalidateLrsH | invalidateLrsW | invalidateLrsD => cases h
  case lockAcq => exact List.mem_pair.mpr (lockAcqError_some h)
  case lockRel => exact List.mem_singleton.mpr (lockRelError_some h)
  case setHartCount | defineIccm | defineDccm | defineMmrArea | defineMmrMask | finishConfig =>
    exact List.mem_singleton.mpr (firstError_some_of_configures rfl h)
  all_goals exact List.mem_singleton.mpr (hartError_some.mp h).2

/-- The code of `LoaderError` is kept for ISS's list only; the loader is outside the block (R211, D3). -/
theorem loaderError_not_mem_failureKinds (i : Instr) : .loaderError ∉ i.failureKinds := by
  cases i <;> simp [Instr.failureKinds]

/-- Settles O16: the kind is that of one of the tests the command makes, and none of them raises `LoaderError`. -/
theorem failureKindsOfEachCommand : Obligations.FailureKindsOfEachCommand := by
  intro i s t k h hk
  have hmem : k ∈ i.failureKinds := mem_failureKinds_of_firstError (exec_failed h hk).1
  exact ⟨hmem, fun hloader => loaderError_not_mem_failureKinds i (hloader ▸ hmem)⟩

end Sys2Proof.Machine
end

