-- ==== Sys2Proof/Proofs/Construction.lean ====
section
/-! The block right after construction: the values its empty tables read as (R231), and the invariant (R230, R23). -/

namespace Sys2Proof.Machine

/-! ## What the empty tables read as (R231) -/

@[simp] theorem pmaPage_construct (c : Config) (image : Memory) (p : Nat) :
    pmaPage (State.construct c image) p = Pma.plain := tableGet_nil _ p

@[simp] theorem maskOf_construct (c : Config) (image : Memory) (a : Nat) :
    maskOf (State.construct c image) a = 0xFFFFFFFF#32 := maskOf_of_not_mem (by simp)

@[simp] theorem lastWrite_construct (c : Config) (image : Memory) (h : Nat) :
    lastWrite (State.construct c image) h = LastWrite.empty := tableGet_nil _ h

@[simp] theorem reservation_construct (c : Config) (image : Memory) (h : Nat) :
    reservation (State.construct c image) h = Reservation.empty := tableGet_nil _ h

theorem bits_plain : Pma.plain.bits = 0x07#6 := by decide

/-- Settles O10: every table but memory is empty, so each lookup answers the value of an unlisted key. -/
theorem constructionValues : Obligations.ConstructionValues := by
  intro c image
  refine ⟨rfl, fun _ => rfl, fun p => ?attributes, maskOf_construct c image, lastWrite_construct c image,
    reservation_construct c image, rfl, rfl, rfl⟩
  case attributes => rw [pmaPage_construct, bits_plain]

/-! ## The invariant (R230, R23) -/

/-- The parameters and the image are all that is to be checked: one hart exists, the lock is free, and no page, mask,
slot or record is listed. -/
theorem inv_construct {c : Config} {image : Memory} (hcfg : validConfig c = true) (hwf : Memory.wf image)
    (hin : ∀ kv ∈ image, kv.1 < spaceSize c) : Inv (State.construct c image) where
  cfg := hcfg
  memWf := hwf
  memIn := hin
  pmaWf := wf_nil _
  pmaIn := fun _ hkv => by cases hkv
  pmaValid := validConfig_construct c image
  maskWf := rising_nil
  maskIn := fun _ hkv => by cases hkv
  lwWf := wf_nil _
  lwIn := fun _ hkv => by cases hkv
  resWf := wf_nil _
  resIn := fun _ hkv => by cases hkv
  harts := ⟨le_rfl, Nat.one_le_two_pow⟩
  lockOk := ⟨Nat.one_pos, fun _ => rfl⟩

theorem validConfig_default : validConfig Config.default = true := by decide

/-- Settles O11: reset is the construction with the default parameters, which are valid, and an image that lists no
byte. -/
theorem invariantAtConstruction : Obligations.InvariantAtConstruction :=
  ⟨fun _ _ hcfg hwf hin => inv_construct hcfg hwf hin,
    inv_construct validConfig_default (wf_nil _) fun _ hkv => by cases hkv⟩

end Sys2Proof.Machine
end
